-- ==== Sys2Proof/Word.lean ====
section
/-! DEFINITION. The word types of the block (spec/10_state.md R21, R30, R46): a byte of a buffer or of CMD, the
32-bit host registers, and the 45-bit canonical code. Counts, indices and pointers are naturals (R10, R50: no rule
wraps, so unbounded naturals compute the same values). -/

namespace Sys2Proof

/-- One byte: a cell of IMEM or OMEM, the command byte, the STATUS byte (R21, R60, R61). -/
abbrev Byte := BitVec 8

/-- A 32-bit host register value: ILEN, OLEN (R24, R25). -/
abbrev Word32 := BitVec 32

/-- A canonical code register: 45 bits, of which the low LEN[s] are the code of symbol s (R30). -/
abbrev CodeWord := BitVec 45

end Sys2Proof
end

