-- ==== Sys2Proof/Config.lean ====
section
/-! DEFINITION. What is fixed for one instance of the block: the numbers of spec/00_scope.md R7 and R8, the two open
parameters of R9, and the one free value (what an unspecified byte of a buffer is). -/

namespace Sys2Proof

/-- NSYM, the number of symbols: 256 byte values and END_OF_STREAM (R7). -/
abbrev NSYM : Nat := 257
/-- EOS, the symbol id of END_OF_STREAM (R8, R86). -/
abbrev EOS : Nat := 256
/-- PH, the node index of the placeholder leaf (R8, R132). -/
abbrev PH : Nat := 257
/-- NODE_BASE, the node index of the first internal node (R8, R32). -/
abbrev NODE_BASE : Nat := 258
/-- NNODE, the size of the encoder's node store (R8, R32). -/
abbrev NNODE : Nat := 514
/-- L_MAX, the longest code length in bits (R8, R150). -/
abbrev L_MAX : Nat := 45
/-- HDR_LEN, the header length in bytes (R8, R90). -/
abbrev HDR_LEN : Nat := 265
/-- DNODE, the size of the decoder's decode-tree store (R8, R34, R175). -/
abbrev DNODE : Nat := 301

/-- MAGIC, the four tag bytes "HUF" and version 1 (R8, R91). -/
def MAGIC : List Byte := [0x48, 0x55, 0x46, 0x01]

/-- The two parameters an instance fixes (R9): the sizes in bytes of the input and of the output buffer. -/
structure Config where
  /-- IMEM_SIZE. -/
  imemSize : Nat
  /-- OMEM_SIZE. -/
  omemSize : Nat
  deriving DecidableEq, Repr

/-- FREE VALUE (log entry 2): the byte an address holds while the spec leaves it unspecified (R51, R263, R293). The
first argument counts the events that make bytes unspecified, the second is the address. It has no body: nothing can
be proved of its value. -/
opaque Config.freeByte : Nat → Nat → Byte

end Sys2Proof
end

