-- ==== Sys2Proof/Syntax.lean ====
section
/-! DEFINITION. The two instructions of the block, one constructor for each row of spec/opcode_table.json
(spec/30_encoding.md R80, R105). Neither has an operand: the input is IMEM and ILEN, the output OMEM and OLEN (R81). -/

namespace Sys2Proof

/-- The operations a host can start (R80). -/
inductive Instr where
  /-- COMPRESS, CMD.OP = 0x01 (R82, R210). -/
  | compress
  /-- DECOMPRESS, CMD.OP = 0x02 (R83, R225). -/
  | decompress
  deriving DecidableEq, Repr

end Sys2Proof
end

