-- ==== Sys2Proof/Decode.lean ====
section
/-! DEFINITION. Decoding the command byte, and its inverse (spec/30_encoding.md R81 to R84, R108). The decoder is
written from the match and mask columns of the opcode table; every byte that matches no row is rejected by name. -/

namespace Sys2Proof

/-- One row of the opcode table (R108): a byte c is this row's instruction when `c &&& mask = pattern`. -/
structure OpcodeRow where
  instr : Instr
  pattern : Byte
  mask : Byte
  deriving DecidableEq, Repr

/-- spec/opcode_table.json: OP is the whole byte, so both masks are 0xFF (R81). -/
def opcodeTable : List OpcodeRow :=
  [⟨.compress, 0x01, 0xFF⟩, ⟨.decompress, 0x02, 0xFF⟩]

/-- Why a command byte is no instruction. -/
inductive DecodeError where
  /-- A reserved OP value, 0x00 or 0x03 to 0xFF (R84). -/
  | reservedCommand (c : Byte)
  deriving DecidableEq, Repr

/-- `row` is the row of the command byte `c`. -/
def OpcodeRow.matches (row : OpcodeRow) (c : Byte) : Bool := c &&& row.mask == row.pattern

/-- The instruction of a command byte, or its rejection by name (R82, R83, R84). -/
def decode (c : Byte) : Except DecodeError Instr :=
  match opcodeTable.find? (·.matches c) with
  | some row => .ok row.instr
  | none => .error (.reservedCommand c)

/-- The command byte of an instruction (R82, R83). -/
def encode : Instr → Byte
  | .compress => 0x01
  | .decompress => 0x02

/-- The command byte of the table word `w` of `nbits` bits: the bits above `nbits` are 0 and the instruction is its
one byte (R81). -/
def commandByteOfTableWord (nbits w : Nat) : Byte := BitVec.ofNat 8 (w % 2 ^ nbits)

/-- The instruction the decoder reads from a word of the opcode table. -/
def decodeTableWord (nbits w : Nat) : Option Instr :=
  match decode (commandByteOfTableWord nbits w) with
  | .ok i => some i
  | .error _ => none

end Sys2Proof
end

