-- ==== Sys2Proof/Machine/Event.lean ====
section
/-! DEFINITION. What may happen next at the block's interface: the moves of the host (spec/70_reset_and_hazards.md
R298, spec/30_encoding.md R106) and the engine's turn. The two agents of R4 are interleaved by data: State holds the
list of events still to come. -/

namespace Sys2Proof.Machine

/-- One event. Every constructor but `engine` is a move of the host. -/
inductive Event where
  /-- The engine takes its turn: one phase of the running operation (R40), nothing while BUSY = 0 (R26). -/
  | engine
  /-- The reset input (R280, R282). -/
  | reset
  /-- The host reads register `n` (R21, R269). -/
  | readReg (n : Nat)
  /-- The host writes `v` to register `n` (R21, R269). -/
  | writeReg (n : Nat) (v : Word32)
  /-- The host writes an IMEM byte (R60, R286). -/
  | writeImem (a : Nat) (v : Byte)
  /-- The host reads an IMEM byte (R60, R292). -/
  | readImem (a : Nat)
  /-- The host reads an OMEM byte (R61, R293). -/
  | readOmem (a : Nat)
  /-- A host write to OMEM, which the interface does not have (R61, R298). -/
  | writeOmem (a : Nat) (v : Byte)
  /-- The host writes `c` to CMD and makes no further access until the operation has completed: steps 3 and 4 of the
  host protocol as the one atomic step that R220 and R233 describe (R285, R288, R289). -/
  | command (c : Byte)
  /-- WAIT: the host reads STATUS until DONE = 1 (R106, R289). -/
  | wait
  /-- COPY n: the host copies OMEM[0..n-1] to IMEM[0..n-1] (R106, R295). -/
  | copy (n : Nat)
  deriving DecidableEq, Repr

end Sys2Proof.Machine
end

