-- ==== Sys2Proof/Machine/State.lean ====
section
/-! DEFINITION. The state of the block (spec/10_state.md R20: classes (a) to (g)), as plain data, the reasons a step
can stop, and the state after reset (R51, R280). -/

namespace Sys2Proof.Machine

/-- The sequencer's step names (R40). -/
inductive Phase where
  | idle
  | cStart | cCount | cBuild | cDepth | cCanon | cSize | cHeader | cPayload | cFlush
  | dStart | dHeader | dCanon | dTree | dDecode | dFinish
  deriving DecidableEq, Repr

/-- The outcomes STATUS.ERR names (spec/60_exceptions.md R251). -/
inductive ErrCode where
  | ok | corruptHeader | truncatedPayload | invalidCode | ioFailure | badCommand
  deriving DecidableEq, Repr

/-- A table of `n` entries (R28 to R32). -/
abbrev Table (α : Type) (n : Nat) := Vector α n

/-- The contents of a buffer memory (R46, R60, R61): the bytes written, by strictly rising address. An address that
is not listed holds no byte the spec names; what it reads as is the free value of its era (log entry 2). -/
structure Buffer where
  /-- Which event left the unlisted bytes unspecified. -/
  era : Nat
  cells : List Host.Cell
  deriving DecidableEq, Repr

/-- The encoder's node store with NNEXT and ROOT (R32, R33). -/
structure NodeStore where
  nfreq : Table Nat NNODE
  nleft : Table Nat NNODE
  nright : Table Nat NNODE
  nlive : Table Bool NNODE
  ndepth : Table Nat NNODE
  nnext : Nat
  root : Nat
  deriving DecidableEq, Repr

/-- An entry of the decode-tree store (R34). -/
inductive DEntry where
  | none
  | node (m : Nat)
  | leaf (s : Nat)
  deriving DecidableEq, Repr

/-- A record of the decode-tree store: its children on bit 0 ("left") and on bit 1 ("right") (R34). -/
structure DRecord where
  child0 : DEntry
  child1 : DEntry
  deriving DecidableEq, Repr

/-- The decoder's decode-tree store with DNEXT and DCUR (R34): record n is the n-th of the list. -/
structure DecodeStore where
  dch : List DRecord
  dnext : Nat
  dcur : Nat
  deriving DecidableEq, Repr

/-- The bit writer's partial byte (R45). -/
structure BitWriter where
  wacc : Byte
  wcnt : Nat
  deriving DecidableEq, Repr

/-- The whole state. The last three fields are the model's own (log entries 1 and 2), everything above them is the
spec's (R20). -/
structure State where
  /-- IMEM_SIZE and OMEM_SIZE: fixed for the instance, changed by no step (R9, R52). -/
  cfg : Config
  /-- STATUS, register 1 (R23): BUSY bit 0, DONE bit 1, ERR bits 4:2, bits 7:5 zero. -/
  status : Byte
  /-- ILEN, register 2 (R24). -/
  ilen : Word32
  /-- OLEN, register 3 (R25). -/
  olen : Word32
  /-- IMEM (R60). -/
  imem : Buffer
  /-- OMEM (R61). -/
  omem : Buffer
  /-- FREQ (R28). -/
  freq : Table Nat NSYM
  /-- LEN (R29). -/
  len : Table Nat NSYM
  /-- CODE (R30). -/
  code : Table CodeWord NSYM
  /-- The encoder's node store, NNEXT, ROOT (R32, R33). -/
  nodes : NodeStore
  /-- The decoder's decode-tree store, DNEXT, DCUR (R34). -/
  dec : DecodeStore
  /-- PHASE (R40). -/
  phase : Phase
  /-- IPTR (R41). -/
  iptr : Nat
  /-- OPTR (R41). -/
  optr : Nat
  /-- RPOS (R41). -/
  rpos : Nat
  /-- TBITS (R43). -/
  tbits : Nat
  /-- PAYLEN (R43, R44). -/
  paylen : Nat
  /-- OSIZE (R43). -/
  osize : Nat
  /-- CACC (R43). -/
  cacc : Nat
  /-- NORIG (R44). -/
  norig : Nat
  /-- OCNT (R44). -/
  ocnt : Nat
  /-- KRAFT (R44). -/
  kraft : Nat
  /-- WACC and WCNT (R45). -/
  bw : BitWriter
  /-- The events still to come, first first (log entry 1). -/
  agenda : List Event
  /-- The value the host's last read returned (log entry 1). -/
  rdata : Word32
  /-- The next unused era of the free value (log entry 2). -/
  fresh : Nat
  deriving DecidableEq, Repr

/-- Why the machine stops with a fault. The spec has no stuck behaviour (spec/93_implementation_defined.md, end of
section 2): each of these is an access its rules prove impossible in every run, so each is SAFE. -/
inductive Fault where
  /-- The engine reads IMEM at an address ≥ IMEM_SIZE. Raised by the engine's `memReadImem`; R67 says no run does. -/
  | imemAddress (a : Nat)
  /-- The engine writes OMEM at an address ≥ OMEM_SIZE. Raised by the engine's `memWriteOmem`; R67 says no run does. -/
  | omemAddress (a : Nat)
  /-- TB_XMIN on an empty live set. Raised by `tbXmin`; its precondition (R134) excludes it. -/
  | liveSetEmpty
  /-- TB_MERGE needs a node index above 513. Raised by `tbMerge`; R137 says no run does. -/
  | nodeStoreFull
  /-- CC_TREE walks onto a leaf, or a symbol's code has no bits. Raised by `ccInsert`; R173 excludes it. -/
  | decodeTreeConflict
  /-- The decode walk stands on a record that does not exist. Raised by `ccInsert` and by D_DECODE; R173 excludes it. -/
  | decodeTreeIndex (n : Nat)
  deriving DecidableEq, Repr

/-- Why the machine refuses an event. -/
inductive Refusal where
  /-- An instruction that has no meaning in this model. Raised by no arm: both instructions are modelled. Safe. -/
  | notModelled (mnemonic : String)
  /-- A host write to IMEM while BUSY = 1 (spec/70_reset_and_hazards.md R292). Raised by the host's moves. Safe. -/
  | imemWriteWhileBusy (a : Nat)
  /-- A host access at an address ≥ the buffer's size (spec/20_memory.md R68). Raised by the host's moves. Safe. -/
  | hostAddress (a : Nat)
  /-- A host write to OMEM, an access the host does not have (R61, R298). Raised by the host's moves. Safe. -/
  | omemHostWrite (a : Nat)
  deriving DecidableEq, Repr

/-- A node store with every field 0 (log entry 3: the spec leaves its reset value unspecified). -/
def NodeStore.zero : NodeStore where
  nfreq := ⟨⟨List.replicate NNODE 0⟩, by simp⟩
  nleft := ⟨⟨List.replicate NNODE 0⟩, by simp⟩
  nright := ⟨⟨List.replicate NNODE 0⟩, by simp⟩
  nlive := ⟨⟨List.replicate NNODE false⟩, by simp⟩
  ndepth := ⟨⟨List.replicate NNODE 0⟩, by simp⟩
  nnext := 0
  root := 0

/-- The state right after reset of an instance (R51, R280): STATUS, ILEN, OLEN 0 and PHASE idle as the spec says;
every other register 0 (log entry 3), every byte of both buffers unspecified (log entry 2), no event to come. -/
def State.resetOf (cfg : Config) : State where
  cfg := cfg
  status := 0
  ilen := 0
  olen := 0
  imem := ⟨0, []⟩
  omem := ⟨1, []⟩
  freq := ⟨⟨List.replicate NSYM 0⟩, by simp⟩
  len := ⟨⟨List.replicate NSYM 0⟩, by simp⟩
  code := ⟨⟨List.replicate NSYM 0⟩, by simp⟩
  nodes := NodeStore.zero
  dec := ⟨[], 0, 0⟩
  phase := .idle
  iptr := 0
  optr := 0
  rpos := 0
  tbits := 0
  paylen := 0
  osize := 0
  cacc := 0
  norig := 0
  ocnt := 0
  kraft := 0
  bw := ⟨0, 0⟩
  agenda := []
  rdata := 0
  fresh := 2

/-- The state right after reset of the instance with IMEM_SIZE = OMEM_SIZE = 1024, the sizes of
spec/95_test_vectors.md (log entry 4). -/
def State.reset : State := State.resetOf ⟨1024, 1024⟩

end Sys2Proof.Machine
end

