-- ==== Sys2Proof/Machine/Flags.lean ====
section
/-! DEFINITION. The STATUS byte (spec/10_state.md R23, R42) and the error codes (spec/60_exceptions.md R251). The
block has no arithmetic condition codes: BUSY, DONE and ERR are all its flags. -/

namespace Sys2Proof.Machine

/-- The number of an outcome in STATUS.ERR (R251). -/
def ErrCode.toBits : ErrCode → BitVec 3
  | .ok => 0
  | .corruptHeader => 1
  | .truncatedPayload => 2
  | .invalidCode => 3
  | .ioFailure => 4
  | .badCommand => 5

/-- The STATUS byte: bits 7:5 zero, ERR in 4:2, DONE in bit 1, BUSY in bit 0 (R23). -/
def packStatus (busy done : Bool) (err : ErrCode) : Byte :=
  (0#3 ++ err.toBits ++ BitVec.ofBool done ++ BitVec.ofBool busy : BitVec 8)

/-- STATUS.BUSY (R23). -/
def State.busy (s : State) : Bool := s.status.getLsbD 0
/-- STATUS.DONE (R23). -/
def State.done (s : State) : Bool := s.status.getLsbD 1
/-- STATUS.ERR, bits 4:2 (R23). -/
def State.err (s : State) : BitVec 3 := s.status.extractLsb' 2 3

/-- Setting the three flags (R42): bits 7:5 are hardwired 0. -/
def State.setStatus (s : State) (busy done : Bool) (err : ErrCode) : State :=
  { s with status := packStatus busy done err }

end Sys2Proof.Machine
end

