-- ==== Sys2Proof/Machine/Operands.lean ====
section
/-! DEFINITION. The forms in which the steps take their operands: tables by index (spec/00_scope.md R11), bits(v, n)
(R10, spec/20_memory.md R64), bit k of a byte (R63), the big-endian bytes of a 32-bit field (spec/20_memory.md R65,
spec/30_encoding.md R93, R100), and the canonical order of the coded symbols (spec/41_tree_builder.md R144). -/

namespace Sys2Proof.Machine

/-- `T[i]`. An index outside the table reads `d`; no step of a run uses one (R50). -/
def Table.get {α : Type} {n : Nat} (t : Table α n) (i : Nat) (d : α) : α := t.toArray.toList.getD i d

/-- `T[i] <- v`. An index outside the table writes nothing; no step of a run uses one (R50). -/
def Table.set {α : Type} {n : Nat} (t : Table α n) (i : Nat) (v : α) : Table α n :=
  ⟨⟨t.toArray.toList.set i v⟩, by simp⟩

/-- The table of `f T[i]`. -/
def Table.map {α β : Type} {n : Nat} (f : α → β) (t : Table α n) : Table β n :=
  ⟨⟨t.toArray.toList.map f⟩, by simp⟩

/-- The table of `f T[i] U[i]`, for the entries both tables have. -/
def Table.map2 {α β γ : Type} {n m : Nat} (f : α → β → γ) (t : Table α n) (u : Table β m) : Table γ (min n m) :=
  ⟨⟨List.zipWith f t.toArray.toList u.toArray.toList⟩, by simp⟩

/-- The table with `k` more entries, each `d`. -/
def Table.extend {α : Type} {n : Nat} (t : Table α n) (k : Nat) (d : α) : Table α (n + k) :=
  ⟨⟨t.toArray.toList ++ List.replicate k d⟩, by simp⟩

/-- The table with every entry `d`. -/
def Table.fill {α : Type} (n : Nat) (d : α) : Table α n := ⟨⟨List.replicate n d⟩, by simp⟩

/-- The entries of a table as pairs (entry, index), in index order. -/
def Table.entries {α : Type} {n : Nat} (t : Table α n) : List (α × Nat) := t.toArray.toList.zipIdx

/-- bits(v, n): the low n bits of v, most significant first (R10). -/
def codeBits (v : CodeWord) (n : Nat) : List Bool :=
  (List.range n).reverse.map (fun k => v.getLsbD k)

/-- Bit 7 − (k mod 8) of a byte: the bit a payload position k selects in its byte (R63, R102, R198). -/
def msbFirstBit (b : Byte) (k : Nat) : Bool := b.getLsbD (7 - k % 8)

/-- The four bytes of a 32-bit field, most significant first (R65, R93). -/
def be32 (v : Word32) : List Byte :=
  [v.extractLsb' 24 8, v.extractLsb' 16 8, v.extractLsb' 8 8, v.extractLsb' 0 8]

/-- One step of assembling a big-endian field: shift left by 8 and add the next byte (R100, R165). -/
def be32Shift (acc : Nat) (b : Byte) : Nat := (acc <<< 8) + b.toNat

/-- The symbols of length l, by ascending id (R144). -/
def symbolsOfLength (len : Table Nat NSYM) (l : Nat) : List Nat :=
  ((Table.entries len).filter (fun e => e.1 == l)).map (·.2)

/-- Canonical order: the pairs (symbol, length) with length in 1..45, by length and then by id (R144). -/
def canonicalOrder (len : Table Nat NSYM) : List (Nat × Nat) :=
  (List.range' 1 L_MAX).flatMap (fun l => (symbolsOfLength len l).map (fun s => (s, l)))

end Sys2Proof.Machine
end

