-- ==== Sys2Proof/Machine/Ops.lean ====
section
/-! DEFINITION. The named operations over the buffers and the registers: byte reads and writes (spec/20_memory.md
R60 to R66), starting an operation (spec/10_state.md R42), raising an error (spec/60_exceptions.md R262, the block's
one way of taking an exception), completing one (R218, R231), and a reserved command (R256). -/

namespace Sys2Proof.Machine

/-- How a phase ends early: with a fault of the model, or with the hardware's `raise` (R11, R262), which carries the
state the phase had reached. -/
inductive Stop where
  | fault (f : Fault)
  | raise (e : ErrCode) (s : State)
  deriving DecidableEq, Repr

/-! ### Buffers -/

/-- The byte listed at an address, if any. -/
def lookupCell : List Host.Cell → Nat → Option Byte
  | [], _ => none
  | c :: cs, a => if c.1 = a then some c.2 else lookupCell cs a

/-- The cells with the byte at one address replaced, still by rising address. -/
def insertCell : List Host.Cell → Nat → Byte → List Host.Cell
  | [], a, v => [(a, v)]
  | c :: cs, a, v =>
    if a < c.1 then (a, v) :: c :: cs
    else if a = c.1 then (a, v) :: cs
    else c :: insertCell cs a v

/-- What an address that is not listed reads as: the free value of the buffer's era (log entry 2). -/
def Buffer.unlisted (b : Buffer) (a : Nat) : Byte := Config.freeByte b.era a

/-- The byte at an address: the last value written to it (R62). -/
def Buffer.read (b : Buffer) (a : Nat) : Byte := (lookupCell b.cells a).getD (b.unlisted a)

/-- Storing a byte (R62, R66). -/
def Buffer.write (b : Buffer) (a : Nat) (v : Byte) : Buffer := { b with cells := insertCell b.cells a v }

/-- The canonical form of a buffer of `size` bytes: addresses strictly rising and below the size. -/
def Buffer.wf (b : Buffer) (size : Nat) : Bool :=
  decide (b.cells.Pairwise (fun c d => c.1 < d.1)) && b.cells.all (fun c => decide (c.1 < size))

/-- Both buffers are in canonical form. -/
def Memory.wf (s : State) : Bool := s.imem.wf s.cfg.imemSize && s.omem.wf s.cfg.omemSize

/-- The engine's `MemRead(IMEM, a, 1)` (R11, R60). -/
def memReadImem (s : State) (a : Nat) : Except Stop Byte :=
  if a < s.cfg.imemSize then .ok (s.imem.read a) else .error (.fault (.imemAddress a))

/-- The engine's `MemWrite(OMEM, a, 1, v)` (R11, R61). -/
def memWriteOmem (s : State) (a : Nat) (v : Byte) : Except Stop State :=
  if a < s.cfg.omemSize then .ok { s with omem := s.omem.write a v } else .error (.fault (.omemAddress a))

/-- `MemWrite(OMEM, OPTR, 1, v); OPTR <- OPTR + 1` (R41, R161, R192). -/
def emitByte (s : State) (v : Byte) : Except Stop State :=
  match memWriteOmem s s.optr v with
  | .ok t => .ok { t with optr := t.optr + 1 }
  | .error e => .error e

/-- The bytes of a list emitted in order. -/
def emitBytes : List Byte → State → Except Stop State
  | [], s => .ok s
  | v :: vs, s =>
    match emitByte s v with
    | .ok t => emitBytes vs t
    | .error e => .error e

/-- Every byte of OMEM becomes unspecified (R263): nothing is listed and the unlisted bytes get a new free value. -/
def State.forgetOmem (s : State) : State :=
  { s with omem := ⟨s.fresh, []⟩, fresh := s.fresh + 1 }

/-! ### Starting and ending an operation -/

/-- An accepted CMD write: BUSY <- 1, DONE <- 0, ERR <- 0, OLEN <- 0, PHASE <- the operation's first phase
(R42, R210, R225). -/
def startOperation (p : Phase) (s : State) : State :=
  { s.setStatus true false .ok with olen := 0, phase := p }

/-- `raise E` (R262): OLEN <- 0, ERR <- code(E), BUSY <- 0, DONE <- 1, PHASE <- IDLE, as one update, and nothing else
is written. -/
def raiseError (e : ErrCode) (s : State) : State :=
  { s.setStatus false true e with olen := 0, phase := .idle }

/-! There is no return from an error (R265): nothing resumes, DONE and ERR stay until the next accepted CMD write or
reset, and the next command starts as it would after reset (R264). -/

/-- Successful completion: OLEN <- n, BUSY <- 0, DONE <- 1, ERR <- 0, PHASE <- IDLE (R218, R231). -/
def completeOperation (n : Nat) (s : State) : State :=
  { s.setStatus false true .ok with olen := BitVec.ofNat 32 n, phase := .idle }

/-- A reserved command (R84, R256): BUSY <- 0, DONE <- 1, ERR <- 5, OLEN <- 0; PHASE stays as it is. -/
def badCommand (s : State) : State :=
  { s.setStatus false true .badCommand with olen := 0 }

/-- The end of a COMPRESS phase. A failing COMPRESS leaves OMEM unchanged (R220, R263). -/
def endCompressPhase : Except Stop State → Host.Outcome State Fault Refusal
  | .ok s => .next s
  | .error (.raise e s) => .next (raiseError e s)
  | .error (.fault f) => .fault f

/-- The end of a DECOMPRESS phase. A failing DECOMPRESS leaves every byte of OMEM unspecified (R233, R263). -/
def endDecompressPhase : Except Stop State → Host.Outcome State Fault Refusal
  | .ok s => .next s
  | .error (.raise e s) => .next (raiseError e s.forgetOmem)
  | .error (.fault f) => .fault f

/-! ### Reset and the host registers -/

/-- The reset input (R280, R282): the registers as after reset, every byte of both buffers unspecified anew; what the
host still has in hand is not part of the block. -/
def State.resetInput (s : State) : State :=
  { State.resetOf s.cfg with
    imem := ⟨s.fresh, []⟩, omem := ⟨s.fresh + 1, []⟩, fresh := s.fresh + 2, agenda := s.agenda, rdata := s.rdata }

/-- A host read of register `n` (R21): CMD and the numbers above 3 read 0. -/
def State.readRegister (s : State) : Nat → Word32
  | 0 => 0
  | 1 => s.status.setWidth 32
  | 2 => s.ilen
  | 3 => s.olen
  | _ => 0

/-- A host write of ILEN (R24): taken while BUSY = 0, ignored while BUSY = 1. -/
def State.writeIlen (s : State) (v : Word32) : State :=
  if s.busy then s else { s with ilen := v }

end Sys2Proof.Machine
end

