-- ==== Sys2Proof/Machine/BitStream.lean ====
section
/-! DEFINITION. BitStreamWriter and BitStreamReader (spec/43_bitstream.md). -/

namespace Sys2Proof.Machine

/-- BW_INIT (R191). -/
def bwInit (s : State) : State := { s with bw := ⟨0, 0⟩ }

/-- The writer with one bit more in its partial byte: the next free position, from bit 7 downward (R192). -/
def BitWriter.accept (w : BitWriter) (b : Bool) : BitWriter :=
  ⟨w.wacc ||| ((BitVec.ofBool b).setWidth 8 <<< (7 - w.wcnt)), w.wcnt + 1⟩

/-- One bit of BW_PUT (R192): the byte goes out the moment its eighth bit arrives. -/
def bwPutBit (s : State) (b : Bool) : Except Stop State :=
  let w := s.bw.accept b
  if w.wcnt = 8 then
    match emitByte s w.wacc with
    | .ok t => .ok { t with bw := ⟨0, 0⟩ }
    | .error e => .error e
  else .ok { s with bw := w }

/-- Bits put in order (R192). -/
def bwPutBits : List Bool → State → Except Stop State
  | [], s => .ok s
  | b :: bs, s =>
    match bwPutBit s b with
    | .ok t => bwPutBits bs t
    | .error e => .error e

/-- BW_PUT(v, n) (R192): the n-bit string bits(v, n). -/
def bwPut (v : CodeWord) (n : Nat) (s : State) : Except Stop State := bwPutBits (codeBits v n) s

/-- BW_FLUSH (R194): the partial byte, if there is one, zero-padded. -/
def bwFlush (s : State) : Except Stop State :=
  if 0 < s.bw.wcnt then
    match emitByte s s.bw.wacc with
    | .ok t => .ok { t with bw := ⟨0, 0⟩ }
    | .error e => .error e
  else .ok s

/-- BR_INIT (R197). -/
def brInit (s : State) : State := { s with rpos := 0 }

/-- BR_GETBIT (R198): the next payload bit, or `none` for EXHAUSTED. -/
def brGetBit (s : State) : Except Stop (Option Bool × State) :=
  if s.rpos = 8 * s.paylen then .ok (none, s)
  else
    match memReadImem s (HDR_LEN + s.rpos / 8) with
    | .ok b => .ok (some (msbFirstBit b s.rpos), { s with rpos := s.rpos + 1 })
    | .error e => .error e

end Sys2Proof.Machine
end

