-- ==== Sys2Proof/Machine/ContainerCodec.lean ====
section
/-! DEFINITION. ContainerCodec (spec/42_container_codec.md): header emission, header parse, tree reconstruction. -/

namespace Sys2Proof.Machine

/-! ### Header emission -/

/-- The header's 265 bytes: TAG, ORIG_LEN big-endian, LENTAB (R90, R161). -/
def headerBytes (ilen : Word32) (len : Table Nat NSYM) : List Byte :=
  MAGIC ++ be32 ilen ++ len.toArray.toList.map (fun l => BitVec.ofNat 8 l)

/-- CC_EMIT (R161). -/
def ccEmit (s : State) : Except Stop State :=
  emitBytes (headerBytes s.ilen s.len) { s with optr := 0 }

/-! ### Header parse -/

/-- The tag check of R164: the bytes from IPTR on equal the given ones. -/
def ccTag : List Byte → State → Except Stop State
  | [], s => .ok s
  | v :: vs, s =>
    match memReadImem s s.iptr with
    | .ok b => if b = v then ccTag vs { s with iptr := s.iptr + 1 } else .error (.raise .corruptHeader s)
    | .error e => .error e

/-- The ORIG_LEN field of R165: `n` more bytes are shifted into NORIG. -/
def ccOrigLen : Nat → State → Except Stop State
  | 0, s => .ok s
  | n + 1, s =>
    match memReadImem s s.iptr with
    | .ok b => ccOrigLen n { s with norig := be32Shift s.norig b, iptr := s.iptr + 1 }
    | .error e => .error e

/-- The LENTAB field of R165 and R166, from symbol `sym` on with `n` symbols to come: a byte above 45 is corrupt. -/
def ccLenTab : Nat → Nat → State → Except Stop State
  | 0, _, s => .ok s
  | n + 1, sym, s =>
    match memReadImem s s.iptr with
    | .ok b =>
      if L_MAX < b.toNat then .error (.raise .corruptHeader { s with iptr := s.iptr + 1 })
      else ccLenTab n (sym + 1) { s with len := Table.set s.len sym b.toNat, iptr := s.iptr + 1 }
    | .error e => .error e

/-- The Kraft sum of a length table in units of 2^-45 (R14, R168). -/
def kraftSum (len : Table Nat NSYM) : Nat :=
  (len.toArray.toList.map (fun l => if 0 < l then 2 ^ (L_MAX - l) else 0)).sum

/-- The checks that follow the field read, and the parse result (R167, R168, R169, R170). -/
def ccChecks (s : State) : Except Stop State :=
  if Table.get s.len EOS 0 = 0 then .error (.raise .corruptHeader s)
  else
    let t := { s with kraft := kraftSum s.len }
    if 2 ^ L_MAX < t.kraft then .error (.raise .corruptHeader t)
    else if t.cfg.omemSize < t.norig then .error (.raise .ioFailure t)
    else .ok { t with paylen := t.ilen.toNat - HDR_LEN }

/-- CC_PARSE (R163): length, tag (R164), fields (R165), checks (R166 to R170), in that order. -/
def ccParse (s : State) : Except Stop State :=
  if s.ilen.toNat < HDR_LEN then .error (.raise .corruptHeader s)
  else
    match ccTag MAGIC { s with iptr := 0 } with
    | .error e => .error e
    | .ok s1 =>
      match ccOrigLen 4 { s1 with norig := 0 } with
      | .error e => .error e
      | .ok s2 =>
        match ccLenTab NSYM 0 s2 with
        | .error e => .error e
        | .ok s3 => ccChecks s3

/-! ### Tree reconstruction -/

/-- DCH[n][b] (R34). -/
def DRecord.child (r : DRecord) (b : Bool) : DEntry := if b then r.child1 else r.child0

/-- DCH[n][b] <- e on one record. -/
def DRecord.setChild (r : DRecord) (b : Bool) (e : DEntry) : DRecord :=
  if b then { r with child1 := e } else { r with child0 := e }

/-- DCH[n][b] <- e. -/
def DecodeStore.setChild (d : DecodeStore) (n : Nat) (b : Bool) (e : DEntry) : DecodeStore :=
  { d with dch := d.dch.modify n (fun r => r.setChild b e) }

/-- A new record without children, number DNEXT (R172). -/
def DecodeStore.alloc (d : DecodeStore) : DecodeStore :=
  { d with dch := d.dch.take d.dnext ++ [⟨.none, .none⟩], dnext := d.dnext + 1 }

/-- Inserting one code below record n (R172): every bit but the last is an edge to a node, made where it is missing;
the last bit's entry becomes the leaf of the symbol. -/
def ccInsert (sym : Nat) : List Bool → Nat → DecodeStore → Except Stop DecodeStore
  | [], _, _ => .error (.fault .decodeTreeConflict)
  | [b], n, d =>
    if n < d.dch.length then .ok (d.setChild n b (.leaf sym)) else .error (.fault (.decodeTreeIndex n))
  | b :: b' :: bs, n, d =>
    match d.dch[n]? with
    | none => .error (.fault (.decodeTreeIndex n))
    | some r =>
      match r.child b with
      | .none => ccInsert sym (b' :: bs) d.dnext (d.alloc.setChild n b (.node d.dnext))
      | .node m => ccInsert sym (b' :: bs) m d
      | .leaf _ => .error (.fault .decodeTreeConflict)

/-- The insertions of CC_TREE (R172), one for each coded symbol in canonical order. -/
def ccInsertAll (code : Table CodeWord NSYM) : List (Nat × Nat) → DecodeStore → Except Stop DecodeStore
  | [], d => .ok d
  | e :: es, d =>
    match ccInsert e.1 (codeBits (Table.get code e.1 0) e.2) 0 d with
    | .ok d' => ccInsertAll code es d'
    | .error f => .error f

/-- CC_TREE (R172): from the root alone. -/
def ccTree (s : State) : Except Stop State :=
  match ccInsertAll s.code (canonicalOrder s.len) { s.dec with dch := [⟨.none, .none⟩], dnext := 1 } with
  | .ok d => .ok { s with dec := d }
  | .error f => .error f

end Sys2Proof.Machine
end

