-- ==== Sys2Proof/Machine/FrequencyCounter.lean ====
section
/-! DEFINITION. ByteFrequencyCounter (spec/40_frequency_counter.md). -/

namespace Sys2Proof.Machine

/-- FC_CLEAR (R121): FREQ[0..255] <- 0, FREQ[256] <- 1. -/
def fcClear : Table Nat NSYM := Table.set (Table.fill NSYM 0) EOS 1

/-- The loop of FC_COUNT (R122) with `n` bytes still to read. -/
def fcCountLoop (s : State) : Nat → Nat → Table Nat NSYM → Except Stop (Table Nat NSYM)
  | 0, _, freq => .ok freq
  | n + 1, iptr, freq =>
    match memReadImem s iptr with
    | .ok b => fcCountLoop s n (iptr + 1) (Table.set freq b.toNat (Table.get freq b.toNat 0 + 1))
    | .error e => .error e

/-- FC_COUNT (R122): one pass over IMEM[0..ILEN-1]; IPTR ends at ILEN. -/
def fcCount (s : State) : Except Stop State :=
  match fcCountLoop s s.ilen.toNat 0 s.freq with
  | .ok freq => .ok { s with freq := freq, iptr := s.ilen.toNat }
  | .error e => .error e

end Sys2Proof.Machine
end

