-- ==== Sys2Proof/Machine/TreeBuilder.lean ====
section
/-! DEFINITION. HuffmanTreeBuilder (spec/41_tree_builder.md): the tree, the code lengths, the canonical codes. -/

namespace Sys2Proof.Machine

/-! ### Building the tree -/

/-- The counts by node index: FREQ for the symbols' leaves, 0 for every other node (R131). -/
def leafWeights (freq : Table Nat NSYM) : Table Nat NNODE := Table.extend freq 257 0

/-- TB_INIT (R131): the symbols that occur become live leaves. NFREQ of any other node keeps its value. -/
def tbInit (freq : Table Nat NSYM) (t : NodeStore) : NodeStore :=
  { t with
    nfreq := Table.map2 (fun w old => if 0 < w then w else old) (leafWeights freq) t.nfreq
    nlive := Table.map (fun w => decide (0 < w)) (leafWeights freq)
    nnext := NODE_BASE }

/-- The live set as the list of its keys (NFREQ[i], i), by ascending index (R133). -/
def NodeStore.liveKeys (t : NodeStore) : List (Nat × Nat) :=
  ((t.nlive.toArray.toList.zip t.nfreq.toArray.toList).zipIdx.filter (fun e => e.1.1)).map (fun e => (e.1.2, e.2))

/-- The number of live nodes (R132, R137). -/
def NodeStore.liveCount (t : NodeStore) : Nat := t.nlive.toArray.toList.countP (fun b => b)

/-- TB_PLACEHOLDER (R132): when one node only is live, the placeholder joins it with weight 0. -/
def tbPlaceholder (t : NodeStore) : NodeStore :=
  if t.liveCount = 1 then { t with nfreq := Table.set t.nfreq PH 0, nlive := Table.set t.nlive PH true } else t

/-- The priority order on keys: weight first, then index (R133). -/
def keyLt (a b : Nat × Nat) : Bool := decide (a.1 < b.1) || (decide (a.1 = b.1) && decide (a.2 < b.2))

/-- The least key of a list of keys (R11, R133). -/
def minKey : List (Nat × Nat) → Option (Nat × Nat)
  | [] => none
  | k :: ks => some (ks.foldl (fun m c => if keyLt c m then c else m) k)

/-- TB_XMIN (R134): the node of least key leaves the live set. -/
def tbXmin (t : NodeStore) : Except Stop (Nat × NodeStore) :=
  match minKey t.liveKeys with
  | none => .error (.fault .liveSetEmpty)
  | some k => .ok (k.2, { t with nlive := Table.set t.nlive k.2 false })

/-- The new node of TB_MERGE (R135): children a (left) and b (right), the weight their sum, live. -/
def NodeStore.addNode (t : NodeStore) (a b : Nat) : NodeStore :=
  { t with
    nfreq := Table.set t.nfreq t.nnext (Table.get t.nfreq a 0 + Table.get t.nfreq b 0)
    nleft := Table.set t.nleft t.nnext a
    nright := Table.set t.nright t.nnext b
    nlive := Table.set t.nlive t.nnext true
    nnext := t.nnext + 1 }

/-- TB_MERGE (R135). -/
def tbMerge (t : NodeStore) : Except Stop NodeStore :=
  match tbXmin t with
  | .error e => .error e
  | .ok (a, t1) =>
    match tbXmin t1 with
    | .error e => .error e
    | .ok (b, t2) => if t2.nnext < NNODE then .ok (t2.addNode a b) else .error (.fault .nodeStoreFull)

/-- The merge loop of TB_BUILD (R137): merge while at least two nodes are live. The first argument bounds the merges;
with NNODE it is never used up, since each merge takes a new index below NNODE. -/
def tbMergeLoop : Nat → NodeStore → Except Stop NodeStore
  | 0, t => .ok t
  | n + 1, t =>
    if 2 ≤ t.liveCount then
      match tbMerge t with
      | .ok t' => tbMergeLoop n t'
      | .error e => .error e
    else .ok t

/-- TB_BUILD (R137). -/
def tbBuild (s : State) : Except Stop State :=
  match tbMergeLoop NNODE (tbPlaceholder (tbInit s.freq s.nodes)) with
  | .ok t => .ok { s with nodes := { t with root := t.nnext - 1 } }
  | .error e => .error e

/-! ### Code lengths -/

/-- One turn of TB_DEPTH's loop (R140): both children of node i are one edge deeper than i. -/
def tbDepthNode (t : NodeStore) (i : Nat) : NodeStore :=
  { t with
    ndepth := Table.set (Table.set t.ndepth (Table.get t.nleft i 0) (Table.get t.ndepth i 0 + 1))
      (Table.get t.nright i 0) (Table.get t.ndepth i 0 + 1) }

/-- TB_DEPTH (R140): the nodes from ROOT down to 258. -/
def tbDepth (t : NodeStore) : NodeStore :=
  (List.range' NODE_BASE (t.root + 1 - NODE_BASE)).reverse.foldl tbDepthNode
    { t with ndepth := Table.set t.ndepth t.root 0 }

/-- TB_LEN (R141): a symbol that occurs has its leaf's depth, any other has 0. -/
def tbLen (freq : Table Nat NSYM) (ndepth : Table Nat NNODE) : Table Nat NSYM :=
  Table.map2 (fun f d => if 0 < f then d else 0) freq ndepth

/-! ### Canonical codes -/

/-- One symbol of CANON (R145): CODE[s] <- CACC >> (45 - l); CACC <- CACC + 2^(45 - l). -/
def canonStep (acc : Table CodeWord NSYM × Nat) (e : Nat × Nat) : Table CodeWord NSYM × Nat :=
  (Table.set acc.1 e.1 (BitVec.ofNat 45 (acc.2 >>> (L_MAX - e.2))), acc.2 + 2 ^ (L_MAX - e.2))

/-- CANON (R145): the symbols in canonical order, from CACC = 0. -/
def canon (s : State) : State :=
  let r := (canonicalOrder s.len).foldl canonStep (s.code, 0)
  { s with code := r.1, cacc := r.2 }

end Sys2Proof.Machine
end

