-- ==== Sys2Proof/Machine/Compress.lean ====
section
/-! DEFINITION. The phases of COMPRESS (spec/44_compress.md R211 to R218). -/

namespace Sys2Proof.Machine

/-- C_START (R211). -/
def cStart (s : State) : Except Stop State :=
  if s.cfg.imemSize < s.ilen.toNat then .error (.raise .ioFailure s) else .ok { s with phase := .cCount }

/-- C_COUNT (R212). -/
def cCount (s : State) : Except Stop State :=
  match fcCount { s with freq := fcClear } with
  | .ok t => .ok { t with phase := .cBuild }
  | .error e => .error e

/-- C_BUILD (R213). -/
def cBuild (s : State) : Except Stop State :=
  match tbBuild s with
  | .ok t => .ok { t with phase := .cDepth }
  | .error e => .error e

/-- C_DEPTH (R214): TB_DEPTH, then TB_LEN. -/
def cDepth (s : State) : Except Stop State :=
  let t := tbDepth s.nodes
  .ok { s with nodes := t, len := tbLen s.freq t.ndepth, phase := .cCanon }

/-- C_CANON (R214). -/
def cCanon (s : State) : Except Stop State := .ok { canon s with phase := .cSize }

/-- TBITS: the END_OF_STREAM code once and each byte value's code as often as it occurs (R215). -/
def payloadBits (freq len : Table Nat NSYM) : Nat :=
  Table.get len EOS 0 + ((Table.map2 (· * ·) freq len).toArray.toList.take 256).sum

/-- C_SIZE (R215). -/
def cSize (s : State) : Except Stop State :=
  let tbits := payloadBits s.freq s.len
  let paylen := (tbits + 7) / 8
  let t := { s with tbits := tbits, paylen := paylen, osize := HDR_LEN + paylen }
  if t.cfg.omemSize < t.osize then .error (.raise .ioFailure t) else .ok { t with phase := .cHeader }

/-- C_HEADER (R216). -/
def cHeader (s : State) : Except Stop State :=
  match ccEmit s with
  | .ok t => .ok { t with phase := .cPayload }
  | .error e => .error e

/-- The second pass over the input (R217) with `n` bytes still to encode. -/
def cPayloadLoop : Nat → State → Except Stop State
  | 0, s => .ok s
  | n + 1, s =>
    match memReadImem s s.iptr with
    | .error e => .error e
    | .ok b =>
      match bwPut (Table.get s.code b.toNat 0) (Table.get s.len b.toNat 0) s with
      | .ok t => cPayloadLoop n { t with iptr := t.iptr + 1 }
      | .error e => .error e

/-- C_PAYLOAD (R217): every input byte's code in order, then the END_OF_STREAM code. -/
def cPayload (s : State) : Except Stop State :=
  match cPayloadLoop s.ilen.toNat { bwInit s with iptr := 0 } with
  | .error e => .error e
  | .ok t =>
    match bwPut (Table.get t.code EOS 0) (Table.get t.len EOS 0) t with
    | .ok u => .ok { u with phase := .cFlush }
    | .error e => .error e

/-- C_FLUSH (R218). -/
def cFlush (s : State) : Except Stop State :=
  match bwFlush s with
  | .ok t => .ok (completeOperation t.optr t)
  | .error e => .error e

end Sys2Proof.Machine
end

