-- ==== Sys2Proof/Machine/Decompress.lean ====
section
/-! DEFINITION. The phases of DECOMPRESS (spec/45_decompress.md R226 to R231). -/

namespace Sys2Proof.Machine

/-- D_START (R226). -/
def dStart (s : State) : Except Stop State :=
  if s.cfg.imemSize < s.ilen.toNat then .error (.raise .ioFailure s) else .ok { s with phase := .dHeader }

/-- D_HEADER (R227). -/
def dHeader (s : State) : Except Stop State :=
  match ccParse s with
  | .ok t => .ok { t with phase := .dCanon }
  | .error e => .error e

/-- D_CANON (R228). -/
def dCanon (s : State) : Except Stop State := .ok { canon s with phase := .dTree }

/-- D_TREE (R229). -/
def dTree (s : State) : Except Stop State :=
  match ccTree s with
  | .ok t => .ok { t with phase := .dDecode }
  | .error e => .error e

/-- A byte symbol has been decoded (R230): one more byte than ORIG_LEN is corrupt, else the byte goes out. -/
def dEmit (sym : Nat) (s : State) : Except Stop State :=
  if s.ocnt = s.norig then .error (.raise .corruptHeader s)
  else
    match emitByte s (BitVec.ofNat 8 sym) with
    | .ok t => .ok { t with ocnt := t.ocnt + 1 }
    | .error e => .error e

/-- The decode loop (R230), one turn for each bit; DCUR is the record the walk stands on, 0 (the root) after each
symbol. The first argument bounds the bits asked for: with 8·PAYLEN + 1 the last request has already answered
EXHAUSTED (R237), so its end is TruncatedPayload as well. -/
def dDecodeLoop : Nat → State → Except Stop State
  | 0, s => .error (.raise .truncatedPayload s)
  | n + 1, s =>
    match brGetBit s with
    | .error e => .error e
    | .ok (none, t) => .error (.raise .truncatedPayload t)
    | .ok (some b, t) =>
      match t.dec.dch[t.dec.dcur]? with
      | none => .error (.fault (.decodeTreeIndex t.dec.dcur))
      | some r =>
        match r.child b with
        | .none => .error (.raise .invalidCode t)
        | .node m => dDecodeLoop n { t with dec := { t.dec with dcur := m } }
        | .leaf sym =>
          if sym = EOS then .ok t
          else
            match dEmit sym t with
            | .ok u => dDecodeLoop n { u with dec := { u.dec with dcur := 0 } }
            | .error e => .error e

/-- D_DECODE (R230). -/
def dDecode (s : State) : Except Stop State :=
  match dDecodeLoop (8 * s.paylen + 1) { brInit s with ocnt := 0, optr := 0, dec := { s.dec with dcur := 0 } } with
  | .ok t => .ok { t with phase := .dFinish }
  | .error e => .error e

/-- D_FINISH (R231). -/
def dFinish (s : State) : Except Stop State :=
  if s.ocnt = s.norig then .ok (completeOperation s.ocnt s) else .error (.raise .corruptHeader s)

end Sys2Proof.Machine
end

