-- ==== Sys2Proof/Machine/Engine.lean ====
section
/-! DEFINITION. CompressionEngine (spec/10_state.md R40): the phase PHASE names, an operation run from its start to
its end, and the meanings of the two instructions (spec/44_compress.md R210, spec/45_decompress.md R225). -/

namespace Sys2Proof.Machine

/-- The engine's turn: the phase PHASE names (R40); nothing when it is IDLE (R26). -/
def enginePhase (s : State) : Host.Outcome State Fault Refusal :=
  match s.phase with
  | .idle => .next s
  | .cStart => endCompressPhase (cStart s)
  | .cCount => endCompressPhase (cCount s)
  | .cBuild => endCompressPhase (cBuild s)
  | .cDepth => endCompressPhase (cDepth s)
  | .cCanon => endCompressPhase (cCanon s)
  | .cSize => endCompressPhase (cSize s)
  | .cHeader => endCompressPhase (cHeader s)
  | .cPayload => endCompressPhase (cPayload s)
  | .cFlush => endCompressPhase (cFlush s)
  | .dStart => endDecompressPhase (dStart s)
  | .dHeader => endDecompressPhase (dHeader s)
  | .dCanon => endDecompressPhase (dCanon s)
  | .dTree => endDecompressPhase (dTree s)
  | .dDecode => endDecompressPhase (dDecode s)
  | .dFinish => endDecompressPhase (dFinish s)

/-- The engine's turns until PHASE is IDLE, at most `n` of them. -/
def runPhases : Nat → State → Host.Outcome State Fault Refusal
  | 0, s => .next s
  | n + 1, s =>
    if s.phase = .idle then .next s
    else
      match enginePhase s with
      | .next t => runPhases n t
      | .fault f => .fault f
      | .refused r => .refused r

/-- The first phase of an instruction's operation (R210, R225). -/
def firstPhase : Instr → Phase
  | .compress => .cStart
  | .decompress => .dStart

/-- COMPRESS (R210): a CMD write of 0x01. While BUSY = 1 it is ignored (R22); while BUSY = 0 the operation starts and
its nine phases run in order, to completion or to the first `raise` (R211 to R218), as one atomic step (R220). -/
def execCompress (s : State) : Host.Outcome State Fault Refusal :=
  if s.busy then .next s else runPhases 9 (startOperation .cStart s)

/-- DECOMPRESS (R225): a CMD write of 0x02. While BUSY = 1 it is ignored (R22); while BUSY = 0 the operation starts and
its six phases run in order, to completion or to the first `raise` (R226 to R231), as one atomic step (R233). -/
def execDecompress (s : State) : Host.Outcome State Fault Refusal :=
  if s.busy then .next s else runPhases 6 (startOperation .dStart s)

end Sys2Proof.Machine
end

