-- ==== Sys2Proof/Machine/HostInterface.lean ====
section
/-! DEFINITION. The host's moves (spec/70_reset_and_hazards.md R298, spec/60_exceptions.md R269) and the wait and copy
lines of the host scripts (spec/30_encoding.md R106). -/

namespace Sys2Proof.Machine

/-- A CMD write that the host may follow with other moves (R22, R288): ignored while BUSY = 1; else the operation
starts, or a reserved value completes at once with BadCommand (R84, R256). -/
def writeCmd (c : Byte) (s : State) : State :=
  if s.busy then s
  else
    match decode c with
    | .ok i => startOperation (firstPhase i) s
    | .error _ => badCommand s

/-- A CMD write after which the host makes no access until the operation has completed (R285, R288, R289): the
instruction runs as one atomic step; a reserved value is as in `writeCmd`. -/
def command (c : Byte) (s : State) : Host.Outcome State Fault Refusal :=
  match decode c with
  | .ok i => exec i s
  | .error _ => .next (if s.busy then s else badCommand s)

/-- A host write of register `n` (R21): CMD takes the low 8 bits (log entry 5), ILEN all 32, any other ignores it. -/
def writeRegister (n : Nat) (v : Word32) (s : State) : State :=
  match n with
  | 0 => writeCmd (v.setWidth 8) s
  | 2 => s.writeIlen v
  | _ => s

/-- A host write of an IMEM byte: refused outside the buffer (R68) and while BUSY = 1 (R292). -/
def hostWriteImem (a : Nat) (v : Byte) (s : State) : Host.Outcome State Fault Refusal :=
  if a < s.cfg.imemSize then
    if s.busy then .refused (.imemWriteWhileBusy a) else .next { s with imem := s.imem.write a v }
  else .refused (.hostAddress a)

/-- A host read of an IMEM byte: allowed at any time (R292), refused outside the buffer (R68). -/
def hostReadImem (a : Nat) (s : State) : Host.Outcome State Fault Refusal :=
  if a < s.cfg.imemSize then .next { s with rdata := (s.imem.read a).setWidth 32 } else .refused (.hostAddress a)

/-- A host read of an OMEM byte: the byte stored while BUSY = 0, a free value while BUSY = 1 (R293). -/
def hostReadOmem (a : Nat) (s : State) : Host.Outcome State Fault Refusal :=
  if a < s.cfg.omemSize then
    if s.busy then .next { s with rdata := (Config.freeByte s.fresh a).setWidth 32, fresh := s.fresh + 1 }
    else .next { s with rdata := (s.omem.read a).setWidth 32 }
  else .refused (.hostAddress a)

/-- The bytes OMEM[a..a+n-1] written to the same addresses of IMEM. -/
def copyBytes (omem : Buffer) : Nat → Nat → Buffer → Buffer
  | 0, _, imem => imem
  | n + 1, a, imem => copyBytes omem n (a + 1) (imem.write a (omem.read a))

/-- COPY n (R106): n OMEM reads and n IMEM writes by the host, under the rules of each. -/
def hostCopy (n : Nat) (s : State) : Host.Outcome State Fault Refusal :=
  if s.cfg.omemSize < n then .refused (.hostAddress s.cfg.omemSize)
  else if s.cfg.imemSize < n then .refused (.hostAddress s.cfg.imemSize)
  else if n = 0 then .next s
  else if s.busy then .refused (.imemWriteWhileBusy 0)
  else .next { s with imem := copyBytes s.omem n 0 s.imem, rdata := (s.omem.read (n - 1)).setWidth 32 }

/-- The engine's turn (R26, R40). -/
def engineTurn (s : State) : Host.Outcome State Fault Refusal :=
  if s.busy then enginePhase s else .next s

/-- WAIT (R106, R289) at the head of the agenda `e :: rest`: when STATUS reads DONE = 1 the host goes on; until then
the engine takes its turns. -/
def hostWait (rest : List Event) (s : State) : Host.Outcome State Fault Refusal :=
  if s.done then .next { s with agenda := rest, rdata := s.readRegister 1 } else engineTurn s

/-- One event, with the events after it (R298). -/
def event (e : Event) (rest : List Event) (s : State) : Host.Outcome State Fault Refusal :=
  match e with
  | .engine => engineTurn { s with agenda := rest }
  | .reset => .next { s with agenda := rest }.resetInput
  | .readReg n => .next { s with agenda := rest, rdata := s.readRegister n }
  | .writeReg n v => .next (writeRegister n v { s with agenda := rest })
  | .writeImem a v => hostWriteImem a v { s with agenda := rest }
  | .readImem a => hostReadImem a { s with agenda := rest }
  | .readOmem a => hostReadOmem a { s with agenda := rest }
  | .writeOmem a _ => .refused (.omemHostWrite a)
  | .command c => command c { s with agenda := rest }
  | .wait => hostWait rest s
  | .copy n => hostCopy n { s with agenda := rest }

end Sys2Proof.Machine
end

