-- ==== Sys2Proof/Machine/Step.lean ====
section
/-! DEFINITION. One step of the block with its host: the next event of the agenda, or, when the host has no move left,
the engine's turn (spec/70_reset_and_hazards.md R281, R297). -/

namespace Sys2Proof.Machine

/-- One step. -/
def step (s : State) : Host.Outcome State Fault Refusal :=
  match s.agenda with
  | [] => engineTurn s
  | e :: rest => event e rest s

/-- `s` with the command byte of a table word as the host's next move (log entry 6). The block takes its instruction
from the CMD write (spec/20_memory.md R76), which it accepts only while BUSY = 0: a state that is busy has its
operation abandoned as R282 says. -/
def State.withFetchWord (s : State) (nbits w : Nat) : State :=
  let e := Event.command (commandByteOfTableWord nbits w)
  if s.busy then { s.setStatus false false .ok with phase := .idle, agenda := e :: s.agenda }
  else { s with agenda := e :: s.agenda }

end Sys2Proof.Machine
end

