-- ==== Sys2Proof/WellFormed.lean ====
section
/-! DEFINITION. The checks on what is given to the machine from outside: an instruction, the parameters of an
instance, a host move. -/

namespace Sys2Proof

/-- An instruction has no operand field (spec/30_encoding.md R81), so both instructions are well formed. -/
def Instr.wellFormed : Instr → Bool
  | .compress => true
  | .decompress => true

/-- The parameters of an instance: 1 ≤ size ≤ 2^32 − 1 for each buffer (spec/00_scope.md R9). -/
def Config.wellFormed (c : Config) : Bool :=
  decide (1 ≤ c.imemSize) && decide (c.imemSize ≤ 4294967295) &&
    (decide (1 ≤ c.omemSize) && decide (c.omemSize ≤ 4294967295))

/-- A host move stays inside the interface when it names an address below the buffer's size and does not write OMEM
(spec/20_memory.md R68, spec/70_reset_and_hazards.md R298). -/
def Machine.Event.wellFormed (c : Config) : Machine.Event → Bool
  | .engine => true
  | .reset => true
  | .readReg _ => true
  | .writeReg _ _ => true
  | .writeImem a _ => decide (a < c.imemSize)
  | .readImem a => decide (a < c.imemSize)
  | .readOmem a => decide (a < c.omemSize)
  | .writeOmem _ _ => false
  | .command _ => true
  | .wait => true
  | .copy n => decide (n ≤ c.omemSize) && decide (n ≤ c.imemSize)

end Sys2Proof
end

