-- ==== Sys2Proof/Safety.lean ====
section
/-! DEFINITION. What claims about the block are said with: the invariant of its states, and the reference functions of
the spec's whole-operation rules, written on plain lists and naturals without the block's registers
(spec/41_tree_builder.md R133 to R147, spec/44_compress.md R220, spec/45_decompress.md R232, R233). -/

namespace Sys2Proof.Safety

open Sys2Proof.Machine

/-! ### The invariant of a state -/

/-- The (BUSY, DONE, ERR) combinations R23 lists: (0, 0, 0) after reset, (1, 0, 0) during an operation, (0, 1, e)
after one; bits 7:5 are 0. -/
def LegalStatus (v : Byte) : Prop :=
  v = packStatus false false .ok ∨ v = packStatus true false .ok ∨ ∃ e, v = packStatus false true e

/-- What holds of every state: the parameters are legal (R9); STATUS is legal (R23); PHASE is IDLE exactly when
BUSY = 0 (R40); OLEN is 0 unless the last operation succeeded (R25, R42); OLEN is at most OMEM_SIZE, and so are OPTR and
OCNT in the phases after those that write them and, for OPTR, after a success (R41, R67; until then R51 leaves both
unspecified); both buffers are in canonical form, and no two free values are the same event's (log entry 2). -/
structure Inv (s : State) : Prop where
  parameters : s.cfg.wellFormed = true
  status : LegalStatus s.status
  idle : s.phase = .idle ↔ s.busy = false
  olenClear : s.status ≠ packStatus false true .ok → s.olen = 0
  optrBound : s.phase = .cPayload ∨ s.phase = .cFlush ∨ s.phase = .dFinish ∨ s.status = packStatus false true .ok →
    s.optr ≤ s.cfg.omemSize
  ocntBound : s.phase = .dFinish → s.ocnt ≤ s.cfg.omemSize
  olenBound : s.olen.toNat ≤ s.cfg.omemSize
  buffers : Memory.wf s = true
  eras : s.imem.era < s.fresh ∧ s.omem.era < s.fresh ∧ s.imem.era ≠ s.omem.era

/-- Every register is within the width the spec gives it (R21 to R46, R50). -/
structure WithinWidths (s : State) : Prop where
  freq : ∀ i, i < 257 → Table.get s.freq i 0 < 2 ^ 32
  len : ∀ i, i < 257 → Table.get s.len i 0 < 2 ^ 6
  nfreq : ∀ i, i < 514 → Table.get s.nodes.nfreq i 0 < 2 ^ 33
  nleft : ∀ i, i < 514 → Table.get s.nodes.nleft i 0 < 2 ^ 10
  nright : ∀ i, i < 514 → Table.get s.nodes.nright i 0 < 2 ^ 10
  ndepth : ∀ i, i < 514 → Table.get s.nodes.ndepth i 0 < 2 ^ 6
  nnext : s.nodes.nnext < 2 ^ 10
  root : s.nodes.root < 2 ^ 10
  records : s.dec.dch.length ≤ DNODE
  dnext : s.dec.dnext < 2 ^ 9
  dcur : s.dec.dcur < 2 ^ 9
  iptr : s.iptr < 2 ^ 32
  optr : s.optr < 2 ^ 32
  rpos : s.rpos < 2 ^ 35
  tbits : s.tbits < 2 ^ 38
  paylen : s.paylen < 2 ^ 35
  osize : s.osize < 2 ^ 36
  cacc : s.cacc < 2 ^ 46
  norig : s.norig < 2 ^ 32
  ocnt : s.ocnt < 2 ^ 32
  kraft : s.kraft < 2 ^ 53
  wcnt : s.bw.wcnt < 2 ^ 3

/-! ### Counts, trees and code lengths -/

/-- The input IMEM[0..ILEN-1] (R60). -/
def inputBytes (s : State) : List Byte := (List.range s.ilen.toNat).map s.imem.read

/-- The FrequencyTable of an input: each byte value's occurrences, END_OF_STREAM once (R123). -/
def countOf (input : List Byte) (sym : Nat) : Nat :=
  if sym = EOS then 1 else input.countP (fun b => b.toNat == sym)

/-- A Huffman tree as a tree (R13: a leaf, or two children). -/
inductive HTree where
  | leaf (i : Nat)
  | node (l r : HTree)
  deriving DecidableEq, Repr

/-- A tree in the priority structure with its weight and its node index. -/
structure HItem where
  weight : Nat
  index : Nat
  tree : HTree
  deriving DecidableEq, Repr

/-- The priority order (R133). -/
def HItem.before (x y : HItem) : Bool :=
  decide (x.weight < y.weight) || (decide (x.weight = y.weight) && decide (x.index < y.index))

/-- The item of least key and the others (R134). -/
def extractMin : List HItem → Option (HItem × List HItem)
  | [] => none
  | x :: xs =>
    match extractMin xs with
    | none => some (x, [])
    | some (m, rest) => if x.before m then some (x, xs) else some (m, x :: rest)

/-- Merging the two least items until one is left (R135, R137). -/
def mergeItems : Nat → Nat → List HItem → List HItem
  | 0, _, xs => xs
  | n + 1, next, xs =>
    match extractMin xs with
    | none => xs
    | some (a, ys) =>
      match extractMin ys with
      | none => xs
      | some (b, zs) => mergeItems n (next + 1) (⟨a.weight + b.weight, next, .node a.tree b.tree⟩ :: zs)

/-- The leaves of the symbols that occur (R131), with the placeholder when there is one only (R132). -/
def leafItems (counts : Nat → Nat) : List HItem :=
  let xs := ((List.range NSYM).filter (fun s => decide (0 < counts s))).map (fun s => ⟨counts s, s, .leaf s⟩)
  if xs.length = 1 then xs ++ [⟨0, PH, .leaf PH⟩] else xs

/-- The Huffman tree of a frequency table (R137). -/
def huffmanTree (counts : Nat → Nat) : Option HTree :=
  ((mergeItems NSYM NODE_BASE (leafItems counts)).head?).map (·.tree)

/-- The number of edges from the root to the leaf of node i (R140). -/
def depthOf : HTree → Nat → Option Nat
  | .leaf j, i => if i = j then some 0 else none
  | .node l r, i =>
    match depthOf l i with
    | some d => some (d + 1)
    | none => (depthOf r i).map (· + 1)

/-- The code length of a symbol (R141): its leaf's depth, 0 when it has no leaf. -/
def huffmanLength (counts : Nat → Nat) (sym : Nat) : Nat :=
  match huffmanTree counts with
  | some t => (depthOf t sym).getD 0
  | none => 0

/-! ### Canonical codes -/

/-- r comes before s in canonical order (R144). -/
def canonicallyBefore (len : Nat → Nat) (r s : Nat) : Bool :=
  decide (0 < len r) && decide (len r ≤ L_MAX) &&
    (decide (len r < len s) || (decide (len r = len s) && decide (r < s)))

/-- The canonical code of s as a number (R146, third form): the code space used by the symbols before s, in units of
2^-45, shifted right by 45 - LEN[s]. -/
def canonicalValue (len : Nat → Nat) (s : Nat) : Nat :=
  (((List.range NSYM).filter (fun r => canonicallyBefore len r s)).map (fun r => 2 ^ (L_MAX - len r))).sum
    / 2 ^ (L_MAX - len s)

/-- bits(v, n) of a natural number (R10). -/
def bitString (v n : Nat) : List Bool := (List.range n).map (fun k => v.testBit (n - 1 - k))

/-- The code of a symbol as a bit string (R30). -/
def canonicalCode (len : Nat → Nat) (s : Nat) : List Bool := bitString (canonicalValue len s) (len s)

/-- The Kraft sum in units of 2^-45 (R14). -/
def kraftOf (len : Nat → Nat) : Nat :=
  ((List.range NSYM).map (fun s => if 0 < len s then 2 ^ (L_MAX - len s) else 0)).sum

/-! ### The container as a function of the input (R90, R96, R97, R220) -/

/-- The byte whose bit 7 - k is the bit 8j + k of the string, 0 past its end (R63, R97, R102). -/
def packedByte (bits : List Bool) (j : Nat) : Byte :=
  BitVec.ofNat 8 (((List.range 8).map (fun k => if bits.getD (8 * j + k) false then 2 ^ (7 - k) else 0)).sum)

/-- Most-significant-bit-first packing with zero padding to a whole byte (R97). -/
def packBits (bits : List Bool) : List Byte := (List.range ((bits.length + 7) / 8)).map (packedByte bits)

/-- The 4-byte big-endian form (R93). -/
def bigEndian32 (n : Nat) : List Byte :=
  [BitVec.ofNat 8 (n / 2 ^ 24), BitVec.ofNat 8 (n / 2 ^ 16), BitVec.ofNat 8 (n / 2 ^ 8), BitVec.ofNat 8 n]

/-- The payload bit string under a length table: every byte's code in order, then END_OF_STREAM's (R96). -/
def payloadString (len : Nat → Nat) (input : List Byte) : List Bool :=
  input.flatMap (fun b => canonicalCode len b.toNat) ++ canonicalCode len EOS

/-- The container of an input (R220). -/
def containerOf (input : List Byte) : List Byte :=
  let len := huffmanLength (countOf input)
  MAGIC ++ bigEndian32 input.length ++ (List.range NSYM).map (fun s => BitVec.ofNat 8 (len s)) ++
    packBits (payloadString len input)

/-! ### The decoding of a container as a function (R176, R232, R233) -/

/-- What a bit string read since the last symbol is under a code (R176). -/
inductive Reading where
  | symbol (s : Nat)
  | within
  | outside
  deriving DecidableEq, Repr

/-- The three-way test of R176 on the bits read since the last symbol. -/
def readingOf (len : Nat → Nat) (p : List Bool) : Reading :=
  match (List.range NSYM).find? (fun s => decide (0 < len s) && canonicalCode len s == p) with
  | some s => .symbol s
  | none =>
    if (List.range NSYM).any (fun s => decide (p.length < len s) && (canonicalCode len s).take p.length == p) then .within
    else .outside

/-- Prefix decoding of a payload (R232 rows 8 to 10, R233): the symbols decoded are collected until END_OF_STREAM. -/
def prefixDecode (len : Nat → Nat) (norig : Nat) : List Bool → List Bool → List Byte → Except ErrCode (List Byte)
  | [], _, _ => .error .truncatedPayload
  | b :: bs, p, out =>
    match readingOf len (p ++ [b]) with
    | .within => prefixDecode len norig bs (p ++ [b]) out
    | .outside => .error .invalidCode
    | .symbol s =>
      if s = EOS then (if out.length = norig then .ok out else .error .corruptHeader)
      else if out.length = norig then .error .corruptHeader
      else prefixDecode len norig bs [] (out ++ [BitVec.ofNat 8 s])

/-- The bits of a byte sequence from offset `start`, `n` bytes, each most significant bit first (R102). -/
def payloadBitsAt (c : Nat → Byte) (start n : Nat) : List Bool :=
  (List.range (8 * n)).map (fun k => (c (start + k / 8)).getLsbD (7 - k % 8))

/-- ORIG_LEN of the container in IMEM (R100). -/
def origLen (c : Nat → Byte) : Nat :=
  (c 4).toNat * 2 ^ 24 + (c 5).toNat * 2 ^ 16 + (c 6).toNat * 2 ^ 8 + (c 7).toNat

/-- Every way DECOMPRESS can end, in the order of R232, for container bytes c and CLEN = clen. -/
def decompressOutcome (cfg : Config) (clen : Nat) (c : Nat → Byte) : Except ErrCode (List Byte) :=
  let len := fun s => (c (8 + s)).toNat
  let norig := origLen c
  if cfg.imemSize < clen then .error .ioFailure
  else if clen < HDR_LEN then .error .corruptHeader
  else if (List.range 4).map c ≠ MAGIC then .error .corruptHeader
  else if (List.range NSYM).any (fun s => decide (L_MAX < len s)) then .error .corruptHeader
  else if len EOS = 0 then .error .corruptHeader
  else if 2 ^ L_MAX < kraftOf len then .error .corruptHeader
  else if cfg.omemSize < norig then .error .ioFailure
  else prefixDecode len norig (payloadBitsAt c HDR_LEN (clen - HDR_LEN)) [] []

/-! ### Agreement of two states -/

/-- The inputs of an operation: the parameters, ILEN and the bytes IMEM[0..ILEN-1] (R219, R223, R238). -/
def SameInput (s t : State) : Prop :=
  s.cfg = t.cfg ∧ s.ilen = t.ilen ∧ ∀ a, a < s.ilen.toNat → s.imem.read a = t.imem.read a

/-- The result triple (ERR, OLEN, OMEM[0..OLEN-1]) of R284 is the same, and so is the whole STATUS byte. -/
def SameResult (s t : State) : Prop :=
  s.status = t.status ∧ s.olen = t.olen ∧ ∀ a, a < s.olen.toNat → s.omem.read a = t.omem.read a

/-- No code is a prefix of another (R147): of two coded symbols that differ, neither code begins the other. -/
def PrefixFree (len : Nat → Nat) (code : Nat → List Bool) : Prop :=
  ∀ r s, r < NSYM → s < NSYM → 0 < len r → 0 < len s → r ≠ s → ¬ (code r) <+: (code s)

/-! ### The phases, the decode tree, the header -/

/-- The phase after each phase in R40's table; IDLE after the last phase of an operation. -/
def nextPhase : Phase → Phase
  | .idle => .idle
  | .cStart => .cCount
  | .cCount => .cBuild
  | .cBuild => .cDepth
  | .cDepth => .cCanon
  | .cCanon => .cSize
  | .cSize => .cHeader
  | .cHeader => .cPayload
  | .cPayload => .cFlush
  | .cFlush => .idle
  | .dStart => .dHeader
  | .dHeader => .dCanon
  | .dCanon => .dTree
  | .dTree => .dDecode
  | .dDecode => .dFinish
  | .dFinish => .idle

/-- The entry of the decode tree that the bits lead to from record n (R173, R176); none when they lead past an entry
that is not a node. -/
def treeEntry (d : DecodeStore) : Nat → List Bool → Option DEntry
  | _, [] => none
  | n, [b] => (d.dch[n]?).map (fun r => r.child b)
  | n, b :: b' :: bs =>
    match d.dch[n]? with
    | none => none
    | some r =>
      match r.child b with
      | .node m => treeEntry d m (b' :: bs)
      | .none => none
      | .leaf _ => none

/-- The entries of a length table as a function of the symbol. -/
def lengths (t : Table Nat NSYM) (s : Nat) : Nat := Table.get t s 0

/-- The code a CodeTable gives a symbol (R30). -/
def codeOf (len : Table Nat NSYM) (code : Table CodeWord NSYM) (s : Nat) : List Bool :=
  codeBits (Table.get code s 0) (Table.get len s 0)

/-- CANON's precondition (R145): every length at most 45, the Kraft sum at most 2^45. -/
def CanonPrecondition (len : Table Nat NSYM) : Prop :=
  (∀ i, i < NSYM → Table.get len i 0 ≤ L_MAX) ∧ kraftSum len ≤ 2 ^ L_MAX

/-- The node i is live and its key is below that of every other live node (R133). -/
def LeastKey (d : NodeStore) (i : Nat) : Prop :=
  i < NNODE ∧ Table.get d.nlive i false = true ∧
    ∀ j, j < NNODE → j ≠ i → Table.get d.nlive j false = true →
      Table.get d.nfreq i 0 < Table.get d.nfreq j 0 ∨ (Table.get d.nfreq i 0 = Table.get d.nfreq j 0 ∧ i < j)

/-- The header of the container in IMEM passes the checks of R164 to R168. -/
def HeaderAccepted (clen : Nat) (c : Nat → Byte) : Prop :=
  HDR_LEN ≤ clen ∧ (List.range 4).map c = MAGIC ∧ (∀ s, s < NSYM → (c (8 + s)).toNat ≤ L_MAX) ∧
    (c 264).toNat ≠ 0 ∧ kraftOf (fun s => (c (8 + s)).toNat) ≤ 2 ^ L_MAX

end Sys2Proof.Safety
end

