-- ==== Sys2Proof/Certificates/Slice0/Obligations.lean ====
section
/-! DEFINITION. The statements about the block, each a proposition for the provers. "The block is idle" is BUSY = 0.
A statement about a free value (log entry 2) holds for every value of it. -/

open Sys2Proof Sys2Proof.Machine Sys2Proof.Safety

/-! ### Encoding -/

/-- R82, R83, R84, R108: 0x01 is COMPRESS, 0x02 is DECOMPRESS, each of the other 254 bytes is rejected by name. -/
def Obligations.CommandBytesDecode : Prop :=
  decode 0x01 = .ok .compress ∧ decode 0x02 = .ok .decompress ∧
    ∀ c : Byte, c ≠ 0x01 → c ≠ 0x02 → decode c = .error (.reservedCommand c)

/-- Decoder and encoder agree, in both directions: each instruction has one byte and each accepted byte one
instruction. -/
def Obligations.DecodeEncodeAgree : Prop :=
  (∀ i : Instr, decode (encode i) = .ok i) ∧ ∀ (c : Byte) (i : Instr), decode c = .ok i → c = encode i

/-! ### The step and the host's moves -/

/-- A command that decodes to an instruction is run by the step as that instruction, the command being taken off the
agenda (R220, R233: one atomic step from the CMD write to DONE). The agenda is the model's own (log entry 1). -/
def Obligations.StepRunsDecodedCommand : Prop :=
  ∀ (s : State) (c : Byte) (rest : List Event) (i : Instr),
    s.agenda = .command c :: rest → decode c = .ok i → step s = exec i { s with agenda := rest }

/-- `withFetchWord` makes the next step run the instruction of the table word, on the state itself when the block is
idle and on the state with its operation abandoned (R282) when it is busy. The model's convention (log entry 6). -/
def Obligations.FetchWordIsRunNext : Prop :=
  ∀ (s : State) (i : Instr),
    step (s.withFetchWord 8 (encode i).toNat) =
      exec i (if s.busy then { s.setStatus false false .ok with phase := .idle } else s)

/-- R288, R210, R225: a CMD write of 0x01 or 0x02 with BUSY = 0: STATUS becomes BUSY = 1, DONE = 0, ERR = 0, OLEN
becomes 0, and the operation begins at its first phase; nothing else changes. That the write is an event which only
starts the operation is the model's form (log entry 1), and that CMD takes the low 8 bits of a 32-bit value is the
model's reading (log entry 5). -/
def Obligations.CommandWriteStartsOperation : Prop :=
  ∀ (s : State) (v : Word32) (rest : List Event) (i : Instr),
    s.agenda = .writeReg 0 v :: rest → s.busy = false → decode (v.setWidth 8) = .ok i →
    step s = .next { s with agenda := rest, status := packStatus true false .ok, olen := 0, phase := firstPhase i }

/-- R256: a CMD write of a reserved value with BUSY = 0 completes at the write: BUSY = 0, DONE = 1, ERR = 5, OLEN = 0;
PHASE, ILEN, IMEM, OMEM and everything else stay. Said for both of the model's forms of the host's CMD write (log entry
1); that CMD takes the low 8 bits of a 32-bit value is the model's reading (log entry 5). -/
def Obligations.ReservedCommandIsBadCommand : Prop :=
  ∀ (s : State) (v : Word32) (rest : List Event),
    s.busy = false → v.setWidth 8 ≠ (0x01 : Byte) → v.setWidth 8 ≠ (0x02 : Byte) →
    (s.agenda = .writeReg 0 v :: rest ∨ s.agenda = .command (v.setWidth 8) :: rest) →
    step s = .next { s with agenda := rest, status := packStatus false true .badCommand, olen := 0 }

/-- R22, R42: a CMD write while BUSY = 1 is ignored whatever its value: no state changes. Said for both of the model's
forms of the host's CMD write (log entry 1), for every 32-bit value (log entry 5). -/
def Obligations.CommandIgnoredWhileBusy : Prop :=
  ∀ (s : State) (v : Word32) (rest : List Event),
    s.busy = true → (s.agenda = .writeReg 0 v :: rest ∨ s.agenda = .command (v.setWidth 8) :: rest) →
    step s = .next { s with agenda := rest }

/-- R21: what a host read of each register number returns, and that reads and the ignored writes change nothing; a
write of ILEN is taken while BUSY = 0 and ignored while BUSY = 1 (R24). The field that holds the value read is the
model's own (log entry 1). -/
def Obligations.RegisterMap : Prop :=
  ∀ (s : State) (n : Nat) (v : Word32) (rest : List Event),
    (s.agenda = .readReg n :: rest →
      step s = .next { s with
        agenda := rest
        rdata := if n = 1 then s.status.setWidth 32 else if n = 2 then s.ilen else if n = 3 then s.olen else 0 }) ∧
    (s.agenda = .writeReg n v :: rest → n ≠ 0 → n ≠ 2 → step s = .next { s with agenda := rest }) ∧
    (s.agenda = .writeReg 2 v :: rest → s.busy = false → step s = .next { s with agenda := rest, ilen := v }) ∧
    (s.agenda = .writeReg 2 v :: rest → s.busy = true → step s = .next { s with agenda := rest })

/-- R280, R282: reset at any time, also during an operation, sets STATUS = 0, ILEN = 0, OLEN = 0 and PHASE = IDLE;
no byte of either buffer keeps a value the model knows, the form of "unspecified" being the model's (log entry 2); the
parameters stay. -/
def Obligations.ResetInputEffect : Prop :=
  ∀ (s : State) (rest : List Event), s.agenda = .reset :: rest →
    ∃ t, step s = .next t ∧ t.status = 0 ∧ t.ilen = 0 ∧ t.olen = 0 ∧ t.phase = .idle ∧ t.busy = false ∧
      t.imem.cells = [] ∧ t.omem.cells = [] ∧ t.cfg = s.cfg ∧ t.agenda = rest

/-- The host's buffer accesses (R60, R61, R68, R292, R298): refused outside the buffer; an IMEM write is refused while
BUSY = 1 and stores the byte while BUSY = 0; an IMEM read returns the byte stored at any time; OMEM cannot be
written. Which refusal an IMEM write gets that is both outside the buffer and during an operation, that for its address,
is the model's choice (log entry 14). -/
def Obligations.HostBufferAccess : Prop :=
  ∀ (s : State) (a : Nat) (v : Byte) (rest : List Event),
    (s.agenda = .writeImem a v :: rest →
      step s = if s.cfg.imemSize ≤ a then .refused (.hostAddress a)
        else if s.busy then .refused (.imemWriteWhileBusy a)
        else .next { s with agenda := rest, imem := s.imem.write a v }) ∧
    (s.agenda = .readImem a :: rest →
      step s = if s.cfg.imemSize ≤ a then .refused (.hostAddress a)
        else .next { s with agenda := rest, rdata := (s.imem.read a).setWidth 32 }) ∧
    (s.agenda = .readOmem a :: rest → s.cfg.omemSize ≤ a → step s = .refused (.hostAddress a)) ∧
    (s.agenda = .writeOmem a v :: rest → step s = .refused (.omemHostWrite a))

/-- R293: a host read of OMEM returns the byte stored while BUSY = 0; while BUSY = 1 it returns an unspecified byte and
changes no state of the block. That such a byte is a free value, a new one for each such read, is the model's form (log
entry 2). -/
def Obligations.OmemReadWhileBusyIsUnspecified : Prop :=
  ∀ (s : State) (a : Nat) (rest : List Event), s.agenda = .readOmem a :: rest → a < s.cfg.omemSize →
    (s.busy = false → step s = .next { s with agenda := rest, rdata := (s.omem.read a).setWidth 32 }) ∧
    (s.busy = true →
      step s = .next { s with
        agenda := rest, rdata := (Config.freeByte s.fresh a).setWidth 32, fresh := s.fresh + 1 })

/-- R62: the byte the host wrote to IMEM last is the byte it reads, and a write leaves every other address alone. -/
def Obligations.ImemReadsLastWrite : Prop :=
  ∀ (s : State) (a b : Nat) (v : Byte) (rest : List Event),
    s.agenda = .writeImem a v :: .readImem b :: rest → s.busy = false → a < s.cfg.imemSize → b < s.cfg.imemSize →
    ∃ t u, step s = .next t ∧ step t = .next u ∧
      u.rdata = if a = b then v.setWidth 32 else (s.imem.read b).setWidth 32

/-- R26, R281: while BUSY = 0 the engine does nothing: with no host move left the state stays as it is. -/
def Obligations.IdleEngineDoesNothing : Prop :=
  ∀ s : State, s.busy = false → s.agenda = [] → step s = .next s

/-- R289 in the model's form of a wait (log entries 1 and 12): the wait goes on when STATUS reads DONE = 1 and until then
lets the engine take its turns; it stays the host's next move meanwhile. -/
def Obligations.WaitPollsStatus : Prop :=
  ∀ (s : State) (rest : List Event), s.agenda = .wait :: rest →
    (s.done = true → step s = .next { s with agenda := rest, rdata := s.status.setWidth 32 }) ∧
    (s.done = false → s.busy = true → step s = enginePhase s) ∧
    (s.done = false → ∀ t, step s = .next t → t.agenda = .wait :: rest)

/-- R265: while BUSY = 0, DONE and ERR (the whole STATUS byte) and OLEN change only at a CMD write or at reset. -/
def Obligations.OutcomeIsSticky : Prop :=
  ∀ (s t : State) (e : Event) (rest : List Event), s.busy = false → s.agenda = e :: rest → step s = .next t →
    e ≠ .reset → (∀ c, e ≠ .command c) → (∀ v, e ≠ .writeReg 0 v) → t.status = s.status ∧ t.olen = s.olen

/-! ### The invariant -/

/-- The invariant holds after reset, for every legal instance: STATUS = 0, OLEN = 0 and PHASE = IDLE by R51. That both
buffers list nothing, in eras of their own, is the model's form of "unspecified" (log entry 2). The invariant bounds no
pointer that R51 leaves unspecified. -/
def Obligations.ResetMeetsInvariant : Prop :=
  ∀ cfg : Config, cfg.wellFormed = true → Inv (State.resetOf cfg)

/-- Every step keeps the invariant: STATUS stays one of R23's combinations, PHASE is IDLE exactly when BUSY = 0 (R40),
OLEN is 0 unless the last operation succeeded (R25), OLEN and the pointers an operation has written stay inside the
output buffer (R41, R67), the parameters stay legal (R9). That the buffers stay in canonical form, and that no two free
values are the same event's, is of the model's own form of memory (log entry 2). -/
def Obligations.StepKeepsInvariant : Prop :=
  ∀ s t : State, Inv s → step s = .next t → Inv t

/-- R289: during an operation a STATUS read returns 0x01 and an OLEN read returns 0. -/
def Obligations.BusyReadsShowNoResult : Prop :=
  ∀ (s : State) (rest : List Event), Inv s → s.busy = true →
    (s.agenda = .readReg 1 :: rest → ∃ t, step s = .next t ∧ t.rdata = 0x01) ∧
    (s.agenda = .readReg 3 :: rest → ∃ t, step s = .next t ∧ t.rdata = 0)

/-! ### Phases -/

/-- R40: a turn of the engine in a phase leads to the next phase of the table, STATUS staying as it is, or to IDLE; it
leads to IDLE only with BUSY = 0 and DONE = 1, by completion or by an error. -/
def Obligations.PhasesInOrder : Prop :=
  ∀ s t : State, s.phase ≠ .idle → enginePhase s = .next t →
    (t.phase = nextPhase s.phase ∨ t.phase = .idle) ∧
      (t.phase = .idle → ∃ e, t.status = packStatus false true e) ∧ (t.phase ≠ .idle → t.status = s.status)

/-- The phased run reaches the atomic result (R220, R233), in the model's two forms of a CMD write (log entry 1): from an
idle block, the CMD write followed by the engine's turns ends, after at most nine turns, in what the instruction's
meaning answers. -/
def Obligations.PhasedRunReachesAtomicResult : Prop :=
  ∀ (i : Instr) (s : State), s.busy = false → s.agenda = [] →
    ∃ n, n ≤ 10 ∧
      Host.Core.run core n ({ s with agenda := [.writeReg 0 ((encode i).setWidth 32)] } : State) = exec i s

/-- R297: the wait after an accepted command cannot hang. R297 says finitely many steps; that the host has seen DONE = 1
within twelve of the model's steps follows from its choice of one phase a step (log entry 1) and of the wait as one
event (log entry 12). -/
def Obligations.WaitAfterCommandEnds : Prop :=
  ∀ (i : Instr) (s : State), s.busy = false →
    ∃ n t, n ≤ 12 ∧
      Host.Core.run core n ({ s with agenda := [.writeReg 0 ((encode i).setWidth 32), .wait] } : State) = .next t ∧
      t.agenda = [] ∧ t.done = true

/-! ### COMPRESS as a whole -/

/-- R221, R224: COMPRESS always completes, and fails for no reason but capacity: IOFailure when ILEN > IMEM_SIZE or
when the container size OSIZE > OMEM_SIZE, success otherwise. -/
def Obligations.CompressCompletes : Prop :=
  ∀ s : State, s.busy = false →
    ∃ t, exec .compress s = .next t ∧ t.phase = .idle ∧
      (s.cfg.imemSize < s.ilen.toNat → t.status = packStatus false true .ioFailure) ∧
      (s.ilen.toNat ≤ s.cfg.imemSize →
        t.osize = HDR_LEN + (t.tbits + 7) / 8 ∧
          t.status = packStatus false true (if s.cfg.omemSize < t.osize then .ioFailure else .ok))

/-- R220: the result of COMPRESS as a function. With OMEM large enough OMEM[0..OLEN-1] is the container of the input,
ERR = 0 and every address from OLEN on is unchanged; otherwise ERR = 4, OLEN = 0 and OMEM is unchanged. -/
def Obligations.CompressWritesTheContainer : Prop :=
  ∀ s : State, s.cfg.wellFormed = true → s.busy = false → s.ilen.toNat ≤ s.cfg.imemSize →
    ∃ t, exec .compress s = .next t ∧
      if (containerOf (inputBytes s)).length ≤ s.cfg.omemSize then
        t.status = packStatus false true .ok ∧ t.olen.toNat = (containerOf (inputBytes s)).length ∧
          (∀ a, a < t.olen.toNat → t.omem.read a = (containerOf (inputBytes s)).getD a 0) ∧
          ∀ a, t.olen.toNat ≤ a → t.omem.read a = s.omem.read a
      else t.status = packStatus false true .ioFailure ∧ t.olen = 0 ∧ t.omem = s.omem

/-- R222: COMPRESS of the empty input: FREQ holds END_OF_STREAM only, the placeholder is its sibling, LEN[256] = 1,
CODE[256] = 0, TBITS = 1, PAYLEN = 1, OSIZE = 266; the header has ORIG_LEN = 0 and a table that is all 00 except byte
264 = 01; the payload is the byte 00. -/
def Obligations.EmptyInputContainer : Prop :=
  ∀ s : State, s.cfg.wellFormed = true → s.busy = false → s.ilen = 0 → 266 ≤ s.cfg.omemSize →
    ∃ t, exec .compress s = .next t ∧ t.status = packStatus false true .ok ∧ t.olen = 266 ∧
      Table.get t.len EOS 0 = 1 ∧ Table.get t.code EOS 0 = 0 ∧ t.tbits = 1 ∧ t.paylen = 1 ∧ t.osize = 266 ∧
      (∀ a, a < 256 → Table.get t.freq a 0 = 0) ∧ Table.get t.freq EOS 0 = 1 ∧
      Table.get t.nodes.nleft NODE_BASE 0 = PH ∧ Table.get t.nodes.nright NODE_BASE 0 = EOS ∧
      ∀ a, a < 266 → t.omem.read a =
        if a = 0 then 0x48 else if a = 1 then 0x55 else if a = 2 then 0x46 else if a = 3 then 0x01
        else if a = 264 then 0x01 else 0x00

/-- R223: the result of COMPRESS depends on the input only, whatever the tables, OMEM and every other register hold. -/
def Obligations.CompressDependsOnInputOnly : Prop :=
  ∀ s s' t t' : State, s.cfg.wellFormed = true → s.busy = false → s'.busy = false → SameInput s s' →
    exec .compress s = .next t → exec .compress s' = .next t' → SameResult t t'

/-- The frame of COMPRESS: the parameters, ILEN, IMEM, the decoder's own registers, and what is the host's, stay; every
OMEM byte outside the container written is unchanged, all of OMEM when it fails (R219, R220). -/
def Obligations.CompressFrame : Prop :=
  ∀ s t : State, s.cfg.wellFormed = true → exec .compress s = .next t →
    t.cfg = s.cfg ∧ t.ilen = s.ilen ∧ t.imem = s.imem ∧ t.dec = s.dec ∧ t.rpos = s.rpos ∧ t.norig = s.norig ∧
      t.ocnt = s.ocnt ∧ t.kraft = s.kraft ∧ t.agenda = s.agenda ∧ t.rdata = s.rdata ∧ t.fresh = s.fresh ∧
      (s.busy = true → t = s) ∧
      (s.busy = false → ∀ a, t.olen.toNat ≤ a → t.omem.read a = s.omem.read a)

/-! ### DECOMPRESS as a whole -/

/-- R237: DECOMPRESS always completes, with one of the outcomes OK, CorruptHeader, TruncatedPayload, InvalidCode,
IOFailure. -/
def Obligations.DecompressCompletes : Prop :=
  ∀ s : State, s.busy = false →
    ∃ t e, exec .decompress s = .next t ∧ t.phase = .idle ∧ e ≠ ErrCode.badCommand ∧
      t.status = packStatus false true e

/-- R232, R233: how DECOMPRESS ends, in the order of the tests, and its result: on success OLEN = ORIG_LEN, OMEM[0..]
the decoded bytes and every address from OLEN on unchanged; on failure the error and OLEN = 0. The decoding is the
prefix decoding of the payload bits under the canonical code of the header's table. -/
def Obligations.DecompressDecodesTheContainer : Prop :=
  ∀ s : State, s.busy = false →
    ∃ t, exec .decompress s = .next t ∧
      match decompressOutcome s.cfg s.ilen.toNat s.imem.read with
      | .ok out =>
        t.status = packStatus false true .ok ∧ t.olen.toNat = out.length ∧ out.length = origLen s.imem.read ∧
          (∀ a, a < out.length → t.omem.read a = out.getD a 0) ∧
          ∀ a, out.length ≤ a → t.omem.read a = s.omem.read a
      | .error e => t.status = packStatus false true e ∧ t.olen = 0

/-- R236: bytes after the byte holding the last bit of the END_OF_STREAM code, and the pad bits in that byte, do not
matter: a container that agrees with a decoded one on the header and on the payload bits read decodes to the same. -/
def Obligations.TrailingDataIgnored : Prop :=
  ∀ s s' t : State, s.busy = false → s'.busy = false → s'.cfg = s.cfg → exec .decompress s = .next t →
    t.status = packStatus false true .ok → s'.ilen.toNat ≤ s.cfg.imemSize →
    HDR_LEN + (t.rpos + 7) / 8 ≤ s'.ilen.toNat →
    (∀ a, a < HDR_LEN → s'.imem.read a = s.imem.read a) →
    (∀ k, k < t.rpos →
      msbFirstBit (s'.imem.read (HDR_LEN + k / 8)) k = msbFirstBit (s.imem.read (HDR_LEN + k / 8)) k) →
    ∃ t', exec .decompress s' = .next t' ∧ SameResult t t'

/-- R238: the result of DECOMPRESS depends on the container only, whatever the tables, OMEM and every other register
hold. -/
def Obligations.DecompressDependsOnInputOnly : Prop :=
  ∀ s s' t t' : State, s.busy = false → s'.busy = false → SameInput s s' →
    exec .decompress s = .next t → exec .decompress s' = .next t' → SameResult t t'

/-- The frame of DECOMPRESS: the parameters, ILEN, IMEM, the encoder's own registers, and what is the host's, stay; on
success every OMEM byte from OLEN on is unchanged (R233, R238). After a failure every byte of OMEM is unspecified
(R263, log entry 7). -/
def Obligations.DecompressFrame : Prop :=
  ∀ s t : State, exec .decompress s = .next t →
    t.cfg = s.cfg ∧ t.ilen = s.ilen ∧ t.imem = s.imem ∧ t.freq = s.freq ∧ t.nodes = s.nodes ∧ t.tbits = s.tbits ∧
      t.osize = s.osize ∧ t.bw = s.bw ∧ t.agenda = s.agenda ∧ t.rdata = s.rdata ∧ (s.busy = true → t = s) ∧
      (s.busy = false → t.status = packStatus false true .ok →
        ∀ a, t.olen.toNat ≤ a → t.omem.read a = s.omem.read a)

/-- R255 a and c, R262: with ILEN > IMEM_SIZE both operations end in IOFailure at once: STATUS = 0x12, OLEN = 0, PHASE
IDLE, and nothing else of the block is written; after DECOMPRESS the bytes of OMEM are unspecified (R263), in the form
of log entries 2 and 7. -/
def Obligations.InputTooLongIsIoFailure : Prop :=
  ∀ s : State, s.busy = false → s.cfg.imemSize < s.ilen.toNat →
    exec .compress s = .next { s with status := 0x12, olen := 0, phase := .idle } ∧
      exec .decompress s =
        .next { s with status := 0x12, olen := 0, phase := .idle, omem := ⟨s.fresh, []⟩, fresh := s.fresh + 1 }

/-- R252 a to e, R255 d, R260: the header checks of DECOMPRESS and what they report: a header that fails a check of
R164 to R168 is CorruptHeader whatever the payload holds and whatever ORIG_LEN says; an accepted header whose ORIG_LEN
exceeds OMEM_SIZE is IOFailure; OLEN is 0. -/
def Obligations.HeaderErrors : Prop :=
  ∀ s : State, s.busy = false → s.ilen.toNat ≤ s.cfg.imemSize →
    (¬ HeaderAccepted s.ilen.toNat s.imem.read →
      ∃ t, exec .decompress s = .next t ∧ t.status = packStatus false true .corruptHeader ∧ t.olen = 0) ∧
    (HeaderAccepted s.ilen.toNat s.imem.read → s.cfg.omemSize < origLen s.imem.read →
      ∃ t, exec .decompress s = .next t ∧ t.status = packStatus false true .ioFailure ∧ t.olen = 0)

/-- R262 and R25, R61, R220: an operation that fails leaves OLEN = 0, ILEN and IMEM as they were, PHASE IDLE; a failing
COMPRESS leaves OMEM unchanged too. -/
def Obligations.FailureLeavesNoResult : Prop :=
  ∀ (i : Instr) (s t : State), s.busy = false → exec i s = .next t → t.status ≠ packStatus false true .ok →
    t.olen = 0 ∧ t.ilen = s.ilen ∧ t.imem = s.imem ∧ t.phase = .idle ∧ t.busy = false ∧ t.done = true ∧
      (i = .compress → t.omem = s.omem)

/-! ### The two operations together -/

/-- R234: round trip. For every input that fits, COMPRESS followed by DECOMPRESS of its output (copied to IMEM, ILEN =
OLEN) gives the input back, whatever everything else of the block holds. -/
def Obligations.RoundTrip : Prop :=
  ∀ s : State, s.cfg.wellFormed = true → s.busy = false → s.ilen.toNat ≤ s.cfg.imemSize →
    s.ilen.toNat ≤ s.cfg.omemSize → (containerOf (inputBytes s)).length ≤ min s.cfg.imemSize s.cfg.omemSize →
    ∃ t, exec .compress s = .next t ∧
      ∀ s' : State, s'.busy = false → s'.cfg = s.cfg → s'.ilen = t.olen →
        (∀ a, a < t.olen.toNat → s'.imem.read a = t.omem.read a) →
        ∃ u, exec .decompress s' = .next u ∧ u.status = packStatus false true .ok ∧ u.olen = s.ilen ∧
          ∀ a, a < s.ilen.toNat → u.omem.read a = s.imem.read a

/-- R235: truncation is detected. A container COMPRESS wrote, cut to k bytes, is TruncatedPayload when its header is
intact and CorruptHeader when it is not. -/
def Obligations.TruncationDetected : Prop :=
  ∀ s t : State, s.cfg.wellFormed = true → s.busy = false → s.ilen.toNat ≤ s.cfg.imemSize →
    s.ilen.toNat ≤ s.cfg.omemSize → exec .compress s = .next t → t.status = packStatus false true .ok →
    ∀ s' : State, s'.busy = false → s'.cfg = s.cfg → s'.ilen.toNat < t.olen.toNat →
      s'.ilen.toNat ≤ s.cfg.imemSize → (∀ a, a < s'.ilen.toNat → s'.imem.read a = t.omem.read a) →
      ∃ u, exec .decompress s' = .next u ∧ u.olen = 0 ∧
        u.status = packStatus false true (if HDR_LEN ≤ s'.ilen.toNat then .truncatedPayload else .corruptHeader)

/-- R50: every width is large enough: an operation started with every register inside its width ends with every
register inside its width, so no rule wraps. -/
def Obligations.NoRegisterOverflows : Prop :=
  ∀ (i : Instr) (s t : State), s.cfg.wellFormed = true → s.busy = false → WithinWidths s → exec i s = .next t →
    WithinWidths t

/-! ### The frequency counter -/

/-- R123: after C_COUNT, FREQ[b] is the number of i < ILEN with IMEM[i] = b, the sum of FREQ[0..255] is ILEN, FREQ[256]
is 1, and IPTR = ILEN; nothing else changes but PHASE. -/
def Obligations.FrequenciesAreCounts : Prop :=
  ∀ s : State, s.ilen.toNat ≤ s.cfg.imemSize →
    ∃ f, cCount s = .ok { s with freq := f, iptr := s.ilen.toNat, phase := .cBuild } ∧
      (∀ b : Byte, Table.get f b.toNat 0 = (inputBytes s).count b) ∧ Table.get f EOS 0 = 1 ∧
      ((List.range 256).map (fun b => Table.get f b 0)).sum = s.ilen.toNat ∧
      ((List.range NSYM).map (fun b => Table.get f b 0)).sum = s.ilen.toNat + 1

/-! ### The tree builder -/

/-- R133, R134: TB_XMIN takes the live node of least key (weight, index) off the live set and changes nothing else;
with a live node there is one. -/
def Obligations.LeastNodeIsExtracted : Prop :=
  (∀ (d d' : NodeStore) (i : Nat), tbXmin d = .ok (i, d') →
    LeastKey d i ∧ d' = { d with nlive := Table.set d.nlive i false }) ∧
  ∀ (d : NodeStore) (j : Nat), j < NNODE → Table.get d.nlive j false = true → ∃ i d', tbXmin d = .ok (i, d')

/-- R135: TB_MERGE with two live nodes and a free index: a is the node of least key, b that of the rest, they differ,
and node NNEXT becomes live with left child a, right child b and the sum of their weights. -/
def Obligations.MergeJoinsTheTwoLeast : Prop :=
  ∀ d : NodeStore, 2 ≤ d.liveCount → d.nnext < NNODE →
    ∃ a b d1 d2, tbXmin d = .ok (a, d1) ∧ tbXmin d1 = .ok (b, d2) ∧ a ≠ b ∧ LeastKey d a ∧ LeastKey d1 b ∧
      ∃ d', tbMerge d = .ok d' ∧ d'.nnext = d.nnext + 1 ∧
        Table.get d'.nfreq d.nnext 0 = Table.get d.nfreq a 0 + Table.get d.nfreq b 0 ∧
        Table.get d'.nleft d.nnext 0 = a ∧ Table.get d'.nright d.nnext 0 = b ∧
        Table.get d'.nlive d.nnext false = true ∧
        (∀ j, j ≠ d.nnext → Table.get d'.nfreq j 0 = Table.get d.nfreq j 0 ∧
          Table.get d'.nleft j 0 = Table.get d.nleft j 0 ∧ Table.get d'.nright j 0 = Table.get d.nright j 0 ∧
          (Table.get d'.nlive j false = true ↔ Table.get d.nlive j false = true ∧ j ≠ a ∧ j ≠ b)) ∧
        d'.ndepth = d.ndepth ∧ d'.root = d.root

/-- R137 with R132: from a frequency table that counts END_OF_STREAM, TB_BUILD with k leaves live (2 with the
placeholder) makes exactly k − 1 merges: ROOT = 256 + k is the only live node, its weight is the sum of all counts, and
every created node's children have lower indices (R136). -/
def Obligations.BuildEndsInOneTree : Prop :=
  ∀ s : State, 0 < Table.get s.freq EOS 0 →
    ∃ t k, tbBuild s = .ok t ∧ k = max 2 ((List.range NSYM).countP (fun i => decide (0 < Table.get s.freq i 0))) ∧
      t.nodes.root = 256 + k ∧ t.nodes.nnext = 257 + k ∧ t.nodes.root ≤ 513 ∧
      (∀ j, j < NNODE → (Table.get t.nodes.nlive j false = true ↔ j = t.nodes.root)) ∧
      Table.get t.nodes.nfreq t.nodes.root 0 = ((List.range NSYM).map (fun i => Table.get s.freq i 0)).sum ∧
      (∀ n, 258 ≤ n → n ≤ t.nodes.root → Table.get t.nodes.nleft n 0 < n ∧ Table.get t.nodes.nright n 0 < n) ∧
      t = { s with nodes := t.nodes }

/-- R137, R140, R141: the code lengths COMPRESS computes with its flat node store are the leaf depths of the Huffman
tree of the input's counts built as a tree. -/
def Obligations.CodeLengthsAreTreeDepths : Prop :=
  ∀ s : State, s.busy = false → s.ilen.toNat ≤ s.cfg.imemSize →
    ∃ t, exec .compress s = .next t ∧
      ∀ i, i < NSYM → Table.get t.len i 0 = huffmanLength (countOf (inputBytes s)) i

/-- R150: the longest code has at most 45 bits, for every input the block accepts; the bound is tight: a frequency
table with FREQ[256] = 1 and total 4106118242 reaches it. -/
def Obligations.LongestCodeIsFortyFiveBits : Prop :=
  (∀ s : State, s.busy = false → s.ilen.toNat ≤ s.cfg.imemSize →
    ∃ t, exec .compress s = .next t ∧ ∀ i, i < NSYM → Table.get t.len i 0 ≤ 45) ∧
  ∃ counts : Nat → Nat, counts EOS = 1 ∧ ((List.range NSYM).map counts).sum = 4106118242 ∧
    huffmanLength counts 0 = 45

/-- R143: the Kraft sum of the encoder's lengths is 2^45 for a non-empty input and 2^44 for the empty one. -/
def Obligations.EncoderKraftSum : Prop :=
  ∀ s : State, s.busy = false → s.ilen.toNat ≤ s.cfg.imemSize →
    ∃ t, exec .compress s = .next t ∧ kraftSum t.len = if s.ilen.toNat = 0 then 2 ^ 44 else 2 ^ 45

/-! ### Canonical codes -/

/-- R146: the same assignment in the step-by-step form. The first symbol in canonical order has code 0, each next one
the previous code plus one shifted left by the growth in length; equivalently the third, closed form. A symbol with
LEN = 0 keeps its CODE entry (R145 c), and CACC ends at the Kraft sum. -/
def Obligations.CanonicalCodesStepForm : Prop :=
  ∀ s : State, CanonPrecondition s.len →
    (∀ (i : Nat) (p : Nat × Nat), (canonicalOrder s.len)[i]? = some p →
      (i = 0 → (Table.get (canon s).code p.1 0).toNat = 0) ∧
      (∀ q, (canonicalOrder s.len)[i + 1]? = some q →
        (Table.get (canon s).code q.1 0).toNat = ((Table.get (canon s).code p.1 0).toNat + 1) <<< (q.2 - p.2))) ∧
    (∀ i, i < NSYM → 0 < Table.get s.len i 0 →
      (Table.get (canon s).code i 0).toNat = canonicalValue (lengths s.len) i) ∧
    (∀ i, i < NSYM → Table.get s.len i 0 = 0 → Table.get (canon s).code i 0 = Table.get s.code i 0) ∧
    (canon s).cacc = kraftSum s.len

/-- R147: the canonical codes form a prefix code, CODE[s] < 2^LEN[s], and the codes are strictly increasing in canonical
order when compared as left-aligned bit strings. -/
def Obligations.CanonicalCodesArePrefixFree : Prop :=
  ∀ s : State, CanonPrecondition s.len →
    PrefixFree (lengths s.len) (codeOf s.len (canon s).code) ∧
    (∀ i, i < NSYM → 0 < Table.get s.len i 0 →
      (Table.get (canon s).code i 0).toNat < 2 ^ Table.get s.len i 0) ∧
    ∀ i j, i < NSYM → j < NSYM → 0 < Table.get s.len i 0 → 0 < Table.get s.len j 0 →
      canonicallyBefore (lengths s.len) i j = true →
      (Table.get (canon s).code i 0).toNat <<< (45 - Table.get s.len i 0) <
        (Table.get (canon s).code j 0).toNat <<< (45 - Table.get s.len j 0)

/-! ### The container codec -/

/-- R161: CC_EMIT writes the tag, ILEN big-endian and the 257 code lengths to OMEM[0..264], leaves OPTR = 265 and
changes nothing else. -/
def Obligations.HeaderEmission : Prop :=
  ∀ s : State, HDR_LEN ≤ s.cfg.omemSize →
    ∃ m, ccEmit s = .ok { s with omem := m, optr := 265 } ∧
      m.read 0 = 0x48 ∧ m.read 1 = 0x55 ∧ m.read 2 = 0x46 ∧ m.read 3 = 0x01 ∧
      m.read 4 = s.ilen.extractLsb' 24 8 ∧ m.read 5 = s.ilen.extractLsb' 16 8 ∧
      m.read 6 = s.ilen.extractLsb' 8 8 ∧ m.read 7 = s.ilen.extractLsb' 0 8 ∧
      (∀ i, i < NSYM → m.read (8 + i) = BitVec.ofNat 8 (Table.get s.len i 0)) ∧
      ∀ a, HDR_LEN ≤ a → m.read a = s.omem.read a

/-- R165, R168, R170: what a successful parse sets: NORIG the big-endian field, LEN the table bytes, KRAFT their Kraft
sum, PAYLEN = ILEN − 265, IPTR = 265; it succeeds exactly on accepted headers whose ORIG_LEN fits (R163 to R169). -/
def Obligations.HeaderParseResult : Prop :=
  ∀ s : State, s.ilen.toNat ≤ s.cfg.imemSize →
    (HeaderAccepted s.ilen.toNat s.imem.read → origLen s.imem.read ≤ s.cfg.omemSize →
      ∃ l, ccParse s = .ok { s with
          iptr := 265, norig := origLen s.imem.read, len := l, kraft := kraftSum l, paylen := s.ilen.toNat - 265 } ∧
        (∀ i, i < NSYM → Table.get l i 0 = (s.imem.read (8 + i)).toNat) ∧ CanonPrecondition l ∧ Table.get l EOS 0 ≠ 0) ∧
    ∀ t, ccParse s = .ok t → HeaderAccepted s.ilen.toNat s.imem.read ∧ origLen s.imem.read ≤ s.cfg.omemSize

/-- R173, R176: after CC_TREE on canonical codes, a bit string none of whose proper prefixes is a code leads to LEAF(s)
exactly when it is the code of s, to a node exactly when it is a proper prefix of a code, to NONE exactly when it is
neither. -/
def Obligations.DecodeTreeAnswersTheCode : Prop :=
  ∀ s : State, CanonPrecondition s.len →
    ∃ t, ccTree (canon s) = .ok t ∧
      ∀ p : List Bool, p ≠ [] →
        (∀ q, q <+: p → q ≠ [] → q ≠ p → readingOf (lengths s.len) q = .within) →
        (∀ i, readingOf (lengths s.len) p = .symbol i ↔ treeEntry t.dec 0 p = some (.leaf i)) ∧
        (readingOf (lengths s.len) p = .outside ↔ treeEntry t.dec 0 p = some .none) ∧
        (readingOf (lengths s.len) p = .within ↔ ∃ m, treeEntry t.dec 0 p = some (.node m))

/-- R175: the decode tree has at most 301 internal nodes, so the store never overflows. -/
def Obligations.DecodeTreeFitsItsStore : Prop :=
  ∀ s : State, CanonPrecondition s.len →
    ∃ t, ccTree (canon s) = .ok t ∧ t.dec.dnext ≤ DNODE ∧ t.dec.dch.length = t.dec.dnext

/-! ### The bit stream -/

/-- R193: the writer's invariant. Bits put from BW_INIT on with OPTR = 265 have filled the whole bytes OMEM[265 + j]
most significant bit first; WCNT counts the bits left, WACC holds them left-aligned; nothing else changes. -/
def Obligations.WriterPacksBits : Prop :=
  ∀ (s : State) (bits : List Bool), s.optr = 265 → 265 + bits.length / 8 ≤ s.cfg.omemSize →
    ∃ m, bwPutBits bits (bwInit s) =
        .ok { s with
          omem := m, optr := 265 + bits.length / 8, bw := ⟨packedByte bits (bits.length / 8), bits.length % 8⟩ } ∧
      (∀ j, j < bits.length / 8 → m.read (265 + j) = packedByte bits j) ∧
      ∀ a, a < 265 ∨ 265 + bits.length / 8 ≤ a → m.read a = s.omem.read a

/-- R194: BW_FLUSH writes the partial byte, if there is one, zero-padded: after it the payload is the packing of the
bits put, a number of bits that is a multiple of 8 adds no byte, and every byte outside the payload is unchanged. -/
def Obligations.FlushCompletesThePacking : Prop :=
  ∀ (s : State) (bits : List Bool), s.optr = 265 → 265 + (bits.length + 7) / 8 ≤ s.cfg.omemSize →
    ∃ t m, bwPutBits bits (bwInit s) = .ok t ∧
      bwFlush t = .ok { s with omem := m, optr := 265 + (bits.length + 7) / 8, bw := ⟨0, 0⟩ } ∧
      (∀ j, j < (packBits bits).length → m.read (265 + j) = (packBits bits).getD j 0) ∧
      ∀ a, a < 265 ∨ 265 + (bits.length + 7) / 8 ≤ a → m.read a = s.omem.read a

/-- R199: reader and writer are inverse. With the packing of the bits placed at IMEM[265..], the k-th call of BR_GETBIT
returns bit k, then the zero pad bits, then EXHAUSTED. -/
def Obligations.ReaderReturnsPackedBits : Prop :=
  ∀ (s : State) (bits : List Bool), s.paylen = (bits.length + 7) / 8 → 265 + s.paylen ≤ s.cfg.imemSize →
    (∀ j, j < s.paylen → s.imem.read (265 + j) = (packBits bits).getD j 0) →
    (∀ k, k < 8 * s.paylen →
      brGetBit { s with rpos := k } = .ok (some (bits.getD k false), { s with rpos := k + 1 })) ∧
    brGetBit { s with rpos := 8 * s.paylen } = .ok (none, { s with rpos := 8 * s.paylen })

/-! ### The copy of the host scripts -/

/-- COPY n (R106, R295 e) while BUSY = 0 and inside both buffers: IMEM[0..n-1] become OMEM[0..n-1], every other byte of
IMEM stays, and nothing else of the block changes. It is refused when a byte lies outside a buffer (R68), and while
BUSY = 1 (R292) unless n = 0, when it makes no access. That the copy is one event, refused as a whole, OMEM's bound
before IMEM's and an address before BUSY, and that the last byte read is what the host holds, is the model's form (log
entries 1, 12 and 14). -/
def Obligations.CopyMovesOmemToImem : Prop :=
  ∀ (s : State) (n : Nat) (rest : List Event), s.agenda = .copy n :: rest →
    (n ≤ s.cfg.omemSize → n ≤ s.cfg.imemSize → s.busy = false →
      ∃ m, step s = .next { s with
          agenda := rest, imem := m, rdata := if n = 0 then s.rdata else (s.omem.read (n - 1)).setWidth 32 } ∧
        ∀ a, m.read a = if a < n then s.omem.read a else s.imem.read a) ∧
    (s.cfg.omemSize < n → step s = .refused (.hostAddress s.cfg.omemSize)) ∧
    (n ≤ s.cfg.omemSize → s.cfg.imemSize < n → step s = .refused (.hostAddress s.cfg.imemSize)) ∧
    (n ≤ s.cfg.omemSize → n ≤ s.cfg.imemSize → 0 < n → s.busy = true → step s = .refused (.imemWriteWhileBusy 0)) ∧
    (n = 0 → s.busy = true → step s = .next { s with agenda := rest })
end

