-- ==== Sys2Proof/Laws/Decode.lean ====
section
/-! SUPPORT. The opcode table is unambiguous, and what the decoder does with a table word. -/

namespace Sys2Proof

/-- No byte matches two rows of the opcode table. -/
theorem opcodeTable_unambiguous :
    opcodeTable.Pairwise (fun r q => ∀ c : Byte, ¬ (r.matches c = true ∧ q.matches c = true)) := by decide

/-- Every instruction has a row. -/
theorem opcodeTable_total (i : Instr) : ∃ row ∈ opcodeTable, row.instr = i := by
  cases i <;> simp [opcodeTable]

/-- The byte of a table word of 8 bits. -/
theorem commandByteOfTableWord_eight (c : Byte) : commandByteOfTableWord 8 c.toNat = c := by
  apply BitVec.eq_of_toNat_eq
  simpa [commandByteOfTableWord] using c.isLt

end Sys2Proof
end

