-- ==== Sys2Proof/Laws/Memory.lean ====
section
/-! SUPPORT. The laws of the buffers: a read after a write, and that every write keeps the canonical form. -/

namespace Sys2Proof.Machine

@[simp] theorem lookup_insert_self (cs : List Host.Cell) (a : Nat) (v : Byte) :
    lookupCell (insertCell cs a v) a = some v := by
  induction cs with
  | nil => simp [insertCell, lookupCell]
  | cons c cs ih =>
    unfold insertCell
    split
    · simp [lookupCell]
    · split
      · simp [lookupCell]
      · next h1 h2 => simp [lookupCell, ih, Ne.symm h2]

theorem lookup_insert_ne {cs : List Host.Cell} {a b : Nat} (v : Byte) (h : a ≠ b) :
    lookupCell (insertCell cs a v) b = lookupCell cs b := by
  induction cs with
  | nil => simp [insertCell, lookupCell, h]
  | cons c cs ih =>
    unfold insertCell
    split
    · simp [lookupCell, h]
    · split
      · next _ h2 => subst h2; simp [lookupCell, h]
      · simp [lookupCell, ih]

/-- The byte last written is the byte read (R62). -/
@[simp] theorem Buffer.read_write_self (b : Buffer) (a : Nat) (v : Byte) : (b.write a v).read a = v := by
  simp [Buffer.read, Buffer.write]

/-- A write leaves every other address alone. -/
theorem Buffer.read_write_ne {b : Buffer} {a a' : Nat} (v : Byte) (h : a ≠ a') :
    (b.write a v).read a' = b.read a' := by
  simp [Buffer.read, Buffer.write, lookup_insert_ne v h, Buffer.unlisted]

theorem Buffer.read_write (b : Buffer) (a a' : Nat) (v : Byte) :
    (b.write a v).read a' = if a = a' then v else b.read a' := by
  by_cases h : a = a'
  · subst h; simp
  · simp [h, Buffer.read_write_ne]

@[simp] theorem Buffer.era_write (b : Buffer) (a : Nat) (v : Byte) : (b.write a v).era = b.era := rfl

theorem mem_insertCell {cs : List Host.Cell} {a : Nat} {v : Byte} {c : Host.Cell}
    (h : c ∈ insertCell cs a v) : c = (a, v) ∨ c ∈ cs := by
  induction cs with
  | nil => simpa [insertCell] using h
  | cons d cs ih =>
    unfold insertCell at h
    split at h
    · simpa using h
    · split at h
      · rcases List.mem_cons.1 h with h | h
        · exact .inl h
        · exact .inr (List.mem_cons_of_mem _ h)
      · rcases List.mem_cons.1 h with h | h
        · exact .inr (h ▸ List.mem_cons_self)
        · exact (ih h).imp_right (List.mem_cons_of_mem _)

/-- Inserting keeps the addresses strictly rising. -/
theorem pairwise_insertCell {cs : List Host.Cell} (a : Nat) (v : Byte)
    (h : cs.Pairwise (fun c d => c.1 < d.1)) : (insertCell cs a v).Pairwise (fun c d => c.1 < d.1) := by
  induction cs with
  | nil => simp [insertCell]
  | cons c cs ih =>
    obtain ⟨hc, hcs⟩ := List.pairwise_cons.1 h
    unfold insertCell
    split
    · next h1 =>
      refine List.pairwise_cons.2 ⟨fun d hd => ?_, h⟩
      rcases List.mem_cons.1 hd with rfl | hd
      · exact h1
      · exact lt_trans h1 (hc d hd)
    · split
      · next h2 => exact List.pairwise_cons.2 ⟨fun d hd => h2 ▸ hc d hd, hcs⟩
      · next h1 h2 =>
        refine List.pairwise_cons.2 ⟨fun d hd => ?_, ih hcs⟩
        rcases mem_insertCell hd with rfl | hd
        · show c.1 < a; omega
        · exact hc d hd

theorem Buffer.wf_iff {b : Buffer} {n : Nat} :
    b.wf n = true ↔ b.cells.Pairwise (fun c d => c.1 < d.1) ∧ ∀ c ∈ b.cells, c.1 < n := by
  simp [Buffer.wf]

/-- A buffer with nothing listed is in canonical form. -/
@[simp] theorem Buffer.wf_nil (k n : Nat) : (⟨k, []⟩ : Buffer).wf n = true := by simp [Buffer.wf_iff]

/-- A write inside the buffer keeps the canonical form. -/
theorem Buffer.wf_write {b : Buffer} {n a : Nat} (v : Byte) (h : b.wf n = true) (ha : a < n) :
    (b.write a v).wf n = true := by
  obtain ⟨h1, h2⟩ := Buffer.wf_iff.1 h
  refine Buffer.wf_iff.2 ⟨pairwise_insertCell a v h1, fun c hc => ?_⟩
  rcases mem_insertCell hc with rfl | hc
  · exact ha
  · exact h2 c hc

theorem lookupCell_eq_none {cs : List Host.Cell} {a : Nat} (h : ∀ c ∈ cs, a < c.1) : lookupCell cs a = none := by
  induction cs with
  | nil => rfl
  | cons c cs ih =>
    have hc := h c List.mem_cons_self
    have hne : c.1 ≠ a := by omega
    simp only [lookupCell, if_neg hne]
    exact ih fun d hd => h d (List.mem_cons_of_mem _ hd)

/-- In canonical form, equal contents are equal data. -/
theorem cells_ext {cs ds : List Host.Cell} (hc : cs.Pairwise (fun c d => c.1 < d.1))
    (hd : ds.Pairwise (fun c d => c.1 < d.1)) (h : ∀ a, lookupCell cs a = lookupCell ds a) : cs = ds := by
  induction cs generalizing ds with
  | nil =>
    cases ds with
    | nil => rfl
    | cons d ds => simpa [lookupCell] using h d.1
  | cons c cs ih =>
    obtain ⟨hc1, hc2⟩ := List.pairwise_cons.1 hc
    cases ds with
    | nil => simpa [lookupCell] using h c.1
    | cons d ds =>
      obtain ⟨hd1, hd2⟩ := List.pairwise_cons.1 hd
      have key : c.1 = d.1 := by
        rcases lt_trichotomy c.1 d.1 with hlt | heq | hgt
        · have h1 := h c.1
          have h2 : lookupCell (d :: ds) c.1 = none := lookupCell_eq_none fun x hx => by
            rcases List.mem_cons.1 hx with rfl | hx
            · exact hlt
            · exact lt_trans hlt (hd1 x hx)
          rw [h2] at h1
          simp [lookupCell] at h1
        · exact heq
        · have h1 := h d.1
          have h2 : lookupCell (c :: cs) d.1 = none := lookupCell_eq_none fun x hx => by
            rcases List.mem_cons.1 hx with rfl | hx
            · exact hgt
            · exact lt_trans hgt (hc1 x hx)
          rw [h2] at h1
          simp [lookupCell] at h1
      have hv : c.2 = d.2 := by
        have h1 := h c.1
        simpa [lookupCell, key] using h1
      have hcd : c = d := Prod.ext key hv
      subst hcd
      congr 1
      refine ih hc2 hd2 fun a => ?_
      by_cases ha : c.1 = a
      · subst ha
        rw [lookupCell_eq_none hc1, lookupCell_eq_none hd1]
      · have h1 := h a
        simpa [lookupCell, ha] using h1

/-! ### The engine's accesses -/

theorem memReadImem_of_lt {s : State} {a : Nat} (h : a < s.cfg.imemSize) :
    memReadImem s a = .ok (s.imem.read a) := by simp [memReadImem, h]

/-- A read that succeeds is in range and gives the byte stored. -/
theorem memReadImem_ok {s : State} {a : Nat} {b : Byte} (h : memReadImem s a = .ok b) :
    a < s.cfg.imemSize ∧ b = s.imem.read a := by
  unfold memReadImem at h
  split at h
  · next hlt => exact ⟨hlt, by injection h with h; exact h.symm⟩
  · cases h

theorem emitByte_of_lt {s : State} (v : Byte) (h : s.optr < s.cfg.omemSize) :
    emitByte s v = .ok { s with omem := s.omem.write s.optr v, optr := s.optr + 1 } := by
  simp [emitByte, memWriteOmem, h]

/-- A byte emitted is in range; OMEM and OPTR change, nothing else. -/
theorem emitByte_ok {s t : State} {v : Byte} (h : emitByte s v = .ok t) :
    s.optr < s.cfg.omemSize ∧ t = { s with omem := s.omem.write s.optr v, optr := s.optr + 1 } := by
  by_cases hlt : s.optr < s.cfg.omemSize
  · rw [emitByte_of_lt v hlt] at h
    exact ⟨hlt, by injection h with h; exact h.symm⟩
  · simp [emitByte, memWriteOmem, hlt] at h

/-- OMEM after the bytes `vs` have been written from address `a` on. -/
def Buffer.writeAll (b : Buffer) : Nat → List Byte → Buffer
  | _, [] => b
  | a, v :: vs => Buffer.writeAll (b.write a v) (a + 1) vs

@[simp] theorem Buffer.era_writeAll (b : Buffer) (a : Nat) (vs : List Byte) : (b.writeAll a vs).era = b.era := by
  induction vs generalizing b a with
  | nil => rfl
  | cons v vs ih => simp [Buffer.writeAll, ih]

theorem Buffer.read_writeAll_lt {b : Buffer} {a x : Nat} (vs : List Byte) (h : x < a) :
    (b.writeAll a vs).read x = b.read x := by
  induction vs generalizing b a with
  | nil => rfl
  | cons v vs ih =>
    rw [Buffer.writeAll, ih (by omega), Buffer.read_write_ne]
    omega

/-- The bytes written, and nothing outside them. -/
theorem Buffer.read_writeAll (b : Buffer) (a : Nat) (vs : List Byte) (x : Nat) :
    (b.writeAll a vs).read x =
      if h : a ≤ x ∧ x < a + vs.length then vs[x - a]'(by omega) else b.read x := by
  induction vs generalizing b a with
  | nil =>
    have : ¬ (a ≤ x ∧ x < a + ([] : List Byte).length) := by simp
    rw [dif_neg this]; rfl
  | cons v vs ih =>
    rw [Buffer.writeAll, ih]
    by_cases h1 : a + 1 ≤ x ∧ x < a + 1 + vs.length
    · have h2 : a ≤ x ∧ x < a + (v :: vs).length := by simp; omega
      rw [dif_pos h1, dif_pos h2]
      have h3 : x - a = (x - (a + 1)) + 1 := by omega
      simp [h3]
    · rw [dif_neg h1]
      by_cases hx : a = x
      · subst hx
        simp
      · rw [Buffer.read_write_ne v hx]
        have h2 : ¬ (a ≤ x ∧ x < a + (v :: vs).length) := by simp; omega
        rw [dif_neg h2]

/-- Emitting bytes that fit writes them from OPTR on and advances OPTR by their number. -/
theorem emitBytes_of_le {vs : List Byte} {s : State} (h : s.optr + vs.length ≤ s.cfg.omemSize) :
    emitBytes vs s = .ok { s with omem := s.omem.writeAll s.optr vs, optr := s.optr + vs.length } := by
  induction vs generalizing s with
  | nil => simp [emitBytes, Buffer.writeAll]
  | cons v vs ih =>
    simp only [List.length_cons] at h
    rw [emitBytes, emitByte_of_lt v (by omega)]
    dsimp only
    rw [ih (by dsimp only; omega)]
    simp [Buffer.writeAll, Nat.add_assoc, Nat.add_comm]

/-- Emitting bytes succeeds only when they fit. -/
theorem emitBytes_ok {vs : List Byte} {s t : State} (h : emitBytes vs s = .ok t) (h0 : s.optr ≤ s.cfg.omemSize) :
    s.optr + vs.length ≤ s.cfg.omemSize ∧
      t = { s with omem := s.omem.writeAll s.optr vs, optr := s.optr + vs.length } := by
  induction vs generalizing s with
  | nil =>
    simp only [emitBytes, Except.ok.injEq] at h
    subst h
    exact ⟨by simpa using h0, by simp [Buffer.writeAll]⟩
  | cons v vs ih =>
    unfold emitBytes at h
    split at h
    · next u hu =>
      obtain ⟨hlt, rfl⟩ := emitByte_ok hu
      obtain ⟨h1, rfl⟩ := ih h (by dsimp only; omega)
      dsimp only at h1
      refine ⟨by simp only [List.length_cons]; omega, ?_⟩
      simp [Buffer.writeAll, Nat.add_assoc, Nat.add_comm]
    · cases h

theorem Buffer.wf_writeAll {b : Buffer} {n a : Nat} {vs : List Byte} (h : b.wf n = true) (ha : a + vs.length ≤ n) :
    (b.writeAll a vs).wf n = true := by
  induction vs generalizing b a with
  | nil => exact h
  | cons v vs ih =>
    simp only [List.length_cons] at ha
    exact ih (Buffer.wf_write v h (by omega)) (by omega)

/-- The initial buffers are in canonical form. -/
theorem reset_wf (cfg : Config) : Memory.wf (State.resetOf cfg) = true := by
  simp [Memory.wf, State.resetOf]

end Sys2Proof.Machine
end

