-- ==== Sys2Proof/Laws/State.lean ====
section
/-! SUPPORT. One lemma for each field and each shared update of State, all true by computation, and the flags of the
STATUS byte: no proof unfolds one of these updates again. -/

namespace Sys2Proof.Machine

/-! ### The STATUS byte -/

@[simp] theorem packStatus_bit0 (b d : Bool) (e : ErrCode) : (packStatus b d e).getLsbD 0 = b := by
  cases b <;> cases d <;> cases e <;> rfl

@[simp] theorem packStatus_bit1 (b d : Bool) (e : ErrCode) : (packStatus b d e).getLsbD 1 = d := by
  cases b <;> cases d <;> cases e <;> rfl

@[simp] theorem packStatus_getElem_zero (b d : Bool) (e : ErrCode) : (packStatus b d e)[0] = b := packStatus_bit0 b d e

@[simp] theorem packStatus_getElem_one (b d : Bool) (e : ErrCode) : (packStatus b d e)[1] = d := packStatus_bit1 b d e

@[simp] theorem packStatus_err (b d : Bool) (e : ErrCode) : (packStatus b d e).extractLsb' 2 3 = e.toBits := by
  cases b <;> cases d <;> cases e <;> rfl

/-- The flags can be read back from the STATUS byte. -/
theorem packStatus_inj {b b' d d' : Bool} {e e' : ErrCode} :
    packStatus b d e = packStatus b' d' e' ↔ b = b' ∧ d = d' ∧ e = e' := by
  constructor
  · intro h
    refine ⟨?_, ?_, ?_⟩
    · rw [← packStatus_bit0 b d e, h, packStatus_bit0]
    · rw [← packStatus_bit1 b d e, h, packStatus_bit1]
    · have : e.toBits = e'.toBits := by rw [← packStatus_err b d e, h, packStatus_err]
      revert this
      cases e <;> cases e' <;> decide
  · rintro ⟨rfl, rfl, rfl⟩; rfl

/-! ### The shared updates, field by field -/

@[simp] theorem State.setStatus_cfg (s : State) (b d : Bool) (e : ErrCode) : (s.setStatus b d e).cfg = s.cfg := rfl
@[simp] theorem State.setStatus_status (s : State) (b d : Bool) (e : ErrCode) : (s.setStatus b d e).status = packStatus b d e := rfl
@[simp] theorem State.setStatus_ilen (s : State) (b d : Bool) (e : ErrCode) : (s.setStatus b d e).ilen = s.ilen := rfl
@[simp] theorem State.setStatus_olen (s : State) (b d : Bool) (e : ErrCode) : (s.setStatus b d e).olen = s.olen := rfl
@[simp] theorem State.setStatus_imem (s : State) (b d : Bool) (e : ErrCode) : (s.setStatus b d e).imem = s.imem := rfl
@[simp] theorem State.setStatus_omem (s : State) (b d : Bool) (e : ErrCode) : (s.setStatus b d e).omem = s.omem := rfl
@[simp] theorem State.setStatus_freq (s : State) (b d : Bool) (e : ErrCode) : (s.setStatus b d e).freq = s.freq := rfl
@[simp] theorem State.setStatus_len (s : State) (b d : Bool) (e : ErrCode) : (s.setStatus b d e).len = s.len := rfl
@[simp] theorem State.setStatus_code (s : State) (b d : Bool) (e : ErrCode) : (s.setStatus b d e).code = s.code := rfl
@[simp] theorem State.setStatus_nodes (s : State) (b d : Bool) (e : ErrCode) : (s.setStatus b d e).nodes = s.nodes := rfl
@[simp] theorem State.setStatus_dec (s : State) (b d : Bool) (e : ErrCode) : (s.setStatus b d e).dec = s.dec := rfl
@[simp] theorem State.setStatus_phase (s : State) (b d : Bool) (e : ErrCode) : (s.setStatus b d e).phase = s.phase := rfl
@[simp] theorem State.setStatus_iptr (s : State) (b d : Bool) (e : ErrCode) : (s.setStatus b d e).iptr = s.iptr := rfl
@[simp] theorem State.setStatus_optr (s : State) (b d : Bool) (e : ErrCode) : (s.setStatus b d e).optr = s.optr := rfl
@[simp] theorem State.setStatus_rpos (s : State) (b d : Bool) (e : ErrCode) : (s.setStatus b d e).rpos = s.rpos := rfl
@[simp] theorem State.setStatus_tbits (s : State) (b d : Bool) (e : ErrCode) : (s.setStatus b d e).tbits = s.tbits := rfl
@[simp] theorem State.setStatus_paylen (s : State) (b d : Bool) (e : ErrCode) : (s.setStatus b d e).paylen = s.paylen := rfl
@[simp] theorem State.setStatus_osize (s : State) (b d : Bool) (e : ErrCode) : (s.setStatus b d e).osize = s.osize := rfl
@[simp] theorem State.setStatus_cacc (s : State) (b d : Bool) (e : ErrCode) : (s.setStatus b d e).cacc = s.cacc := rfl
@[simp] theorem State.setStatus_norig (s : State) (b d : Bool) (e : ErrCode) : (s.setStatus b d e).norig = s.norig := rfl
@[simp] theorem State.setStatus_ocnt (s : State) (b d : Bool) (e : ErrCode) : (s.setStatus b d e).ocnt = s.ocnt := rfl
@[simp] theorem State.setStatus_kraft (s : State) (b d : Bool) (e : ErrCode) : (s.setStatus b d e).kraft = s.kraft := rfl
@[simp] theorem State.setStatus_bw (s : State) (b d : Bool) (e : ErrCode) : (s.setStatus b d e).bw = s.bw := rfl
@[simp] theorem State.setStatus_agenda (s : State) (b d : Bool) (e : ErrCode) : (s.setStatus b d e).agenda = s.agenda := rfl
@[simp] theorem State.setStatus_rdata (s : State) (b d : Bool) (e : ErrCode) : (s.setStatus b d e).rdata = s.rdata := rfl
@[simp] theorem State.setStatus_fresh (s : State) (b d : Bool) (e : ErrCode) : (s.setStatus b d e).fresh = s.fresh := rfl

/-- The flags of a state whose STATUS byte is known. -/
theorem State.busy_eq {s : State} {b d : Bool} {e : ErrCode} (h : s.status = packStatus b d e) : s.busy = b := by
  rw [State.busy, h, packStatus_bit0]
theorem State.done_eq {s : State} {b d : Bool} {e : ErrCode} (h : s.status = packStatus b d e) : s.done = d := by
  rw [State.done, h, packStatus_bit1]
theorem State.err_eq {s : State} {b d : Bool} {e : ErrCode} (h : s.status = packStatus b d e) : s.err = e.toBits := by
  rw [State.err, h, packStatus_err]

@[simp] theorem State.setStatus_busy (s : State) (b d : Bool) (e : ErrCode) : (s.setStatus b d e).busy = b :=
  State.busy_eq (State.setStatus_status s b d e)
@[simp] theorem State.setStatus_done (s : State) (b d : Bool) (e : ErrCode) : (s.setStatus b d e).done = d :=
  State.done_eq (State.setStatus_status s b d e)

@[simp] theorem State.startOperation_cfg (s : State) (p : Phase) : (startOperation p s).cfg = s.cfg := rfl
@[simp] theorem State.startOperation_status (s : State) (p : Phase) : (startOperation p s).status = packStatus true false .ok := rfl
@[simp] theorem State.startOperation_ilen (s : State) (p : Phase) : (startOperation p s).ilen = s.ilen := rfl
@[simp] theorem State.startOperation_olen (s : State) (p : Phase) : (startOperation p s).olen = 0 := rfl
@[simp] theorem State.startOperation_imem (s : State) (p : Phase) : (startOperation p s).imem = s.imem := rfl
@[simp] theorem State.startOperation_omem (s : State) (p : Phase) : (startOperation p s).omem = s.omem := rfl
@[simp] theorem State.startOperation_freq (s : State) (p : Phase) : (startOperation p s).freq = s.freq := rfl
@[simp] theorem State.startOperation_len (s : State) (p : Phase) : (startOperation p s).len = s.len := rfl
@[simp] theorem State.startOperation_code (s : State) (p : Phase) : (startOperation p s).code = s.code := rfl
@[simp] theorem State.startOperation_nodes (s : State) (p : Phase) : (startOperation p s).nodes = s.nodes := rfl
@[simp] theorem State.startOperation_dec (s : State) (p : Phase) : (startOperation p s).dec = s.dec := rfl
@[simp] theorem State.startOperation_phase (s : State) (p : Phase) : (startOperation p s).phase = p := rfl
@[simp] theorem State.startOperation_iptr (s : State) (p : Phase) : (startOperation p s).iptr = s.iptr := rfl
@[simp] theorem State.startOperation_optr (s : State) (p : Phase) : (startOperation p s).optr = s.optr := rfl
@[simp] theorem State.startOperation_rpos (s : State) (p : Phase) : (startOperation p s).rpos = s.rpos := rfl
@[simp] theorem State.startOperation_tbits (s : State) (p : Phase) : (startOperation p s).tbits = s.tbits := rfl
@[simp] theorem State.startOperation_paylen (s : State) (p : Phase) : (startOperation p s).paylen = s.paylen := rfl
@[simp] theorem State.startOperation_osize (s : State) (p : Phase) : (startOperation p s).osize = s.osize := rfl
@[simp] theorem State.startOperation_cacc (s : State) (p : Phase) : (startOperation p s).cacc = s.cacc := rfl
@[simp] theorem State.startOperation_norig (s : State) (p : Phase) : (startOperation p s).norig = s.norig := rfl
@[simp] theorem State.startOperation_ocnt (s : State) (p : Phase) : (startOperation p s).ocnt = s.ocnt := rfl
@[simp] theorem State.startOperation_kraft (s : State) (p : Phase) : (startOperation p s).kraft = s.kraft := rfl
@[simp] theorem State.startOperation_bw (s : State) (p : Phase) : (startOperation p s).bw = s.bw := rfl
@[simp] theorem State.startOperation_agenda (s : State) (p : Phase) : (startOperation p s).agenda = s.agenda := rfl
@[simp] theorem State.startOperation_rdata (s : State) (p : Phase) : (startOperation p s).rdata = s.rdata := rfl
@[simp] theorem State.startOperation_fresh (s : State) (p : Phase) : (startOperation p s).fresh = s.fresh := rfl

@[simp] theorem State.raiseError_cfg (s : State) (e : ErrCode) : (raiseError e s).cfg = s.cfg := rfl
@[simp] theorem State.raiseError_status (s : State) (e : ErrCode) : (raiseError e s).status = packStatus false true e := rfl
@[simp] theorem State.raiseError_ilen (s : State) (e : ErrCode) : (raiseError e s).ilen = s.ilen := rfl
@[simp] theorem State.raiseError_olen (s : State) (e : ErrCode) : (raiseError e s).olen = 0 := rfl
@[simp] theorem State.raiseError_imem (s : State) (e : ErrCode) : (raiseError e s).imem = s.imem := rfl
@[simp] theorem State.raiseError_omem (s : State) (e : ErrCode) : (raiseError e s).omem = s.omem := rfl
@[simp] theorem State.raiseError_freq (s : State) (e : ErrCode) : (raiseError e s).freq = s.freq := rfl
@[simp] theorem State.raiseError_len (s : State) (e : ErrCode) : (raiseError e s).len = s.len := rfl
@[simp] theorem State.raiseError_code (s : State) (e : ErrCode) : (raiseError e s).code = s.code := rfl
@[simp] theorem State.raiseError_nodes (s : State) (e : ErrCode) : (raiseError e s).nodes = s.nodes := rfl
@[simp] theorem State.raiseError_dec (s : State) (e : ErrCode) : (raiseError e s).dec = s.dec := rfl
@[simp] theorem State.raiseError_phase (s : State) (e : ErrCode) : (raiseError e s).phase = .idle := rfl
@[simp] theorem State.raiseError_iptr (s : State) (e : ErrCode) : (raiseError e s).iptr = s.iptr := rfl
@[simp] theorem State.raiseError_optr (s : State) (e : ErrCode) : (raiseError e s).optr = s.optr := rfl
@[simp] theorem State.raiseError_rpos (s : State) (e : ErrCode) : (raiseError e s).rpos = s.rpos := rfl
@[simp] theorem State.raiseError_tbits (s : State) (e : ErrCode) : (raiseError e s).tbits = s.tbits := rfl
@[simp] theorem State.raiseError_paylen (s : State) (e : ErrCode) : (raiseError e s).paylen = s.paylen := rfl
@[simp] theorem State.raiseError_osize (s : State) (e : ErrCode) : (raiseError e s).osize = s.osize := rfl
@[simp] theorem State.raiseError_cacc (s : State) (e : ErrCode) : (raiseError e s).cacc = s.cacc := rfl
@[simp] theorem State.raiseError_norig (s : State) (e : ErrCode) : (raiseError e s).norig = s.norig := rfl
@[simp] theorem State.raiseError_ocnt (s : State) (e : ErrCode) : (raiseError e s).ocnt = s.ocnt := rfl
@[simp] theorem State.raiseError_kraft (s : State) (e : ErrCode) : (raiseError e s).kraft = s.kraft := rfl
@[simp] theorem State.raiseError_bw (s : State) (e : ErrCode) : (raiseError e s).bw = s.bw := rfl
@[simp] theorem State.raiseError_agenda (s : State) (e : ErrCode) : (raiseError e s).agenda = s.agenda := rfl
@[simp] theorem State.raiseError_rdata (s : State) (e : ErrCode) : (raiseError e s).rdata = s.rdata := rfl
@[simp] theorem State.raiseError_fresh (s : State) (e : ErrCode) : (raiseError e s).fresh = s.fresh := rfl

@[simp] theorem State.completeOperation_cfg (s : State) (n : Nat) : (completeOperation n s).cfg = s.cfg := rfl
@[simp] theorem State.completeOperation_status (s : State) (n : Nat) : (completeOperation n s).status = packStatus false true .ok := rfl
@[simp] theorem State.completeOperation_ilen (s : State) (n : Nat) : (completeOperation n s).ilen = s.ilen := rfl
@[simp] theorem State.completeOperation_olen (s : State) (n : Nat) : (completeOperation n s).olen = BitVec.ofNat 32 n := rfl
@[simp] theorem State.completeOperation_imem (s : State) (n : Nat) : (completeOperation n s).imem = s.imem := rfl
@[simp] theorem State.completeOperation_omem (s : State) (n : Nat) : (completeOperation n s).omem = s.omem := rfl
@[simp] theorem State.completeOperation_freq (s : State) (n : Nat) : (completeOperation n s).freq = s.freq := rfl
@[simp] theorem State.completeOperation_len (s : State) (n : Nat) : (completeOperation n s).len = s.len := rfl
@[simp] theorem State.completeOperation_code (s : State) (n : Nat) : (completeOperation n s).code = s.code := rfl
@[simp] theorem State.completeOperation_nodes (s : State) (n : Nat) : (completeOperation n s).nodes = s.nodes := rfl
@[simp] theorem State.completeOperation_dec (s : State) (n : Nat) : (completeOperation n s).dec = s.dec := rfl
@[simp] theorem State.completeOperation_phase (s : State) (n : Nat) : (completeOperation n s).phase = .idle := rfl
@[simp] theorem State.completeOperation_iptr (s : State) (n : Nat) : (completeOperation n s).iptr = s.iptr := rfl
@[simp] theorem State.completeOperation_optr (s : State) (n : Nat) : (completeOperation n s).optr = s.optr := rfl
@[simp] theorem State.completeOperation_rpos (s : State) (n : Nat) : (completeOperation n s).rpos = s.rpos := rfl
@[simp] theorem State.completeOperation_tbits (s : State) (n : Nat) : (completeOperation n s).tbits = s.tbits := rfl
@[simp] theorem State.completeOperation_paylen (s : State) (n : Nat) : (completeOperation n s).paylen = s.paylen := rfl
@[simp] theorem State.completeOperation_osize (s : State) (n : Nat) : (completeOperation n s).osize = s.osize := rfl
@[simp] theorem State.completeOperation_cacc (s : State) (n : Nat) : (completeOperation n s).cacc = s.cacc := rfl
@[simp] theorem State.completeOperation_norig (s : State) (n : Nat) : (completeOperation n s).norig = s.norig := rfl
@[simp] theorem State.completeOperation_ocnt (s : State) (n : Nat) : (completeOperation n s).ocnt = s.ocnt := rfl
@[simp] theorem State.completeOperation_kraft (s : State) (n : Nat) : (completeOperation n s).kraft = s.kraft := rfl
@[simp] theorem State.completeOperation_bw (s : State) (n : Nat) : (completeOperation n s).bw = s.bw := rfl
@[simp] theorem State.completeOperation_agenda (s : State) (n : Nat) : (completeOperation n s).agenda = s.agenda := rfl
@[simp] theorem State.completeOperation_rdata (s : State) (n : Nat) : (completeOperation n s).rdata = s.rdata := rfl
@[simp] theorem State.completeOperation_fresh (s : State) (n : Nat) : (completeOperation n s).fresh = s.fresh := rfl

@[simp] theorem State.badCommand_cfg (s : State) : (badCommand s).cfg = s.cfg := rfl
@[simp] theorem State.badCommand_status (s : State) : (badCommand s).status = packStatus false true .badCommand := rfl
@[simp] theorem State.badCommand_ilen (s : State) : (badCommand s).ilen = s.ilen := rfl
@[simp] theorem State.badCommand_olen (s : State) : (badCommand s).olen = 0 := rfl
@[simp] theorem State.badCommand_imem (s : State) : (badCommand s).imem = s.imem := rfl
@[simp] theorem State.badCommand_omem (s : State) : (badCommand s).omem = s.omem := rfl
@[simp] theorem State.badCommand_freq (s : State) : (badCommand s).freq = s.freq := rfl
@[simp] theorem State.badCommand_len (s : State) : (badCommand s).len = s.len := rfl
@[simp] theorem State.badCommand_code (s : State) : (badCommand s).code = s.code := rfl
@[simp] theorem State.badCommand_nodes (s : State) : (badCommand s).nodes = s.nodes := rfl
@[simp] theorem State.badCommand_dec (s : State) : (badCommand s).dec = s.dec := rfl
@[simp] theorem State.badCommand_phase (s : State) : (badCommand s).phase = s.phase := rfl
@[simp] theorem State.badCommand_iptr (s : State) : (badCommand s).iptr = s.iptr := rfl
@[simp] theorem State.badCommand_optr (s : State) : (badCommand s).optr = s.optr := rfl
@[simp] theorem State.badCommand_rpos (s : State) : (badCommand s).rpos = s.rpos := rfl
@[simp] theorem State.badCommand_tbits (s : State) : (badCommand s).tbits = s.tbits := rfl
@[simp] theorem State.badCommand_paylen (s : State) : (badCommand s).paylen = s.paylen := rfl
@[simp] theorem State.badCommand_osize (s : State) : (badCommand s).osize = s.osize := rfl
@[simp] theorem State.badCommand_cacc (s : State) : (badCommand s).cacc = s.cacc := rfl
@[simp] theorem State.badCommand_norig (s : State) : (badCommand s).norig = s.norig := rfl
@[simp] theorem State.badCommand_ocnt (s : State) : (badCommand s).ocnt = s.ocnt := rfl
@[simp] theorem State.badCommand_kraft (s : State) : (badCommand s).kraft = s.kraft := rfl
@[simp] theorem State.badCommand_bw (s : State) : (badCommand s).bw = s.bw := rfl
@[simp] theorem State.badCommand_agenda (s : State) : (badCommand s).agenda = s.agenda := rfl
@[simp] theorem State.badCommand_rdata (s : State) : (badCommand s).rdata = s.rdata := rfl
@[simp] theorem State.badCommand_fresh (s : State) : (badCommand s).fresh = s.fresh := rfl

@[simp] theorem State.forgetOmem_cfg (s : State) : (s.forgetOmem).cfg = s.cfg := rfl
@[simp] theorem State.forgetOmem_status (s : State) : (s.forgetOmem).status = s.status := rfl
@[simp] theorem State.forgetOmem_ilen (s : State) : (s.forgetOmem).ilen = s.ilen := rfl
@[simp] theorem State.forgetOmem_olen (s : State) : (s.forgetOmem).olen = s.olen := rfl
@[simp] theorem State.forgetOmem_imem (s : State) : (s.forgetOmem).imem = s.imem := rfl
@[simp] theorem State.forgetOmem_omem (s : State) : (s.forgetOmem).omem = ⟨s.fresh, []⟩ := rfl
@[simp] theorem State.forgetOmem_freq (s : State) : (s.forgetOmem).freq = s.freq := rfl
@[simp] theorem State.forgetOmem_len (s : State) : (s.forgetOmem).len = s.len := rfl
@[simp] theorem State.forgetOmem_code (s : State) : (s.forgetOmem).code = s.code := rfl
@[simp] theorem State.forgetOmem_nodes (s : State) : (s.forgetOmem).nodes = s.nodes := rfl
@[simp] theorem State.forgetOmem_dec (s : State) : (s.forgetOmem).dec = s.dec := rfl
@[simp] theorem State.forgetOmem_phase (s : State) : (s.forgetOmem).phase = s.phase := rfl
@[simp] theorem State.forgetOmem_iptr (s : State) : (s.forgetOmem).iptr = s.iptr := rfl
@[simp] theorem State.forgetOmem_optr (s : State) : (s.forgetOmem).optr = s.optr := rfl
@[simp] theorem State.forgetOmem_rpos (s : State) : (s.forgetOmem).rpos = s.rpos := rfl
@[simp] theorem State.forgetOmem_tbits (s : State) : (s.forgetOmem).tbits = s.tbits := rfl
@[simp] theorem State.forgetOmem_paylen (s : State) : (s.forgetOmem).paylen = s.paylen := rfl
@[simp] theorem State.forgetOmem_osize (s : State) : (s.forgetOmem).osize = s.osize := rfl
@[simp] theorem State.forgetOmem_cacc (s : State) : (s.forgetOmem).cacc = s.cacc := rfl
@[simp] theorem State.forgetOmem_norig (s : State) : (s.forgetOmem).norig = s.norig := rfl
@[simp] theorem State.forgetOmem_ocnt (s : State) : (s.forgetOmem).ocnt = s.ocnt := rfl
@[simp] theorem State.forgetOmem_kraft (s : State) : (s.forgetOmem).kraft = s.kraft := rfl
@[simp] theorem State.forgetOmem_bw (s : State) : (s.forgetOmem).bw = s.bw := rfl
@[simp] theorem State.forgetOmem_agenda (s : State) : (s.forgetOmem).agenda = s.agenda := rfl
@[simp] theorem State.forgetOmem_rdata (s : State) : (s.forgetOmem).rdata = s.rdata := rfl
@[simp] theorem State.forgetOmem_fresh (s : State) : (s.forgetOmem).fresh = s.fresh + 1 := rfl

@[simp] theorem State.resetInput_cfg (s : State) : (s.resetInput).cfg = s.cfg := rfl
@[simp] theorem State.resetInput_status (s : State) : (s.resetInput).status = 0 := rfl
@[simp] theorem State.resetInput_ilen (s : State) : (s.resetInput).ilen = 0 := rfl
@[simp] theorem State.resetInput_olen (s : State) : (s.resetInput).olen = 0 := rfl
@[simp] theorem State.resetInput_imem (s : State) : (s.resetInput).imem = ⟨s.fresh, []⟩ := rfl
@[simp] theorem State.resetInput_omem (s : State) : (s.resetInput).omem = ⟨s.fresh + 1, []⟩ := rfl
@[simp] theorem State.resetInput_nodes (s : State) : (s.resetInput).nodes = NodeStore.zero := rfl
@[simp] theorem State.resetInput_phase (s : State) : (s.resetInput).phase = .idle := rfl
@[simp] theorem State.resetInput_iptr (s : State) : (s.resetInput).iptr = 0 := rfl
@[simp] theorem State.resetInput_optr (s : State) : (s.resetInput).optr = 0 := rfl
@[simp] theorem State.resetInput_rpos (s : State) : (s.resetInput).rpos = 0 := rfl
@[simp] theorem State.resetInput_tbits (s : State) : (s.resetInput).tbits = 0 := rfl
@[simp] theorem State.resetInput_paylen (s : State) : (s.resetInput).paylen = 0 := rfl
@[simp] theorem State.resetInput_osize (s : State) : (s.resetInput).osize = 0 := rfl
@[simp] theorem State.resetInput_cacc (s : State) : (s.resetInput).cacc = 0 := rfl
@[simp] theorem State.resetInput_norig (s : State) : (s.resetInput).norig = 0 := rfl
@[simp] theorem State.resetInput_ocnt (s : State) : (s.resetInput).ocnt = 0 := rfl
@[simp] theorem State.resetInput_kraft (s : State) : (s.resetInput).kraft = 0 := rfl
@[simp] theorem State.resetInput_agenda (s : State) : (s.resetInput).agenda = s.agenda := rfl
@[simp] theorem State.resetInput_rdata (s : State) : (s.resetInput).rdata = s.rdata := rfl
@[simp] theorem State.resetInput_fresh (s : State) : (s.resetInput).fresh = s.fresh + 2 := rfl

/-! ### The flags after the shared updates -/

@[simp] theorem State.startOperation_busy (s : State) (p : Phase) : (startOperation p s).busy = true :=
  State.busy_eq (State.startOperation_status s p)
@[simp] theorem State.startOperation_done (s : State) (p : Phase) : (startOperation p s).done = false :=
  State.done_eq (State.startOperation_status s p)
@[simp] theorem State.raiseError_busy (s : State) (e : ErrCode) : (raiseError e s).busy = false :=
  State.busy_eq (State.raiseError_status s e)
@[simp] theorem State.raiseError_done (s : State) (e : ErrCode) : (raiseError e s).done = true :=
  State.done_eq (State.raiseError_status s e)
@[simp] theorem State.completeOperation_busy (s : State) (n : Nat) : (completeOperation n s).busy = false :=
  State.busy_eq (State.completeOperation_status s n)
@[simp] theorem State.completeOperation_done (s : State) (n : Nat) : (completeOperation n s).done = true :=
  State.done_eq (State.completeOperation_status s n)
@[simp] theorem State.badCommand_busy (s : State) : (badCommand s).busy = false :=
  State.busy_eq (State.badCommand_status s)
@[simp] theorem State.badCommand_done (s : State) : (badCommand s).done = true :=
  State.done_eq (State.badCommand_status s)

/-- ILEN is written while BUSY = 0 (R24). -/
theorem State.writeIlen_idle {s : State} (v : Word32) (h : s.busy = false) : s.writeIlen v = { s with ilen := v } := by
  simp [State.writeIlen, h]

/-- A write of ILEN is ignored while BUSY = 1 (R24). -/
theorem State.writeIlen_busy {s : State} (v : Word32) (h : s.busy = true) : s.writeIlen v = s := by
  simp [State.writeIlen, h]

end Sys2Proof.Machine
end

