-- ==== Sys2Proof/Laws/Frame.lean ====
section
/-! SUPPORT. What each unit and each phase leaves unchanged, said once. -/

namespace Sys2Proof.Machine

/-- A property of the state a unit answers with or raises from. -/
def ResultAll (P : State → Prop) : Except Stop State → Prop
  | .ok t => P t
  | .error (.raise _ t) => P t
  | .error (.fault _) => True

theorem ResultAll.mono {P Q : State → Prop} (h : ∀ t, P t → Q t) {r : Except Stop State} (hr : ResultAll P r) :
    ResultAll Q r := by
  rcases r with (f | ⟨e, t⟩) | t
  · trivial
  · exact h t hr
  · exact h t hr

theorem ResultAll.of_ok {P : State → Prop} {r : Except Stop State} {t : State} (h : ResultAll P r) (hr : r = .ok t) :
    P t := by subst hr; exact h

theorem ResultAll.of_error {P Q : State → Prop} {r : Except Stop State} {e : Stop} (h : ResultAll P r)
    (hPQ : ∀ t, P t → Q t) (hr : r = .error e) : ResultAll Q (.error e) := by
  subst hr; exact h.mono hPQ

/-- What no step of an operation changes: the parameters, ILEN and IMEM (R25, R60), and what is the host's. -/
structure EngineKeeps (s t : State) : Prop where
  cfg : t.cfg = s.cfg
  ilen : t.ilen = s.ilen
  imem : t.imem = s.imem
  agenda : t.agenda = s.agenda
  rdata : t.rdata = s.rdata

/-- What no phase of COMPRESS changes: moreover the decoder's own state (R219). -/
structure CompressKeeps (s t : State) : Prop extends EngineKeeps s t where
  dec : t.dec = s.dec
  rpos : t.rpos = s.rpos
  norig : t.norig = s.norig
  ocnt : t.ocnt = s.ocnt
  kraft : t.kraft = s.kraft
  fresh : t.fresh = s.fresh

/-- What no phase of DECOMPRESS changes: moreover the encoder's own state (R238). -/
structure DecompressKeeps (s t : State) : Prop extends EngineKeeps s t where
  freq : t.freq = s.freq
  nodes : t.nodes = s.nodes
  tbits : t.tbits = s.tbits
  osize : t.osize = s.osize
  bw : t.bw = s.bw

theorem EngineKeeps.refl (s : State) : EngineKeeps s s := ⟨rfl, rfl, rfl, rfl, rfl⟩
theorem CompressKeeps.refl (s : State) : CompressKeeps s s := ⟨EngineKeeps.refl s, rfl, rfl, rfl, rfl, rfl, rfl⟩
theorem DecompressKeeps.refl (s : State) : DecompressKeeps s s := ⟨EngineKeeps.refl s, rfl, rfl, rfl, rfl, rfl⟩

theorem EngineKeeps.trans {s t u : State} (h : EngineKeeps s t) (k : EngineKeeps t u) : EngineKeeps s u :=
  ⟨k.cfg.trans h.cfg, k.ilen.trans h.ilen, k.imem.trans h.imem, k.agenda.trans h.agenda, k.rdata.trans h.rdata⟩

theorem CompressKeeps.trans {s t u : State} (h : CompressKeeps s t) (k : CompressKeeps t u) : CompressKeeps s u :=
  ⟨h.toEngineKeeps.trans k.toEngineKeeps, k.dec.trans h.dec, k.rpos.trans h.rpos, k.norig.trans h.norig,
    k.ocnt.trans h.ocnt, k.kraft.trans h.kraft, k.fresh.trans h.fresh⟩

theorem DecompressKeeps.trans {s t u : State} (h : DecompressKeeps s t) (k : DecompressKeeps t u) :
    DecompressKeeps s u :=
  ⟨h.toEngineKeeps.trans k.toEngineKeeps, k.freq.trans h.freq, k.nodes.trans h.nodes, k.tbits.trans h.tbits,
    k.osize.trans h.osize, k.bw.trans h.bw⟩

theorem startOperation_compressKeeps (p : Phase) (s : State) : CompressKeeps s (startOperation p s) :=
  ⟨⟨rfl, rfl, rfl, rfl, rfl⟩, rfl, rfl, rfl, rfl, rfl, rfl⟩
theorem startOperation_decompressKeeps (p : Phase) (s : State) : DecompressKeeps s (startOperation p s) :=
  ⟨⟨rfl, rfl, rfl, rfl, rfl⟩, rfl, rfl, rfl, rfl, rfl⟩
theorem raiseError_compressKeeps (e : ErrCode) (s : State) : CompressKeeps s (raiseError e s) :=
  ⟨⟨rfl, rfl, rfl, rfl, rfl⟩, rfl, rfl, rfl, rfl, rfl, rfl⟩
theorem raiseError_decompressKeeps (e : ErrCode) (s : State) : DecompressKeeps s (raiseError e s) :=
  ⟨⟨rfl, rfl, rfl, rfl, rfl⟩, rfl, rfl, rfl, rfl, rfl⟩
theorem completeOperation_compressKeeps (n : Nat) (s : State) : CompressKeeps s (completeOperation n s) :=
  ⟨⟨rfl, rfl, rfl, rfl, rfl⟩, rfl, rfl, rfl, rfl, rfl, rfl⟩
theorem completeOperation_decompressKeeps (n : Nat) (s : State) : DecompressKeeps s (completeOperation n s) :=
  ⟨⟨rfl, rfl, rfl, rfl, rfl⟩, rfl, rfl, rfl, rfl, rfl⟩
theorem forgetOmem_decompressKeeps (s : State) : DecompressKeeps s s.forgetOmem :=
  ⟨⟨rfl, rfl, rfl, rfl, rfl⟩, rfl, rfl, rfl, rfl, rfl⟩

/-! ### The units -/

theorem memReadImem_error {s : State} {a : Nat} {e : Stop} (h : memReadImem s a = .error e) :
    e = .fault (.imemAddress a) := by
  unfold memReadImem at h
  split at h
  · cases h
  · injection h with h; exact h.symm

theorem emitByte_error {s : State} {v : Byte} {e : Stop} (h : emitByte s v = .error e) :
    e = .fault (.omemAddress s.optr) := by
  by_cases hlt : s.optr < s.cfg.omemSize
  · rw [emitByte_of_lt v hlt] at h; cases h
  · simp [emitByte, memWriteOmem, hlt] at h; exact h.symm

theorem fcCountLoop_error {s : State} {n i : Nat} {f : Table Nat NSYM} {e : Stop}
    (h : fcCountLoop s n i f = .error e) : ∃ a, e = .fault (.imemAddress a) := by
  induction n generalizing i f with
  | zero => cases h
  | succ n ih =>
    unfold fcCountLoop at h
    split at h
    · exact ih h
    · next e' he =>
      injection h with h
      exact ⟨i, h ▸ memReadImem_error he⟩

/-- FC_COUNT changes FREQ and IPTR only. -/
theorem fcCount_ok {s t : State} (h : fcCount s = .ok t) :
    ∃ f, fcCountLoop s s.ilen.toNat 0 s.freq = .ok f ∧ t = { s with freq := f, iptr := s.ilen.toNat } := by
  unfold fcCount at h
  split at h
  · next f hf => exact ⟨f, hf, by injection h with h; exact h.symm⟩
  · cases h

/-- TB_BUILD changes the node store only. -/
theorem tbBuild_ok {s t : State} (h : tbBuild s = .ok t) :
    ∃ d, tbMergeLoop NNODE (tbPlaceholder (tbInit s.freq s.nodes)) = .ok d ∧
      t = { s with nodes := { d with root := d.nnext - 1 } } := by
  unfold tbBuild at h
  split at h
  · next d hd => exact ⟨d, hd, by injection h with h; exact h.symm⟩
  · cases h

theorem bwPutBits_compressKeeps {bs : List Bool} {s : State} : ResultAll (CompressKeeps s) (bwPutBits bs s) := by
  induction bs generalizing s with
  | nil => exact CompressKeeps.refl s
  | cons b bs ih =>
    unfold bwPutBits
    split
    · next t ht =>
      refine ih.mono fun u hu => CompressKeeps.trans ?_ hu
      unfold bwPutBit at ht
      dsimp only at ht
      split at ht
      · split at ht
        · next v hv =>
          obtain ⟨-, rfl⟩ := emitByte_ok hv
          injection ht with ht; subst ht
          exact ⟨⟨rfl, rfl, rfl, rfl, rfl⟩, rfl, rfl, rfl, rfl, rfl, rfl⟩
        · cases ht
      · injection ht with ht; subst ht
        exact ⟨⟨rfl, rfl, rfl, rfl, rfl⟩, rfl, rfl, rfl, rfl, rfl, rfl⟩
    · next e he =>
      unfold bwPutBit at he
      dsimp only at he
      split at he
      · split at he
        · cases he
        · next e' he' => injection he with he; subst he; rw [emitByte_error he']; trivial
      · cases he

theorem cPayloadLoop_compressKeeps {n : Nat} {s : State} : ResultAll (CompressKeeps s) (cPayloadLoop n s) := by
  induction n generalizing s with
  | zero => exact CompressKeeps.refl s
  | succ n ih =>
    unfold cPayloadLoop
    split
    · next e he => rw [memReadImem_error he]; trivial
    · next b hb =>
      split
      · next t ht =>
        have h1 : CompressKeeps s t := bwPutBits_compressKeeps.of_ok ht
        refine ih.mono fun u hu => h1.trans (CompressKeeps.trans ?_ hu)
        exact ⟨⟨rfl, rfl, rfl, rfl, rfl⟩, rfl, rfl, rfl, rfl, rfl, rfl⟩
      · next e he => exact bwPutBits_compressKeeps.of_error (fun _ h => h) he

/-! ### The phases of COMPRESS -/

theorem emitBytes_error {vs : List Byte} {s : State} {e : Stop} (h : emitBytes vs s = .error e) :
    ∃ a, e = .fault (.omemAddress a) := by
  induction vs generalizing s with
  | nil => cases h
  | cons v vs ih =>
    unfold emitBytes at h
    split at h
    · exact ih h
    · next e' he => injection h with h; exact ⟨_, h ▸ emitByte_error he⟩

theorem cStart_keeps (s : State) : ResultAll (CompressKeeps s) (cStart s) := by
  unfold cStart
  split
  · exact CompressKeeps.refl s
  · exact ⟨⟨rfl, rfl, rfl, rfl, rfl⟩, rfl, rfl, rfl, rfl, rfl, rfl⟩

theorem cCount_keeps (s : State) : ResultAll (CompressKeeps s) (cCount s) := by
  unfold cCount
  split
  · next t ht =>
    obtain ⟨f, -, rfl⟩ := fcCount_ok ht
    exact ⟨⟨rfl, rfl, rfl, rfl, rfl⟩, rfl, rfl, rfl, rfl, rfl, rfl⟩
  · next e he =>
    unfold fcCount at he
    split at he
    · cases he
    · next e' he' =>
      obtain ⟨a, rfl⟩ := fcCountLoop_error he'
      injection he with he; subst he; trivial

theorem tbMerge_error {d : NodeStore} {e : Stop} (h : tbMerge d = .error e) : ∃ f, e = .fault f := by
  have hx : ∀ {d : NodeStore} {e : Stop}, tbXmin d = .error e → ∃ f, e = .fault f := by
    intro d e h
    unfold tbXmin at h
    split at h
    · injection h with h; exact ⟨_, h.symm⟩
    · cases h
  unfold tbMerge at h
  split at h
  · next e' he => injection h with h; exact h ▸ hx he
  · split at h
    · next e' he => injection h with h; exact h ▸ hx he
    · split at h
      · cases h
      · injection h with h; exact ⟨_, h.symm⟩

theorem tbMergeLoop_error {n : Nat} {d : NodeStore} {e : Stop} (h : tbMergeLoop n d = .error e) :
    ∃ f, e = .fault f := by
  induction n generalizing d with
  | zero => cases h
  | succ n ih =>
    unfold tbMergeLoop at h
    split at h
    · split at h
      · exact ih h
      · next e' he => injection h with h; exact h ▸ tbMerge_error he
    · cases h

theorem cBuild_keeps (s : State) : ResultAll (CompressKeeps s) (cBuild s) := by
  unfold cBuild
  split
  · next t ht =>
    obtain ⟨d, -, rfl⟩ := tbBuild_ok ht
    exact ⟨⟨rfl, rfl, rfl, rfl, rfl⟩, rfl, rfl, rfl, rfl, rfl, rfl⟩
  · next e he =>
    unfold tbBuild at he
    split at he
    · cases he
    · next e' he' =>
      obtain ⟨f, rfl⟩ := tbMergeLoop_error he'
      injection he with he; subst he; trivial

theorem cDepth_keeps (s : State) : ResultAll (CompressKeeps s) (cDepth s) :=
  ⟨⟨rfl, rfl, rfl, rfl, rfl⟩, rfl, rfl, rfl, rfl, rfl, rfl⟩

theorem cCanon_keeps (s : State) : ResultAll (CompressKeeps s) (cCanon s) :=
  ⟨⟨rfl, rfl, rfl, rfl, rfl⟩, rfl, rfl, rfl, rfl, rfl, rfl⟩

theorem cSize_keeps (s : State) : ResultAll (CompressKeeps s) (cSize s) := by
  unfold cSize
  dsimp only
  split
  · exact ⟨⟨rfl, rfl, rfl, rfl, rfl⟩, rfl, rfl, rfl, rfl, rfl, rfl⟩
  · exact ⟨⟨rfl, rfl, rfl, rfl, rfl⟩, rfl, rfl, rfl, rfl, rfl, rfl⟩

theorem cHeader_keeps (s : State) : ResultAll (CompressKeeps s) (cHeader s) := by
  unfold cHeader
  split
  · next t ht =>
    obtain ⟨-, rfl⟩ := emitBytes_ok ht (Nat.zero_le _)
    exact ⟨⟨rfl, rfl, rfl, rfl, rfl⟩, rfl, rfl, rfl, rfl, rfl, rfl⟩
  · next e he => obtain ⟨a, rfl⟩ := emitBytes_error he; trivial

theorem cPayload_keeps (s : State) : ResultAll (CompressKeeps s) (cPayload s) := by
  have h0 : CompressKeeps s { bwInit s with iptr := 0 } := ⟨⟨rfl, rfl, rfl, rfl, rfl⟩, rfl, rfl, rfl, rfl, rfl, rfl⟩
  unfold cPayload
  split
  · next e he => exact cPayloadLoop_compressKeeps.of_error (fun _ h => h0.trans h) he
  · next t ht =>
    have h1 : CompressKeeps s t := h0.trans (cPayloadLoop_compressKeeps.of_ok ht)
    split
    · next u hu =>
      have h2 : CompressKeeps t u := bwPutBits_compressKeeps.of_ok hu
      exact (h1.trans h2).trans ⟨⟨rfl, rfl, rfl, rfl, rfl⟩, rfl, rfl, rfl, rfl, rfl, rfl⟩
    · next e he => exact bwPutBits_compressKeeps.of_error (fun _ h => h1.trans h) he

theorem cFlush_keeps (s : State) : ResultAll (CompressKeeps s) (cFlush s) := by
  unfold cFlush bwFlush
  split
  · next t ht =>
    refine CompressKeeps.trans ?_ (completeOperation_compressKeeps _ t)
    split at ht
    · split at ht
      · next v hv =>
        obtain ⟨-, rfl⟩ := emitByte_ok hv
        injection ht with ht; subst ht
        exact ⟨⟨rfl, rfl, rfl, rfl, rfl⟩, rfl, rfl, rfl, rfl, rfl, rfl⟩
      · cases ht
    · injection ht with ht; subst ht; exact CompressKeeps.refl s
  · next e he =>
    split at he
    · split at he
      · cases he
      · next e' he' => injection he with he; subst he; rw [emitByte_error he']; trivial
    · cases he

/-! ### The phases of DECOMPRESS -/

theorem ccTag_keeps {vs : List Byte} {s : State} : ResultAll (DecompressKeeps s) (ccTag vs s) := by
  induction vs generalizing s with
  | nil => exact DecompressKeeps.refl s
  | cons v vs ih =>
    unfold ccTag
    split
    · split
      · refine ih.mono fun u hu => DecompressKeeps.trans (by exact ⟨⟨rfl, rfl, rfl, rfl, rfl⟩, rfl, rfl, rfl, rfl, rfl⟩) hu
      · exact DecompressKeeps.refl s
    · next e he => rw [memReadImem_error he]; trivial

theorem ccOrigLen_keeps {n : Nat} {s : State} : ResultAll (DecompressKeeps s) (ccOrigLen n s) := by
  induction n generalizing s with
  | zero => exact DecompressKeeps.refl s
  | succ n ih =>
    unfold ccOrigLen
    split
    · refine ih.mono fun u hu => DecompressKeeps.trans (by exact ⟨⟨rfl, rfl, rfl, rfl, rfl⟩, rfl, rfl, rfl, rfl, rfl⟩) hu
    · next e he => rw [memReadImem_error he]; trivial

theorem ccLenTab_keeps {n sym : Nat} {s : State} : ResultAll (DecompressKeeps s) (ccLenTab n sym s) := by
  induction n generalizing s sym with
  | zero => exact DecompressKeeps.refl s
  | succ n ih =>
    unfold ccLenTab
    split
    · split
      · exact ⟨⟨rfl, rfl, rfl, rfl, rfl⟩, rfl, rfl, rfl, rfl, rfl⟩
      · refine ih.mono fun u hu => DecompressKeeps.trans (by exact ⟨⟨rfl, rfl, rfl, rfl, rfl⟩, rfl, rfl, rfl, rfl, rfl⟩) hu
    · next e he => rw [memReadImem_error he]; trivial

theorem ccChecks_keeps (s : State) : ResultAll (DecompressKeeps s) (ccChecks s) := by
  unfold ccChecks
  dsimp only
  split
  · exact DecompressKeeps.refl s
  · split
    · exact ⟨⟨rfl, rfl, rfl, rfl, rfl⟩, rfl, rfl, rfl, rfl, rfl⟩
    · split
      · exact ⟨⟨rfl, rfl, rfl, rfl, rfl⟩, rfl, rfl, rfl, rfl, rfl⟩
      · exact ⟨⟨rfl, rfl, rfl, rfl, rfl⟩, rfl, rfl, rfl, rfl, rfl⟩

theorem ccParse_keeps (s : State) : ResultAll (DecompressKeeps s) (ccParse s) := by
  unfold ccParse
  split
  · exact DecompressKeeps.refl s
  · have h0 : DecompressKeeps s { s with iptr := 0 } := ⟨⟨rfl, rfl, rfl, rfl, rfl⟩, rfl, rfl, rfl, rfl, rfl⟩
    split
    · next e he => exact ccTag_keeps.of_error (fun _ h => h0.trans h) he
    · next s1 h1 =>
      have k1 : DecompressKeeps s { s1 with norig := 0 } :=
        (h0.trans (ccTag_keeps.of_ok h1)).trans ⟨⟨rfl, rfl, rfl, rfl, rfl⟩, rfl, rfl, rfl, rfl, rfl⟩
      split
      · next e he => exact ccOrigLen_keeps.of_error (fun _ h => k1.trans h) he
      · next s2 h2 =>
        have k2 := k1.trans (ccOrigLen_keeps.of_ok h2)
        split
        · next e he => exact ccLenTab_keeps.of_error (fun _ h => k2.trans h) he
        · next s3 h3 =>
          exact (ccChecks_keeps s3).mono fun t ht => (k2.trans (ccLenTab_keeps.of_ok h3)).trans ht

theorem ccInsert_error {sym : Nat} {bs : List Bool} {n : Nat} {d : DecodeStore} {e : Stop}
    (h : ccInsert sym bs n d = .error e) : ∃ f, e = .fault f := by
  induction bs generalizing n d with
  | nil => injection h with h; exact ⟨_, h.symm⟩
  | cons b bs ih =>
    cases bs with
    | nil =>
      unfold ccInsert at h
      split at h
      · cases h
      · injection h with h; exact ⟨_, h.symm⟩
    | cons b' bs =>
      unfold ccInsert at h
      split at h
      · injection h with h; exact ⟨_, h.symm⟩
      · split at h
        · exact ih h
        · exact ih h
        · injection h with h; exact ⟨_, h.symm⟩

theorem ccInsertAll_error {code : Table CodeWord NSYM} {es : List (Nat × Nat)} {d : DecodeStore} {e : Stop}
    (h : ccInsertAll code es d = .error e) : ∃ f, e = .fault f := by
  induction es generalizing d with
  | nil => cases h
  | cons x es ih =>
    unfold ccInsertAll at h
    split at h
    · exact ih h
    · next e' he => injection h with h; exact h ▸ ccInsert_error he

theorem dStart_keeps (s : State) : ResultAll (DecompressKeeps s) (dStart s) := by
  unfold dStart
  split
  · exact DecompressKeeps.refl s
  · exact ⟨⟨rfl, rfl, rfl, rfl, rfl⟩, rfl, rfl, rfl, rfl, rfl⟩

theorem dHeader_keeps (s : State) : ResultAll (DecompressKeeps s) (dHeader s) := by
  unfold dHeader
  split
  · next t ht => exact ((ccParse_keeps s).of_ok ht).trans ⟨⟨rfl, rfl, rfl, rfl, rfl⟩, rfl, rfl, rfl, rfl, rfl⟩
  · next e he => exact (ccParse_keeps s).of_error (fun _ h => h) he

theorem dCanon_keeps (s : State) : ResultAll (DecompressKeeps s) (dCanon s) :=
  ⟨⟨rfl, rfl, rfl, rfl, rfl⟩, rfl, rfl, rfl, rfl, rfl⟩

theorem dTree_keeps (s : State) : ResultAll (DecompressKeeps s) (dTree s) := by
  unfold dTree ccTree
  split
  · next t ht =>
    split at ht
    · injection ht with ht; subst ht
      exact ⟨⟨rfl, rfl, rfl, rfl, rfl⟩, rfl, rfl, rfl, rfl, rfl⟩
    · cases ht
  · next e he =>
    split at he
    · cases he
    · next e' he' =>
      obtain ⟨f, rfl⟩ := ccInsertAll_error he'
      injection he with he; subst he; trivial

theorem dEmit_keeps (sym : Nat) (s : State) : ResultAll (DecompressKeeps s) (dEmit sym s) := by
  unfold dEmit
  split
  · exact DecompressKeeps.refl s
  · split
    · next t ht =>
      obtain ⟨-, rfl⟩ := emitByte_ok ht
      exact ⟨⟨rfl, rfl, rfl, rfl, rfl⟩, rfl, rfl, rfl, rfl, rfl⟩
    · next e he => rw [emitByte_error he]; trivial

/-- What BR_GETBIT answers (R198): nothing when the payload is used up, else the bit at RPOS, with RPOS one further. -/
theorem brGetBit_ok {s t : State} {o : Option Bool} (h : brGetBit s = .ok (o, t)) :
    (o = none ∧ t = s ∧ s.rpos = 8 * s.paylen) ∨
      (s.rpos ≠ 8 * s.paylen ∧ HDR_LEN + s.rpos / 8 < s.cfg.imemSize ∧
        o = some (msbFirstBit (s.imem.read (HDR_LEN + s.rpos / 8)) s.rpos) ∧ t = { s with rpos := s.rpos + 1 }) := by
  unfold brGetBit at h
  split at h
  · next hr =>
    injection h with h; injection h with h1 h2
    exact .inl ⟨h1.symm, h2.symm, hr⟩
  · next hr =>
    split at h
    · next b hb =>
      obtain ⟨hlt, rfl⟩ := memReadImem_ok hb
      injection h with h; injection h with h1 h2
      exact .inr ⟨hr, hlt, h1.symm, h2.symm⟩
    · cases h

theorem brGetBit_error {s : State} {e : Stop} (h : brGetBit s = .error e) : ∃ f, e = .fault f := by
  unfold brGetBit at h
  split at h
  · cases h
  · split at h
    · cases h
    · next e' he => injection h with h; exact ⟨_, h ▸ memReadImem_error he⟩

theorem dDecodeLoop_keeps {n : Nat} {s : State} : ResultAll (DecompressKeeps s) (dDecodeLoop n s) := by
  induction n generalizing s with
  | zero => exact DecompressKeeps.refl s
  | succ n ih =>
    have step : ∀ {o t}, brGetBit s = .ok (o, t) → DecompressKeeps s t := by
      intro o t h
      rcases brGetBit_ok h with ⟨-, rfl, -⟩ | ⟨-, -, -, rfl⟩
      · exact DecompressKeeps.refl _
      · exact ⟨⟨rfl, rfl, rfl, rfl, rfl⟩, rfl, rfl, rfl, rfl, rfl⟩
    unfold dDecodeLoop
    split
    · next e he => obtain ⟨f, rfl⟩ := brGetBit_error he; trivial
    · next t ht => exact step ht
    · next b t ht =>
      have h1 := step ht
      split
      · trivial
      · split
        · exact h1
        · refine ih.mono fun u hu => (h1.trans (by exact ⟨⟨rfl, rfl, rfl, rfl, rfl⟩, rfl, rfl, rfl, rfl, rfl⟩)).trans hu
        · next sym _ =>
          split
          · exact h1
          · split
            · next u hu =>
              have h2 := h1.trans ((dEmit_keeps sym t).of_ok hu)
              refine ih.mono fun v hv => (h2.trans (by exact ⟨⟨rfl, rfl, rfl, rfl, rfl⟩, rfl, rfl, rfl, rfl, rfl⟩)).trans hv
            · next e he => exact (dEmit_keeps sym t).of_error (fun _ h => h1.trans h) he

theorem dDecode_keeps (s : State) : ResultAll (DecompressKeeps s) (dDecode s) := by
  have h0 : DecompressKeeps s { brInit s with ocnt := 0, optr := 0, dec := { s.dec with dcur := 0 } } :=
    ⟨⟨rfl, rfl, rfl, rfl, rfl⟩, rfl, rfl, rfl, rfl, rfl⟩
  unfold dDecode
  split
  · next t ht =>
    exact (h0.trans (dDecodeLoop_keeps.of_ok ht)).trans ⟨⟨rfl, rfl, rfl, rfl, rfl⟩, rfl, rfl, rfl, rfl, rfl⟩
  · next e he => exact dDecodeLoop_keeps.of_error (fun _ h => h0.trans h) he

theorem dFinish_keeps (s : State) : ResultAll (DecompressKeeps s) (dFinish s) := by
  unfold dFinish
  split
  · exact completeOperation_decompressKeeps _ s
  · exact DecompressKeeps.refl s

/-! ### The end of a phase -/

theorem endCompressPhase_next {P : State → Prop} {r : Except Stop State} {t : State} (h : ResultAll P r)
    (hP : ∀ e u, P u → P (raiseError e u)) (ht : endCompressPhase r = .next t) : P t := by
  rcases r with (f | ⟨e, u⟩) | u
  · cases ht
  · injection ht with ht; exact ht ▸ hP e u h
  · injection ht with ht; exact ht ▸ h

theorem endDecompressPhase_next {P : State → Prop} {r : Except Stop State} {t : State} (h : ResultAll P r)
    (hP : ∀ e u, P u → P (raiseError e u.forgetOmem)) (ht : endDecompressPhase r = .next t) : P t := by
  rcases r with (f | ⟨e, u⟩) | u
  · cases ht
  · injection ht with ht; exact ht ▸ hP e u h
  · injection ht with ht; exact ht ▸ h

/-- No turn of the engine changes the parameters, ILEN, IMEM or what is the host's. -/
theorem enginePhase_keeps {s t : State} (h : enginePhase s = .next t) : EngineKeeps s t := by
  have hc : ∀ {r : Except Stop State}, ResultAll (CompressKeeps s) r → endCompressPhase r = .next t →
      EngineKeeps s t := fun hr ht =>
    (endCompressPhase_next hr (fun e u hu => hu.trans (raiseError_compressKeeps e u)) ht).toEngineKeeps
  have hd : ∀ {r : Except Stop State}, ResultAll (DecompressKeeps s) r → endDecompressPhase r = .next t →
      EngineKeeps s t := fun hr ht =>
    (endDecompressPhase_next hr (fun e u hu =>
      (hu.trans (forgetOmem_decompressKeeps u)).trans (raiseError_decompressKeeps e _)) ht).toEngineKeeps
  unfold enginePhase at h
  split at h
  · injection h with h; exact h ▸ EngineKeeps.refl s
  · exact hc (cStart_keeps s) h
  · exact hc (cCount_keeps s) h
  · exact hc (cBuild_keeps s) h
  · exact hc (cDepth_keeps s) h
  · exact hc (cCanon_keeps s) h
  · exact hc (cSize_keeps s) h
  · exact hc (cHeader_keeps s) h
  · exact hc (cPayload_keeps s) h
  · exact hc (cFlush_keeps s) h
  · exact hd (dStart_keeps s) h
  · exact hd (dHeader_keeps s) h
  · exact hd (dCanon_keeps s) h
  · exact hd (dTree_keeps s) h
  · exact hd (dDecode_keeps s) h
  · exact hd (dFinish_keeps s) h

end Sys2Proof.Machine
end

