-- ==== Sys2Proof/Laws/PerInstr.lean ====
section
/-! SUPPORT. The per-instruction family TableRow: an instruction is well formed and its command byte is its row of the
opcode table (spec/30_encoding.md R82, R83, R108). -/

namespace Sys2Proof.Laws.TableRow

/-- The instruction is well formed and its encoded byte matches its own row of the table and no other. -/
def Statement (i : Instr) : Prop :=
  i.wellFormed = true ∧ ∀ row ∈ opcodeTable, row.matches (encode i) = true ↔ row.instr = i

theorem compress : Statement .compress := by unfold Statement; decide

theorem decompress : Statement .decompress := by unfold Statement; decide

end Sys2Proof.Laws.TableRow
end

