-- ==== Sys2Proof/Laws/Step.lean ====
section
/-! SUPPORT. The step and an operation taken apart once: what a run of phases keeps, and what an instruction does in a
busy and in an idle block. -/

namespace Sys2Proof.Machine

/-- The next event of the agenda is what the step takes. -/
theorem step_of_cons {s : State} {e : Event} {rest : List Event} (h : s.agenda = e :: rest) :
    step s = event e rest s := by simp only [step, h]

/-- With nothing on the agenda the step is the engine's turn. -/
theorem step_of_nil {s : State} (h : s.agenda = []) : step s = engineTurn s := by simp only [step, h]

theorem engineTurn_of_busy {s : State} (h : s.busy = true) : engineTurn s = enginePhase s := by simp [engineTurn, h]

theorem engineTurn_of_idle {s : State} (h : s.busy = false) : engineTurn s = .next s := by simp [engineTurn, h]

/-- What every turn of the engine keeps, a run of turns keeps. -/
theorem runPhases_invariant {P : State → Prop} (hP : ∀ s t, P s → enginePhase s = .next t → P t) {n : Nat} {s t : State}
    (h : P s) (ht : runPhases n s = .next t) : P t := by
  induction n generalizing s with
  | zero => injection ht with ht; exact ht ▸ h
  | succ n ih =>
    unfold runPhases at ht
    split at ht
    · injection ht with ht; exact ht ▸ h
    · split at ht
      · next u hu => exact ih (hP s u h hu) ht
      · cases ht
      · cases ht

/-- A run of turns is one turn and then the rest of them. -/
theorem runPhases_succ {n : Nat} {s t : State} (hp : s.phase ≠ .idle) (ht : enginePhase s = .next t) :
    runPhases (n + 1) s = runPhases n t := by simp [runPhases, hp, ht]

/-- A run of turns that starts idle is over. -/
theorem runPhases_idle {n : Nat} {s : State} (hp : s.phase = .idle) : runPhases n s = .next s := by
  cases n <;> simp [runPhases, hp]

/-- A CMD write to a busy block changes nothing (R22). -/
theorem exec_of_busy {s : State} (i : Instr) (h : s.busy = true) : exec i s = .next s := by
  cases i <;> simp [exec, execCompress, execDecompress, h]

theorem exec_compress_of_idle {s : State} (h : s.busy = false) :
    exec .compress s = runPhases 9 (startOperation .cStart s) := by simp [exec, execCompress, h]

theorem exec_decompress_of_idle {s : State} (h : s.busy = false) :
    exec .decompress s = runPhases 6 (startOperation .dStart s) := by simp [exec, execDecompress, h]

/-- An instruction changes neither the parameters nor ILEN, IMEM or what is the host's (R24, R60). -/
theorem exec_keeps {i : Instr} {s t : State} (h : exec i s = .next t) : EngineKeeps s t := by
  by_cases hb : s.busy = true
  · rw [exec_of_busy i hb] at h
    injection h with h
    exact h ▸ EngineKeeps.refl s
  · have hb' : s.busy = false := by simpa using hb
    have key : ∀ u v, EngineKeeps s u → enginePhase u = .next v → EngineKeeps s v :=
      fun u v hu hv => hu.trans (enginePhase_keeps hv)
    cases i with
    | compress =>
      rw [exec_compress_of_idle hb'] at h
      exact runPhases_invariant key (startOperation_compressKeeps _ s).toEngineKeeps h
    | decompress =>
      rw [exec_decompress_of_idle hb'] at h
      exact runPhases_invariant key (startOperation_decompressKeeps _ s).toEngineKeeps h

/-! ### The copy of the host scripts -/

/-- The copy keeps IMEM's canonical form (R106). -/
theorem copyBytes_wf {omem imem : Buffer} {n a size : Nat} (h : imem.wf size = true) (ha : a + n ≤ size) :
    (copyBytes omem n a imem).wf size = true := by
  induction n generalizing a imem with
  | zero => exact h
  | succ n ih => exact ih (Buffer.wf_write _ h (by omega)) (by omega)

/-- After the copy IMEM holds OMEM's bytes at the addresses copied and its own elsewhere. -/
theorem read_copyBytes (omem imem : Buffer) (n a x : Nat) :
    (copyBytes omem n a imem).read x = if a ≤ x ∧ x < a + n then omem.read x else imem.read x := by
  induction n generalizing a imem with
  | zero => simp [copyBytes]
  | succ n ih =>
    rw [copyBytes, ih, Buffer.read_write]
    by_cases h : a = x
    · subst h; simp
    · have : (a + 1 ≤ x ∧ x < a + 1 + n) ↔ (a ≤ x ∧ x < a + (n + 1)) := by omega
      simp only [h, if_false, this]

@[simp] theorem era_copyBytes (omem imem : Buffer) (n a : Nat) : (copyBytes omem n a imem).era = imem.era := by
  induction n generalizing a imem with
  | zero => rfl
  | succ n ih => simp [copyBytes, ih]

/-! ### The canonical form -/

/-- An OMEM write of the engine keeps the canonical form of both buffers. -/
theorem memWriteOmem_wf {s t : State} {a : Nat} {v : Byte} (h : Memory.wf s = true) (ht : memWriteOmem s a v = .ok t) :
    Memory.wf t = true := by
  simp only [Memory.wf, Bool.and_eq_true] at h ⊢
  unfold memWriteOmem at ht
  split at ht
  · next ha => injection ht with ht; subst ht; exact ⟨h.1, Buffer.wf_write v h.2 ha⟩
  · cases ht

/-- Forgetting OMEM and the reset input keep it too. -/
theorem forgetOmem_wf {s : State} (h : Memory.wf s = true) : Memory.wf s.forgetOmem = true := by
  simp only [Memory.wf, Bool.and_eq_true] at h ⊢
  exact ⟨h.1, Buffer.wf_nil _ _⟩

theorem resetInput_wf (s : State) : Memory.wf s.resetInput = true := by
  simp only [Memory.wf, Bool.and_eq_true]
  exact ⟨Buffer.wf_nil _ _, Buffer.wf_nil _ _⟩

end Sys2Proof.Machine
end

