-- ==== Sys2Proof/Laws/Tables.lean ====
section
/-! SUPPORT. Reading a table after each of the operations that make or change one. -/

namespace Sys2Proof.Machine

variable {α β γ : Type} {n m : Nat}

theorem Table.length_list (t : Table α n) : t.toArray.toList.length = n := by simp

/-- Two tables with the same entries are the same table. -/
theorem Table.ext_get (d : α) {t u : Table α n} (h : ∀ i, i < n → Table.get t i d = Table.get u i d) : t = u := by
  apply Vector.ext
  intro i hi
  have := h i hi
  simpa [Table.get, hi] using this

@[simp] theorem Table.get_of_le {t : Table α n} {i : Nat} (d : α) (h : n ≤ i) : Table.get t i d = d := by
  simp [Table.get, h]

/-- `T[i] <- v` writes entry i. -/
@[simp] theorem Table.get_set_self {t : Table α n} {i : Nat} (v d : α) (h : i < n) :
    Table.get (Table.set t i v) i d = v := by
  simp [Table.get, Table.set, h]

/-- `T[i] <- v` writes no other entry. -/
theorem Table.get_set_ne {t : Table α n} {i j : Nat} (v d : α) (h : i ≠ j) :
    Table.get (Table.set t i v) j d = Table.get t j d := by
  simp [Table.get, Table.set, h]

theorem Table.get_set {t : Table α n} {i j : Nat} (v d : α) (h : i < n) :
    Table.get (Table.set t i v) j d = if i = j then v else Table.get t j d := by
  by_cases hij : i = j
  · subst hij; simp [h]
  · simp [hij, Table.get_set_ne]

@[simp] theorem Table.get_fill {i : Nat} (v d : α) (h : i < n) : Table.get (Table.fill n v) i d = v := by
  simp [Table.get, Table.fill, h]

@[simp] theorem Table.get_map {f : α → β} {t : Table α n} {i : Nat} (d : α) (e : β) (h : i < n) :
    Table.get (Table.map f t) i e = f (Table.get t i d) := by
  simp [Table.get, Table.map, h]

theorem Table.get_map2 {f : α → β → γ} {t : Table α n} {u : Table β m} {i : Nat} (a : α) (b : β) (d : γ)
    (hn : i < n) (hm : i < m) :
    Table.get (Table.map2 f t u) i d = f (Table.get t i a) (Table.get u i b) := by
  simp [Table.get, Table.map2, hn, hm]

@[simp] theorem Table.get_extend_lt {t : Table α n} {k i : Nat} (v d : α) (h : i < n) :
    Table.get (Table.extend t k v) i d = Table.get t i d := by
  simp [Table.get, Table.extend, List.getElem?_append, h]

@[simp] theorem Table.get_extend_ge {t : Table α n} {k i : Nat} (v d : α) (h : n ≤ i) (h' : i < n + k) :
    Table.get (Table.extend t k v) i d = v := by
  have : ¬ i < n := by omega
  have h2 : i - n < k := by omega
  simp [Table.get, Table.extend, List.getElem?_append, this, h2]

/-- The entries of a table, one by one. -/
theorem Table.list_getElem (t : Table α n) {i : Nat} (h : i < n) (d : α) :
    t.toArray.toList[i]'(by simpa using h) = Table.get t i d := by
  simp [Table.get, h]

theorem Table.mem_entries {t : Table α n} {e : α × Nat} (d : α) :
    e ∈ Table.entries t ↔ e.2 < n ∧ e.1 = Table.get t e.2 d := by
  obtain ⟨x, i⟩ := e
  rw [Table.entries, List.mem_zipIdx_iff_getElem?]
  by_cases h : i < n
  · simp [Table.get, h, eq_comm]
  · simp [h]


/-- The symbols of one length are the entries of the table with that length. -/
theorem mem_symbolsOfLength {len : Table Nat NSYM} {l s : Nat} :
    s ∈ symbolsOfLength len l ↔ s < NSYM ∧ Table.get len s 0 = l := by
  simp only [symbolsOfLength, List.mem_map, List.mem_filter, Table.mem_entries 0, beq_iff_eq]
  constructor
  · rintro ⟨⟨x, i⟩, ⟨⟨hi, hx⟩, h⟩, hs⟩
    dsimp only at hi hx h hs
    subst hs
    exact ⟨hi, hx ▸ h⟩
  · rintro ⟨hs, rfl⟩
    exact ⟨(Table.get len s 0, s), ⟨⟨hs, rfl⟩, rfl⟩, rfl⟩

/-- The canonical order holds exactly the symbols with a length in 1..45, each with its length (R144). -/
theorem mem_canonicalOrder {len : Table Nat NSYM} {s l : Nat} :
    (s, l) ∈ canonicalOrder len ↔ s < NSYM ∧ Table.get len s 0 = l ∧ 0 < l ∧ l ≤ L_MAX := by
  simp only [canonicalOrder, List.mem_flatMap, List.mem_range', List.mem_map, mem_symbolsOfLength, Prod.mk.injEq]
  constructor
  · rintro ⟨k, ⟨i, hi, rfl⟩, s', ⟨hs, hl⟩, rfl, rfl⟩
    refine ⟨hs, hl, by omega, by omega⟩
  · rintro ⟨hs, hl, h0, h45⟩
    exact ⟨l, ⟨l - 1, by omega, by omega⟩, s, ⟨hs, hl⟩, rfl, rfl⟩

theorem length_codeBits (v : CodeWord) (n : Nat) : (codeBits v n).length = n := by simp [codeBits]

/-- Bit j of bits(v, n) is bit n - 1 - j of v (R10). -/
theorem getElem_codeBits (v : CodeWord) (n j : Nat) (h : j < n) :
    (codeBits v n)[j]'(by simpa [length_codeBits] using h) = v.getLsbD (n - 1 - j) := by
  simp [codeBits]

end Sys2Proof.Machine
end

