-- ==== Sys2Proof/Tests/Slice0.lean ====
section
/-! SUPPORT. The model's own tests: the WellFormed smoke tests, decoding written out from the spec's encodings, at most
two tests for each instruction with expected values from spec/95_test_vectors.md, and for every statement with
hypotheses a concrete state that meets them all. -/

namespace Sys2Proof.Tests

open Sys2Proof.Machine Sys2Proof.Safety

/-! ### WellFormed refuses each ill-formed term -/

theorem test_wf_accepts_smallest : (⟨1, 1⟩ : Config).wellFormed = true := by decide
theorem test_wf_accepts_largest : (⟨4294967295, 4294967295⟩ : Config).wellFormed = true := by decide
theorem test_wf_refuses_empty_imem : (⟨0, 1024⟩ : Config).wellFormed = false := by decide
theorem test_wf_refuses_empty_omem : (⟨1024, 0⟩ : Config).wellFormed = false := by decide
theorem test_wf_refuses_huge_imem : (⟨4294967296, 1024⟩ : Config).wellFormed = false := by decide
theorem test_wf_refuses_huge_omem : (⟨1024, 4294967296⟩ : Config).wellFormed = false := by decide
theorem test_wf_refuses_imem_write_outside : (Event.writeImem 1024 0).wellFormed ⟨1024, 1024⟩ = false := by decide
theorem test_wf_refuses_imem_read_outside : (Event.readImem 1024).wellFormed ⟨1024, 1024⟩ = false := by decide
theorem test_wf_refuses_omem_read_outside : (Event.readOmem 1024).wellFormed ⟨1024, 1024⟩ = false := by decide
theorem test_wf_refuses_omem_write : (Event.writeOmem 0 0).wellFormed ⟨1024, 1024⟩ = false := by decide
theorem test_wf_refuses_copy_past_omem : (Event.copy 1025).wellFormed ⟨2048, 1024⟩ = false := by decide
theorem test_wf_refuses_copy_past_imem : (Event.copy 1025).wellFormed ⟨1024, 2048⟩ = false := by decide

/-! ### Decoding: OP is the whole byte (R81 to R84) -/

theorem test_decode_compress : decode 0b00000001 = .ok .compress := by decide
theorem test_decode_decompress : decode 0b00000010 = .ok .decompress := by decide
theorem test_decode_zero : decode 0b00000000 = .error (.reservedCommand 0x00) := by decide
theorem test_decode_three : decode 0b00000011 = .error (.reservedCommand 0x03) := by decide
theorem test_decode_high_bit : decode 0b10000001 = .error (.reservedCommand 0x81) := by decide
theorem test_table_word_compress : decodeTableWord 8 0x01 = some .compress := by decide
theorem test_table_word_decompress : decodeTableWord 8 0x02 = some .decompress := by decide
theorem test_table_word_reserved : decodeTableWord 8 0x03 = none := by decide

/-! ### Small states -/

/-- A buffer that holds the bytes from address 0 on. -/
def load (bs : List Byte) : Buffer := ⟨0, bs.zipIdx.map (fun e => (e.2, e.1))⟩

/-- After reset, with the bytes in IMEM and their number in ILEN. -/
def loaded (bs : List Byte) : State := { State.reset with imem := load bs, ilen := BitVec.ofNat 32 bs.length }

/-- The same in an instance with OMEM_SIZE = n. -/
def loadedSmall (n : Nat) (bs : List Byte) : State := { loaded bs with cfg := ⟨1024, n⟩ }

/-- During an operation, in the given phase. -/
def running (p : Phase) : State := { State.reset with status := packStatus true false .ok, phase := p }

/-- Reset, with the events as what comes next. -/
def script (es : List Event) : State := { State.reset with agenda := es }

/-- The container of vector V2 (the empty input), and the same with another payload byte. -/
def emptyContainer (payload : Byte) : List Byte :=
  MAGIC ++ [0, 0, 0, 0] ++ List.replicate 256 0 ++ [1] ++ [payload]

/-- The header of vector V3 ("AAAA"), with an ORIG_LEN byte of its own. -/
def headerAAAA (n : Byte) : List Byte :=
  MAGIC ++ [0, 0, 0, n] ++ List.replicate 65 0 ++ [1] ++ List.replicate 190 0 ++ [1]

/-- The lengths of vector T3: END_OF_STREAM alone has a code. -/
def lengthsOfEmpty : Table Nat NSYM := Table.set (Table.fill NSYM 0) EOS 1

/-- The outcome is a next state with property p. -/
def answers (o : Host.Outcome State Fault Refusal) (p : State → Bool) : Bool :=
  match o with
  | .next t => p t
  | .fault _ => false
  | .refused _ => false

theorem exists_next {o : Host.Outcome State Fault Refusal} {p : State → Bool} (h : answers o p = true) :
    ∃ t, o = .next t := by
  cases o with
  | next t => exact ⟨t, rfl⟩
  | fault f => cases h
  | refused r => cases h

theorem exists_of_answers {o : Host.Outcome State Fault Refusal} {p : State → Bool} (h : answers o p = true) :
    ∃ t, o = .next t ∧ p t = true := by
  cases o with
  | next t => exact ⟨t, rfl, h⟩
  | fault f => cases h
  | refused r => cases h

/-! ### The two instructions -/

/-- Vector V3: "AAAA" gives STATUS 02, OLEN 266 and the payload byte 08. -/
theorem test_compress_aaaa :
    answers (exec .compress (loaded [0x41, 0x41, 0x41, 0x41]))
      (fun t => t.status == 0x02 && t.olen == 266 && t.omem.read 265 == 0x08) = true := by decide +kernel

/-- R215, R255: with OMEM_SIZE = 265 the container of the empty input does not fit: STATUS 12, OLEN 0. -/
theorem test_compress_full :
    answers (exec .compress (loadedSmall 265 [])) (fun t => t.status == 0x12 && t.olen == 0) = true := by
  decide +kernel

/-- Vector V3 back: payload 08 under the header of "AAAA" gives 41 four times. -/
theorem test_decompress_aaaa :
    answers (exec .decompress (loaded (headerAAAA 4 ++ [0x08])))
      (fun t => t.status == 0x02 && t.olen == 4 && t.rpos == 5 && t.omem.read 3 == 0x41) = true := by
  decide +kernel

/-- Vector E12: the first payload bit 1 has no code: InvalidCode, STATUS 0E. -/
theorem test_decompress_invalid_code :
    answers (exec .decompress (loaded (emptyContainer 0x80))) (fun t => t.status == 0x0E && t.olen == 0) = true := by
  decide +kernel

/-! ### Runs the witnesses share -/

/-- Vector V2: COMPRESS of the empty input in an instance whose OMEM its container just fits. -/
theorem run_compress_empty :
    answers (exec .compress (loadedSmall 266 [])) (fun t => t.status == packStatus false true .ok && t.olen == 266 &&
      t.omem.cells == (load (emptyContainer 0)).cells) = true := by decide +kernel

/-- Vector K2: the container of the empty input decodes. -/
theorem run_decompress_empty :
    answers (exec .decompress (loaded (emptyContainer 0))) (fun t => t.status == packStatus false true .ok) = true := by
  decide +kernel

/-! ### Witnesses: each statement's hypotheses can be met, each clause at its boundary -/

theorem witness_StepRunsDecodedCommand :
    ((script [.command 0x01]).agenda = .command 0x01 :: [] ∧ decode 0x01 = .ok .compress) ∧
      (script [.command 0x02]).agenda = .command 0x02 :: [] ∧ decode 0x02 = .ok .decompress :=
  ⟨⟨rfl, by decide⟩, rfl, by decide⟩

theorem witness_CommandWriteStartsOperation :
    (script [.writeReg 0 0x102]).agenda = .writeReg 0 0x102 :: [] ∧ (script [.writeReg 0 0x102]).busy = false ∧
      decode ((0x102 : Word32).setWidth 8) = .ok .decompress := ⟨rfl, by decide, by decide⟩

theorem witness_ReservedCommandIsBadCommand (v : Word32) (hv : v = 0 ∨ v = 3 ∨ v = 0xFF) :
    v.setWidth 8 ≠ (0x01 : Byte) ∧ v.setWidth 8 ≠ (0x02 : Byte) ∧ (script [.writeReg 0 v]).busy = false ∧
      (script [.writeReg 0 v]).agenda = .writeReg 0 v :: [] ∧
      (script [.command (v.setWidth 8)]).agenda = .command (v.setWidth 8) :: [] := by
  rcases hv with rfl | rfl | rfl <;> exact ⟨by decide, by decide, by decide, rfl, rfl⟩

theorem witness_CommandIgnoredWhileBusy :
    (running .cCount).busy = true ∧
      ({ running .cCount with agenda := [.writeReg 0 1] } : State).agenda = .writeReg 0 1 :: [] ∧
      ({ running .cCount with agenda := [.command 1] } : State).agenda = .command ((1 : Word32).setWidth 8) :: [] :=
  ⟨by decide, rfl, by decide⟩

theorem witness_RegisterMap :
    (∀ n ∈ [0, 1, 2, 3, 4], (script [.readReg n]).agenda = .readReg n :: []) ∧
      (∀ n ∈ [1, 3, 4], (script [.writeReg n 5]).agenda = .writeReg n 5 :: [] ∧ n ≠ 0 ∧ n ≠ 2) ∧
      ((script [.writeReg 2 5]).agenda = .writeReg 2 5 :: [] ∧ (script [.writeReg 2 5]).busy = false) ∧
      ({ running .cCount with agenda := [.writeReg 2 5] } : State).agenda = .writeReg 2 5 :: [] ∧
      (running .cCount).busy = true := by decide +kernel

theorem witness_ResetInputEffect :
    ({ running .dDecode with agenda := [.reset] } : State).agenda = .reset :: [] := rfl

theorem witness_HostBufferAccess :
    (∀ a ∈ [1023, 1024], (script [.writeImem a 7]).agenda = .writeImem a 7 :: [] ∧
        (script [.readImem a]).agenda = .readImem a :: []) ∧
      (∀ a ∈ [1023, 1024],
        ({ running .cCount with agenda := [.writeImem a 7] } : State).agenda = .writeImem a 7 :: []) ∧
      ((script [.readOmem 1024]).agenda = .readOmem 1024 :: [] ∧ (script [.readOmem 1024]).cfg.omemSize ≤ 1024) ∧
      (script [.writeOmem 0 7]).agenda = .writeOmem 0 7 :: [] := by decide +kernel

theorem witness_OmemReadWhileBusyIsUnspecified :
    ((script [.readOmem 1023]).agenda = .readOmem 1023 :: [] ∧ 1023 < (script [.readOmem 1023]).cfg.omemSize ∧
        (script [.readOmem 1023]).busy = false) ∧
      ({ running .cFlush with agenda := [.readOmem 1023] } : State).agenda = .readOmem 1023 :: [] ∧
      (running .cFlush).busy = true := ⟨⟨rfl, by decide, by decide⟩, rfl, by decide⟩

theorem witness_ImemReadsLastWrite :
    (script [.writeImem 1023 7, .readImem 0]).agenda = .writeImem 1023 7 :: .readImem 0 :: [] ∧
      (script [.writeImem 0 7, .readImem 0]).agenda = .writeImem 0 7 :: .readImem 0 :: [] ∧
      (script []).busy = false ∧ 1023 < (script []).cfg.imemSize := ⟨rfl, rfl, by decide, by decide⟩

theorem witness_IdleEngineDoesNothing : State.reset.busy = false ∧ State.reset.agenda = [] := ⟨by decide, rfl⟩

theorem witness_WaitPollsStatus :
    (({ script [.wait] with status := packStatus false true .badCommand } : State).agenda = .wait :: [] ∧
        ({ script [.wait] with status := packStatus false true .badCommand } : State).done = true) ∧
      (({ running .cCanon with agenda := [.wait] } : State).agenda = .wait :: [] ∧
        (running .cCanon).done = false ∧ (running .cCanon).busy = true) ∧
      ∃ t, step ({ running .cCanon with agenda := [.wait] } : State) = .next t :=
  ⟨⟨rfl, by decide⟩, ⟨rfl, by decide, by decide⟩, _, rfl⟩

theorem witness_OutcomeIsSticky :
    (script [.readReg 1]).busy = false ∧ (script [.readReg 1]).agenda = .readReg 1 :: [] ∧
      (∃ t, step (script [.readReg 1]) = .next t) ∧ Event.readReg 1 ≠ .reset ∧
      (∀ c, Event.readReg 1 ≠ .command c) ∧ ∀ v, Event.readReg 1 ≠ .writeReg 0 v :=
  ⟨by decide, rfl, ⟨_, rfl⟩, nofun, nofun, nofun⟩

theorem witness_ResetMeetsInvariant :
    (⟨1, 1⟩ : Config).wellFormed = true ∧ (⟨4294967295, 4294967295⟩ : Config).wellFormed = true := by decide

/-- The invariant holds of the block during an operation. -/
theorem inv_running (p : Phase) (h : p ≠ .idle) (es : List Event) : Inv ({ running p with agenda := es } : State) where
  parameters := (by decide : (⟨1024, 1024⟩ : Config).wellFormed = true)
  status := .inr (.inl rfl)
  idle := ⟨fun k => absurd k h, fun k => absurd k (by simp [running, State.busy, packStatus, ErrCode.toBits])⟩
  olenClear := fun _ => rfl
  optrBound := fun _ => Nat.zero_le _
  ocntBound := fun _ => Nat.zero_le _
  olenBound := Nat.zero_le _
  buffers := reset_wf _
  eras := (by decide : 0 < 2 ∧ 1 < 2 ∧ 0 ≠ 1)

theorem witness_StepKeepsInvariant :
    Inv ({ running .cCanon with agenda := [] } : State) ∧
      ∃ t, step ({ running .cCanon with agenda := [] } : State) = .next t := ⟨inv_running .cCanon nofun [], _, rfl⟩

theorem witness_BusyReadsShowNoResult :
    (Inv ({ running .cCount with agenda := [.readReg 1] } : State) ∧
        Inv ({ running .cCount with agenda := [.readReg 3] } : State)) ∧ (running .cCount).busy = true :=
  ⟨⟨inv_running .cCount nofun _, inv_running .cCount nofun _⟩, by decide⟩

/-- A phase in the middle of an operation and the last phase of each. -/
theorem witness_PhasesInOrder :
    (∀ p ∈ [Phase.cCanon, .cFlush, .dFinish], (running p).phase ≠ .idle) ∧
      (∃ t, enginePhase (running .cCanon) = .next t ∧ t.phase ≠ .idle) ∧
      (∃ t, enginePhase (running .cFlush) = .next t ∧ t.phase = .idle) ∧
      ∃ t, enginePhase (running .dFinish) = .next t ∧ t.phase = .idle :=
  ⟨by decide, ⟨_, rfl, nofun⟩, ⟨_, rfl, rfl⟩, _, rfl, rfl⟩

theorem witness_PhasedRunReachesAtomicResult : (loaded [0x41]).busy = false ∧ (loaded [0x41]).agenda = [] :=
  ⟨by decide, rfl⟩

theorem witness_WaitAfterCommandEnds : (loaded [0x41]).busy = false := by decide

/-- Both sides of the input capacity: ILEN = IMEM_SIZE and ILEN = IMEM_SIZE + 1. -/
theorem witness_CompressCompletes :
    State.reset.busy = false ∧
      ({ State.reset with ilen := 1024 } : State).ilen.toNat ≤ State.reset.cfg.imemSize ∧
      State.reset.cfg.imemSize < ({ State.reset with ilen := 1025 } : State).ilen.toNat := by decide

/-- The container of the empty input has 266 bytes (vector V2): it fits an OMEM of 266 bytes and not one of 265. -/
theorem witness_CompressWritesTheContainer :
    (loadedSmall 266 []).cfg.wellFormed = true ∧ (loadedSmall 265 []).cfg.wellFormed = true ∧
      (loadedSmall 266 []).busy = false ∧ (loadedSmall 266 []).ilen.toNat ≤ (loadedSmall 266 []).cfg.imemSize ∧
      (containerOf (inputBytes (loadedSmall 266 []))).length = 266 := by decide +kernel

theorem witness_EmptyInputContainer :
    (loadedSmall 266 []).cfg.wellFormed = true ∧ (loadedSmall 266 []).busy = false ∧ (loadedSmall 266 []).ilen = 0 ∧
      266 ≤ (loadedSmall 266 []).cfg.omemSize := by decide

/-- The same input beside registers and OMEM left over from something else. -/
def stale (s : State) : State :=
  { s with freq := Table.fill NSYM 9, len := Table.fill NSYM 3, optr := 77, olen := 5, omem := load [1, 2, 3] }

theorem sameInput_stale (s : State) : SameInput s (stale s) := ⟨rfl, rfl, fun _ _ => rfl⟩

theorem witness_CompressDependsOnInputOnly :
    (loadedSmall 266 []).cfg.wellFormed = true ∧ (loadedSmall 266 []).busy = false ∧
      (stale (loadedSmall 266 [])).busy = false ∧ SameInput (loadedSmall 266 []) (stale (loadedSmall 266 [])) ∧
      (∃ t, exec .compress (loadedSmall 266 []) = .next t) ∧
      ∃ t, exec .compress (stale (loadedSmall 266 [])) = .next t :=
  ⟨by decide, by decide, by decide, sameInput_stale _, exists_next run_compress_empty,
    exists_next (p := fun _ => true) (by decide +kernel)⟩

theorem witness_CompressFrame :
    (loadedSmall 266 []).cfg.wellFormed = true ∧ (loadedSmall 266 []).busy = false ∧
      (∃ t, exec .compress (loadedSmall 266 []) = .next t) ∧ (running .cCount).cfg.wellFormed = true ∧
      (running .cCount).busy = true ∧ ∃ t, exec .compress (running .cCount) = .next t :=
  ⟨by decide, by decide, exists_next run_compress_empty, by decide, by decide, _, rfl⟩

theorem witness_DecompressCompletes : (loaded (emptyContainer 0)).busy = false := by decide

/-- Both outcomes: vector K2 (the container of the empty input) decodes, vector E12 does not. -/
theorem witness_DecompressDecodesTheContainer :
    (loaded (emptyContainer 0)).busy = false ∧
      decompressOutcome State.reset.cfg 266 (loaded (emptyContainer 0)).imem.read = .ok [] ∧
      decompressOutcome State.reset.cfg 266 (loaded (emptyContainer 0x80)).imem.read = .error .invalidCode :=
  ⟨by decide, by decide +kernel, by decide +kernel⟩

/-- The container of "AAAA" and the same with pad bits set and a trailing byte (vectors K4, K5). -/
theorem witness_TrailingDataIgnored :
    ∃ t, exec .decompress (loaded (headerAAAA 4 ++ [0x08])) = .next t ∧ t.status = packStatus false true .ok ∧
      HDR_LEN + (t.rpos + 7) / 8 ≤ (loaded (headerAAAA 4 ++ [0x0B, 0xFF])).ilen.toNat ∧
      (∀ a, a < HDR_LEN → (loaded (headerAAAA 4 ++ [0x0B, 0xFF])).imem.read a =
        (loaded (headerAAAA 4 ++ [0x08])).imem.read a) ∧
      ∀ k, k < t.rpos →
        msbFirstBit ((loaded (headerAAAA 4 ++ [0x0B, 0xFF])).imem.read (HDR_LEN + k / 8)) k =
          msbFirstBit ((loaded (headerAAAA 4 ++ [0x08])).imem.read (HDR_LEN + k / 8)) k := by
  obtain ⟨t, ht, hp⟩ := exists_of_answers test_decompress_aaaa
  simp only [Bool.and_eq_true, beq_iff_eq] at hp
  refine ⟨t, ht, hp.1.1.1, ?_, by decide +kernel, ?_⟩ <;> rw [hp.1.2] <;> decide +kernel

theorem witness_DecompressDependsOnInputOnly :
    (loaded (emptyContainer 0)).busy = false ∧ (stale (loaded (emptyContainer 0))).busy = false ∧
      SameInput (loaded (emptyContainer 0)) (stale (loaded (emptyContainer 0))) ∧
      (∃ t, exec .decompress (loaded (emptyContainer 0)) = .next t) ∧
      ∃ t, exec .decompress (stale (loaded (emptyContainer 0))) = .next t :=
  ⟨by decide, by decide, sameInput_stale _, exists_next run_decompress_empty,
    exists_next (p := fun _ => true) (by decide +kernel)⟩

theorem witness_DecompressFrame :
    (∃ t, exec .decompress (loaded (emptyContainer 0)) = .next t ∧ t.status = packStatus false true .ok) ∧
      (loaded (emptyContainer 0)).busy = false ∧ (running .dTree).busy = true ∧
      ∃ t, exec .decompress (running .dTree) = .next t := by
  refine ⟨?_, by decide, by decide, _, rfl⟩
  obtain ⟨t, ht, hp⟩ := exists_of_answers run_decompress_empty
  exact ⟨t, ht, by simpa using hp⟩

theorem witness_InputTooLongIsIoFailure :
    ({ State.reset with ilen := 1025 } : State).busy = false ∧
      State.reset.cfg.imemSize < ({ State.reset with ilen := 1025 } : State).ilen.toNat := by decide

/-- A container of 264 bytes is one byte too short for a header; the header of "AAAA" is accepted with an OMEM of 4
bytes, which its ORIG_LEN fits, and of 3 bytes, which it exceeds. -/
theorem witness_HeaderErrors :
    (loaded (List.replicate 264 0)).busy = false ∧
      (loaded (List.replicate 264 0)).ilen.toNat ≤ State.reset.cfg.imemSize ∧
      ¬ HeaderAccepted (loaded (List.replicate 264 0)).ilen.toNat (loaded (List.replicate 264 0)).imem.read ∧
      HeaderAccepted (loaded (headerAAAA 4)).ilen.toNat (loaded (headerAAAA 4)).imem.read ∧
      (loadedSmall 3 (headerAAAA 4)).cfg.omemSize < origLen (loaded (headerAAAA 4)).imem.read := by
  refine ⟨by decide +kernel, by decide +kernel, fun h => absurd h.1 (by decide +kernel), ?_, by decide +kernel⟩
  unfold HeaderAccepted
  decide +kernel

theorem witness_FailureLeavesNoResult :
    (loadedSmall 265 []).busy = false ∧
      ∃ t, exec .compress (loadedSmall 265 []) = .next t ∧ t.status ≠ packStatus false true .ok := by
  refine ⟨by decide, ?_⟩
  obtain ⟨t, ht, hp⟩ := exists_of_answers test_compress_full
  simp only [Bool.and_eq_true, beq_iff_eq] at hp
  exact ⟨t, ht, by rw [hp.1]; decide⟩

/-- The empty input in an instance whose buffers its container just fits, and the state with the container in IMEM. -/
theorem witness_RoundTrip :
    (loadedSmall 266 []).cfg.wellFormed = true ∧ (loadedSmall 266 []).busy = false ∧
      (loadedSmall 266 []).ilen.toNat ≤ (loadedSmall 266 []).cfg.imemSize ∧
      (loadedSmall 266 []).ilen.toNat ≤ (loadedSmall 266 []).cfg.omemSize ∧
      (containerOf (inputBytes (loadedSmall 266 []))).length ≤ min 1024 266 ∧
      ∃ t, exec .compress (loadedSmall 266 []) = .next t ∧
        (loadedSmall 266 (emptyContainer 0)).busy = false ∧
        (loadedSmall 266 (emptyContainer 0)).cfg = (loadedSmall 266 []).cfg ∧
        (loadedSmall 266 (emptyContainer 0)).ilen = t.olen ∧
        ∀ a, a < t.olen.toNat → (loadedSmall 266 (emptyContainer 0)).imem.read a = t.omem.read a := by
  refine ⟨by decide, by decide, by decide, by decide, by decide +kernel, ?_⟩
  obtain ⟨t, ht, hp⟩ := exists_of_answers run_compress_empty
  simp only [Bool.and_eq_true, beq_iff_eq] at hp
  refine ⟨t, ht, by decide, rfl, by rw [hp.1.2]; decide +kernel, fun a ha => ?_⟩
  rw [hp.1.2] at ha
  have hc : (lookupCell (load (emptyContainer 0)).cells a).isSome = true :=
    (by decide +kernel : ∀ a, a < 266 → (lookupCell (load (emptyContainer 0)).cells a).isSome = true) a ha
  obtain ⟨v, hv⟩ := Option.isSome_iff_exists.1 hc
  show Buffer.read (load (emptyContainer 0)) a = _
  unfold Buffer.read
  rw [hp.2, hv]
  rfl

/-- The container of the empty input cut to 265 bytes (header intact) and to 264 (header cut). -/
theorem witness_TruncationDetected :
    (loadedSmall 266 []).cfg.wellFormed = true ∧ (loadedSmall 266 []).busy = false ∧
      (loadedSmall 266 []).ilen.toNat ≤ (loadedSmall 266 []).cfg.imemSize ∧
      (loadedSmall 266 []).ilen.toNat ≤ (loadedSmall 266 []).cfg.omemSize ∧
      ∃ t, exec .compress (loadedSmall 266 []) = .next t ∧ t.status = packStatus false true .ok ∧
        ∀ k ∈ [264, 265], (loadedSmall 266 ((emptyContainer 0).take k)).ilen.toNat < t.olen.toNat ∧
          (loadedSmall 266 ((emptyContainer 0).take k)).cfg = (loadedSmall 266 []).cfg ∧
          (loadedSmall 266 ((emptyContainer 0).take k)).busy = false ∧
          ∀ a, a < k → lookupCell (loadedSmall 266 ((emptyContainer 0).take k)).imem.cells a =
            lookupCell t.omem.cells a := by
  refine ⟨by decide, by decide, by decide, by decide, ?_⟩
  obtain ⟨t, ht, hp⟩ := exists_of_answers run_compress_empty
  simp only [Bool.and_eq_true, beq_iff_eq] at hp
  refine ⟨t, ht, hp.1.1, ?_⟩
  rw [hp.1.2, hp.2]
  decide +kernel

/-- A loaded state is within the widths. -/
theorem withinWidths_loaded : WithinWidths (loadedSmall 266 []) := by
  constructor
  case records | nnext | root | dnext | dcur | iptr | optr | rpos | tbits | paylen | osize | cacc | norig | ocnt
    | kraft | wcnt => decide
  all_goals
    intro i hi
    simp [loadedSmall, loaded, State.reset, State.resetOf, NodeStore.zero, Table.get, hi]

theorem witness_NoRegisterOverflows :
    (loadedSmall 266 []).cfg.wellFormed = true ∧ (loadedSmall 266 []).busy = false ∧
      WithinWidths (loadedSmall 266 []) ∧ ∃ t, exec .compress (loadedSmall 266 []) = .next t :=
  ⟨by decide, by decide, withinWidths_loaded, exists_next run_compress_empty⟩

theorem witness_FrequenciesAreCounts :
    ({ State.reset with ilen := 1024 } : State).ilen.toNat ≤ State.reset.cfg.imemSize := by decide

/-- A node store with the leaves 65 (weight 4) and 256 (weight 1) live (vector V3). -/
def storeAAAA : NodeStore :=
  tbInit (Table.set (Table.set (Table.fill NSYM 0) 65 4) EOS 1) NodeStore.zero

theorem witness_LeastNodeIsExtracted :
    (∃ d', tbXmin storeAAAA = .ok (256, d')) ∧ 513 < NNODE ∧
      Table.get ({ storeAAAA with nlive := Table.set storeAAAA.nlive 513 true } : NodeStore).nlive 513 false = true := by
  refine ⟨?_, by decide, by decide +kernel⟩
  have h : (match tbXmin storeAAAA with | .ok (i, _) => i == 256 | .error _ => false) = true := by decide +kernel
  split at h
  · next i d' heq => exact ⟨d', by rw [heq, eq_of_beq h]⟩
  · cases h

theorem witness_MergeJoinsTheTwoLeast : 2 ≤ storeAAAA.liveCount ∧ storeAAAA.nnext < NNODE := by decide +kernel

theorem witness_BuildEndsInOneTree :
    0 < Table.get ({ State.reset with freq := fcClear } : State).freq EOS 0 := by decide +kernel

theorem witness_CodeLengthsAreTreeDepths :
    (loaded [0x41]).busy = false ∧ (loaded [0x41]).ilen.toNat ≤ (loaded [0x41]).cfg.imemSize := by decide

theorem witness_LongestCodeIsFortyFiveBits :
    ({ State.reset with ilen := 1024 } : State).busy = false ∧
      ({ State.reset with ilen := 1024 } : State).ilen.toNat ≤ State.reset.cfg.imemSize := by decide

/-- Both cases of the Kraft sum: the empty input and one byte. -/
theorem witness_EncoderKraftSum :
    ((loaded []).busy = false ∧ (loaded []).ilen.toNat ≤ 1024 ∧ (loaded []).ilen.toNat = 0) ∧
      (loaded [0x41]).busy = false ∧ (loaded [0x41]).ilen.toNat ≤ 1024 ∧ (loaded [0x41]).ilen.toNat ≠ 0 := by decide

theorem canonPrecondition_of (t : Table Nat NSYM) (h1 : ∀ i, i < NSYM → Table.get t i 0 ≤ L_MAX)
    (h2 : kraftSum t ≤ 2 ^ L_MAX) : CanonPrecondition t := ⟨h1, h2⟩

/-- The lengths of vector T4: the code space is not used up. -/
def lengthsHalf : Table Nat NSYM := Table.set (Table.set (Table.fill NSYM 0) 65 2) EOS 2

theorem canonPrecondition_half : CanonPrecondition lengthsHalf :=
  canonPrecondition_of _ (by decide +kernel) (by decide +kernel)

/-- The longest legal length everywhere (vector T5). -/
theorem canonPrecondition_longest : CanonPrecondition (Table.fill NSYM 45) :=
  ⟨fun i hi => by simp [Table.get, Table.fill, hi], by decide +kernel⟩

/-- Two coded symbols in canonical order, one uncoded symbol, and the longest legal length everywhere (T5). -/
theorem witness_CanonicalCodesStepForm :
    CanonPrecondition lengthsHalf ∧ (canonicalOrder lengthsHalf)[0]? = some (65, 2) ∧
      (canonicalOrder lengthsHalf)[1]? = some (256, 2) ∧ Table.get lengthsHalf 66 0 = 0 ∧
      CanonPrecondition (Table.fill NSYM 45) :=
  ⟨canonPrecondition_half, by decide +kernel, by decide +kernel, by decide +kernel,
    canonPrecondition_longest⟩

theorem witness_CanonicalCodesArePrefixFree :
    CanonPrecondition lengthsHalf ∧ 0 < Table.get lengthsHalf 65 0 ∧ 0 < Table.get lengthsHalf 256 0 ∧
      canonicallyBefore (lengths lengthsHalf) 65 256 = true :=
  ⟨canonPrecondition_half, by decide +kernel, by decide +kernel, by decide +kernel⟩

theorem witness_HeaderEmission : HDR_LEN ≤ (loadedSmall 265 []).cfg.omemSize := by decide

theorem witness_HeaderParseResult :
    (loadedSmall 4 (headerAAAA 4)).ilen.toNat ≤ (loadedSmall 4 (headerAAAA 4)).cfg.imemSize ∧
      HeaderAccepted (loadedSmall 4 (headerAAAA 4)).ilen.toNat (loadedSmall 4 (headerAAAA 4)).imem.read ∧
      origLen (loadedSmall 4 (headerAAAA 4)).imem.read ≤ (loadedSmall 4 (headerAAAA 4)).cfg.omemSize ∧
      ∃ t, ccParse (loadedSmall 4 (headerAAAA 4)) = .ok t := by
  refine ⟨by decide +kernel, ?_, by decide +kernel, ?_⟩
  · unfold HeaderAccepted
    decide +kernel
  · have h : (match ccParse (loadedSmall 4 (headerAAAA 4)) with | .ok _ => true | .error _ => false) = true := by
      decide +kernel
    split at h
    · next t heq => exact ⟨t, heq⟩
    · cases h

/-- Under the lengths of T4: 0 is within a code, 00 and 01 are codes, 1 is outside. -/
theorem witness_DecodeTreeAnswersTheCode :
    CanonPrecondition ({ State.reset with len := lengthsHalf } : State).len ∧
      readingOf (lengths lengthsHalf) [false] = .within ∧
      readingOf (lengths lengthsHalf) [false, true] = .symbol 256 ∧
      readingOf (lengths lengthsHalf) [true] = .outside ∧
      (∀ q : List Bool, q <+: [true] → q ≠ [] → q ≠ [true] → readingOf (lengths lengthsHalf) q = .within) := by
  refine ⟨canonPrecondition_half, by decide +kernel, by decide +kernel, by decide +kernel, fun q hq h0 h1 => ?_⟩
  rcases List.prefix_cons_iff.1 hq with h | ⟨l, rfl, hl⟩
  · exact absurd h h0
  · exact absurd (by rw [List.prefix_nil.1 hl]) h1

theorem witness_DecodeTreeFitsItsStore :
    CanonPrecondition ({ State.reset with len := Table.fill NSYM 45 } : State).len :=
  canonPrecondition_longest

/-- Seven bits need no byte of OMEM beyond the header, eight need one. -/
theorem witness_WriterPacksBits :
    ({ loadedSmall 265 [] with optr := 265 } : State).optr = 265 ∧
      265 + (List.replicate 7 true).length / 8 ≤ (loadedSmall 265 []).cfg.omemSize ∧
      265 + (List.replicate 8 true).length / 8 ≤ (loadedSmall 266 []).cfg.omemSize := by decide

theorem witness_FlushCompletesThePacking :
    ({ loadedSmall 266 [] with optr := 265 } : State).optr = 265 ∧
      265 + ((List.replicate 8 true).length + 7) / 8 ≤ (loadedSmall 266 []).cfg.omemSize ∧
      265 + ((List.replicate 9 true).length + 7) / 8 ≤ (loadedSmall 267 []).cfg.omemSize := by decide

/-- Vector B3: the twelve bits 0000 0101 1011 are the bytes 05 B0. -/
theorem witness_ReaderReturnsPackedBits :
    let bits := [false, false, false, false, false, true, false, true, true, false, true, true]
    let s := { loaded (emptyContainer 0x05 ++ [0xB0]) with paylen := 2 }
    s.paylen = (bits.length + 7) / 8 ∧ 265 + s.paylen ≤ s.cfg.imemSize ∧ 0 < 8 * s.paylen ∧
      ∀ j, j < s.paylen → s.imem.read (265 + j) = (packBits bits).getD j 0 := by decide +kernel

/-- Every clause at its bounds: n = 0 and the whole buffer, one byte more than each buffer, and the same while busy. -/
theorem witness_CopyMovesOmemToImem :
    (∀ n ∈ [0, 1024, 1025], (script [.copy n]).agenda = .copy n :: [] ∧
        ({ running .dTree with agenda := [.copy n] } : State).agenda = .copy n :: []) ∧
      (1024 ≤ (script []).cfg.omemSize ∧ 1024 ≤ (script []).cfg.imemSize ∧ (script []).busy = false) ∧
      (script []).cfg.omemSize < 1025 ∧
      (({ script [.copy 1025] with cfg := ⟨1024, 2048⟩ } : State).agenda = .copy 1025 :: [] ∧
        1025 ≤ ({ script [.copy 1025] with cfg := ⟨1024, 2048⟩ } : State).cfg.omemSize ∧
        ({ script [.copy 1025] with cfg := ⟨1024, 2048⟩ } : State).cfg.imemSize < 1025) ∧
      (running .dTree).busy = true := by decide +kernel

end Sys2Proof.Tests
end

section
/-! PROOFS. Every step keeps the invariant of a state (O17). During an operation the clauses of `Inv` that do not speak
of PHASE or of a pointer hold together (`Active`); each unit of the engine keeps them, and each phase that ends leads
from there back to `Inv`. -/

namespace Sys2Proof.Safety

open Sys2Proof.Machine

/-! ### The invariant during an operation -/

/-- The clauses of `Inv` during an operation that speak of neither PHASE, OPTR nor OCNT. It is a plain conjunction, so
that it is the same proposition of two states that differ only in other registers. -/
def Active (s : State) : Prop :=
  s.cfg.wellFormed = true ∧ s.status = packStatus true false .ok ∧ s.olen = 0 ∧ Memory.wf s = true ∧
    (s.imem.era < s.fresh ∧ s.omem.era < s.fresh ∧ s.imem.era ≠ s.omem.era)

/-- Moreover OPTR is inside the output buffer (R41): from C_HEADER on, and in D_DECODE. -/
def Bounded (s : State) : Prop := Active s ∧ s.optr ≤ s.cfg.omemSize

/-- Moreover OCNT counts the bytes emitted, as it does in D_DECODE (R230). -/
def Counted (s : State) : Prop := Bounded s ∧ s.ocnt = s.optr

theorem buffers_iff {s : State} :
    Memory.wf s = true ↔ s.imem.wf s.cfg.imemSize = true ∧ s.omem.wf s.cfg.omemSize = true := by
  rw [Memory.wf, Bool.and_eq_true]

theorem status_of_busy {s : State} (h : Inv s) (hb : s.busy = true) : s.status = packStatus true false .ok := by
  rcases h.status with hs | hs | ⟨e, hs⟩
  · rw [State.busy_eq hs] at hb; cases hb
  · exact hs
  · rw [State.busy_eq hs] at hb; cases hb

theorem Inv.active {s : State} (h : Inv s) (hp : s.phase ≠ .idle) : Active s := by
  have hs := status_of_busy h (by simpa using mt h.idle.2 hp)
  refine ⟨h.parameters, hs, h.olenClear ?_, h.buffers, h.eras⟩
  rw [hs]; decide

theorem Active.inv {t : State} (h : Active t) (hp : t.phase ≠ .idle)
    (ho : t.phase ∈ [.cPayload, .cFlush, .dFinish] → t.optr ≤ t.cfg.omemSize)
    (hc : t.phase = .dFinish → t.ocnt ≤ t.cfg.omemSize) : Inv t := by
  obtain ⟨hcfg, hs, holen, hwf, heras⟩ := h
  have hok : t.status ≠ packStatus false true .ok := by rw [hs]; decide
  refine ⟨hcfg, .inr (.inl hs), ?_, fun _ => holen, fun k => ho ?_, hc, by simp [holen], hwf, heras⟩
  · simp [hp, State.busy_eq hs]
  · simpa [hok] using k

/-- A phase before those that find OPTR or OCNT written needs no bound. -/
theorem Active.inv_early {t : State} (p : Phase) (h : Active t) (hp : t.phase = p)
    (hearly : p ∉ [.idle, .cPayload, .cFlush, .dFinish]) : Inv t := by
  subst hp
  simp only [List.mem_cons, not_or] at hearly
  obtain ⟨hidle, hpay, hflush, hfin, -⟩ := hearly
  exact h.inv hidle (by simp [hpay, hflush, hfin]) (fun k => absurd k hfin)

/-- `raise E` with an error's code leads to the invariant (R262). -/
theorem raiseError_inv {s : State} {e : ErrCode} (he : e ≠ .ok) (hcfg : s.cfg.wellFormed = true)
    (hwf : Memory.wf s = true) (heras : s.imem.era < s.fresh ∧ s.omem.era < s.fresh ∧ s.imem.era ≠ s.omem.era) :
    Inv (raiseError e s) := by
  refine ⟨hcfg, .inr (.inr ⟨e, rfl⟩), by simp, fun _ => rfl, fun k => ?_, nofun, Nat.zero_le _, hwf, heras⟩
  simp [packStatus_inj, he] at k

theorem Active.raiseError_inv {s : State} {e : ErrCode} (h : Active s) (he : e ≠ .ok) : Inv (raiseError e s) := by
  obtain ⟨hcfg, -, -, hwf, heras⟩ := h
  exact Safety.raiseError_inv he hcfg hwf heras

theorem Active.forgetOmem {s : State} (h : Active s) : Active s.forgetOmem := by
  obtain ⟨hcfg, hs, holen, hwf, himem, -, -⟩ := h
  exact ⟨hcfg, hs, holen, forgetOmem_wf hwf, Nat.lt_succ_of_lt himem, Nat.lt_succ_self _, himem.ne⟩

/-- A completion inside the output buffer leads back to the invariant (R218, R231). -/
theorem Bounded.completeOperation_inv {s : State} (h : Bounded s) {n : Nat} (hn : n ≤ s.cfg.omemSize) :
    Inv (completeOperation n s) := by
  obtain ⟨⟨hcfg, -, -, hwf, heras⟩, hoptr⟩ := h
  refine ⟨hcfg, .inr (.inr ⟨.ok, rfl⟩), by simp, fun k => absurd rfl k, fun _ => hoptr, nofun, ?_, hwf, heras⟩
  simpa using (Nat.mod_le _ _).trans hn

/-! ### How a unit ends -/

/-- A unit that runs inside an operation ends with `P`, or raises an error from an active state, or stops with a fault. -/
def Ends (P : State → Prop) : Except Stop State → Prop
  | .ok t => P t
  | .error (.raise e t) => e ≠ .ok ∧ Active t
  | .error (.fault _) => True

theorem Ends.of_ok {P : State → Prop} {r : Except Stop State} {t : State} (h : Ends P r) (hr : r = .ok t) : P t := by
  subst hr; exact h

theorem Ends.of_error {P Q : State → Prop} {r : Except Stop State} {e : Stop} (h : Ends P r) (hr : r = .error e) :
    Ends Q (.error e) := by
  subst hr
  cases e with
  | fault f => trivial
  | raise e t => exact h

theorem Ends.of_fault {P : State → Prop} {e : Stop} (h : ∃ f, e = .fault f) : Ends P (.error e) := by
  obtain ⟨f, rfl⟩ := h; trivial

theorem endCompressPhase_inv {r : Except Stop State} {t : State} (h : Ends Inv r)
    (ht : endCompressPhase r = .next t) : Inv t := by
  rcases r with (f | ⟨e, u⟩) | u
  · cases ht
  · obtain ⟨he, hu⟩ := h
    injection ht with ht; exact ht ▸ hu.raiseError_inv he
  · injection ht with ht; exact ht ▸ h

theorem endDecompressPhase_inv {r : Except Stop State} {t : State} (h : Ends Inv r)
    (ht : endDecompressPhase r = .next t) : Inv t := by
  rcases r with (f | ⟨e, u⟩) | u
  · cases ht
  · obtain ⟨he, hu⟩ := h
    injection ht with ht; exact ht ▸ hu.forgetOmem.raiseError_inv he
  · injection ht with ht; exact ht ▸ h

/-! ### Bytes and bits that go out -/

/-- Bytes written inside the output buffer keep the active state, OPTR going past them. -/
theorem Active.writeAll {s : State} (h : Active s) {vs : List Byte} (hle : s.optr + vs.length ≤ s.cfg.omemSize) :
    Bounded { s with omem := s.omem.writeAll s.optr vs, optr := s.optr + vs.length } := by
  obtain ⟨hcfg, hs, holen, hwf, heras⟩ := h
  obtain ⟨himem, homem⟩ := buffers_iff.1 hwf
  exact ⟨⟨hcfg, hs, holen, buffers_iff.2 ⟨himem, Buffer.wf_writeAll homem hle⟩, by simpa using heras⟩, hle⟩

theorem Active.emitByte_bounded {s t : State} {v : Byte} (h : Active s) (ht : emitByte s v = .ok t) :
    Bounded t := by
  obtain ⟨hlt, rfl⟩ := emitByte_ok ht
  exact h.writeAll (vs := [v]) hlt

theorem emitBytes_bounded {s t : State} {vs : List Byte} (h : Active s) (hoptr : s.optr ≤ s.cfg.omemSize)
    (ht : emitBytes vs s = .ok t) : Bounded t := by
  obtain ⟨hle, rfl⟩ := emitBytes_ok ht hoptr
  exact h.writeAll hle

theorem bwPutBit_ends {s : State} {b : Bool} (h : Bounded s) : Ends Bounded (bwPutBit s b) := by
  unfold bwPutBit
  dsimp only
  split
  · split
    · next t ht =>
      have ht' : Bounded t := h.1.emitByte_bounded ht
      exact ht'
    · next e he => exact .of_fault ⟨_, emitByte_error he⟩
  · exact h

theorem bwPutBits_ends {bs : List Bool} {s : State} (h : Bounded s) : Ends Bounded (bwPutBits bs s) := by
  induction bs generalizing s with
  | nil => exact h
  | cons b bs ih =>
    unfold bwPutBits
    split
    · next t ht => exact ih ((bwPutBit_ends h).of_ok ht)
    · next e he => exact (bwPutBit_ends h).of_error he

theorem bwFlush_ends {s : State} (h : Bounded s) : Ends Bounded (bwFlush s) := by
  unfold bwFlush
  split
  · split
    · next t ht =>
      have ht' : Bounded t := h.1.emitByte_bounded ht
      exact ht'
    · next e he => exact .of_fault ⟨_, emitByte_error he⟩
  · exact h

/-! ### The phases of COMPRESS -/

theorem cStart_ends {s : State} (h : Active s) : Ends Inv (cStart s) := by
  unfold cStart
  split
  · exact ⟨nofun, h⟩
  · exact Active.inv_early .cCount h rfl (by decide)

theorem cCount_ends {s : State} (h : Active s) : Ends Inv (cCount s) := by
  unfold cCount
  split
  · next t ht =>
    obtain ⟨f, -, rfl⟩ := fcCount_ok ht
    exact Active.inv_early .cBuild h rfl (by decide)
  · next e he =>
    unfold fcCount at he
    split at he
    · cases he
    · next e' he' =>
      obtain ⟨a, rfl⟩ := fcCountLoop_error he'
      injection he with he
      exact .of_fault ⟨_, he.symm⟩

theorem cBuild_ends {s : State} (h : Active s) : Ends Inv (cBuild s) := by
  unfold cBuild
  split
  · next t ht =>
    obtain ⟨d, -, rfl⟩ := tbBuild_ok ht
    exact Active.inv_early .cDepth h rfl (by decide)
  · next e he =>
    unfold tbBuild at he
    split at he
    · cases he
    · next e' he' =>
      injection he with he
      exact .of_fault (he ▸ tbMergeLoop_error he')

theorem cDepth_ends {s : State} (h : Active s) : Ends Inv (cDepth s) := Active.inv_early .cCanon h rfl (by decide)

theorem cCanon_ends {s : State} (h : Active s) : Ends Inv (cCanon s) := Active.inv_early .cSize h rfl (by decide)

theorem cSize_ends {s : State} (h : Active s) : Ends Inv (cSize s) := by
  unfold cSize
  dsimp only
  split
  · exact ⟨nofun, h⟩
  · exact Active.inv_early .cHeader h rfl (by decide)

theorem cHeader_ends {s : State} (h : Active s) : Ends Inv (cHeader s) := by
  unfold cHeader ccEmit
  split
  · next t ht =>
    obtain ⟨hactive, hoptr⟩ : Bounded t := emitBytes_bounded (s := { s with optr := 0 }) h (Nat.zero_le _) ht
    exact Active.inv hactive nofun (fun _ => hoptr) nofun
  · next e he =>
    obtain ⟨a, rfl⟩ := emitBytes_error he
    trivial

theorem cPayloadLoop_ends {n : Nat} {s : State} (h : Bounded s) : Ends Bounded (cPayloadLoop n s) := by
  induction n generalizing s with
  | zero => exact h
  | succ n ih =>
    unfold cPayloadLoop
    split
    · next e he => exact .of_fault ⟨_, memReadImem_error he⟩
    · next b hb =>
      split
      · next t ht =>
        have ht' : Bounded t := (bwPutBits_ends h).of_ok ht
        exact ih ht'
      · next e he => exact (bwPutBits_ends h).of_error he

theorem cPayload_ends {s : State} (h : Bounded s) : Ends Inv (cPayload s) := by
  have hloop := cPayloadLoop_ends (n := s.ilen.toNat) (s := { bwInit s with iptr := 0 }) h
  unfold cPayload
  split
  · next e he => exact hloop.of_error he
  · next t ht =>
    have ht' : Bounded t := hloop.of_ok ht
    split
    · next u hu =>
      obtain ⟨hactive, hoptr⟩ : Bounded u := (bwPutBits_ends ht').of_ok hu
      exact Active.inv hactive nofun (fun _ => hoptr) nofun
    · next e he => exact (bwPutBits_ends ht').of_error he

theorem cFlush_ends {s : State} (h : Bounded s) : Ends Inv (cFlush s) := by
  unfold cFlush
  split
  · next t ht =>
    have ht' : Bounded t := (bwFlush_ends h).of_ok ht
    exact ht'.completeOperation_inv ht'.2
  · next e he => exact (bwFlush_ends h).of_error he

/-! ### The phases of DECOMPRESS -/

theorem ccTag_ends {vs : List Byte} {s : State} (h : Active s) : Ends Active (ccTag vs s) := by
  induction vs generalizing s with
  | nil => exact h
  | cons v vs ih =>
    unfold ccTag
    split
    · split
      · exact ih h
      · exact ⟨nofun, h⟩
    · next e he => exact .of_fault ⟨_, memReadImem_error he⟩

theorem ccOrigLen_ends {n : Nat} {s : State} (h : Active s) : Ends Active (ccOrigLen n s) := by
  induction n generalizing s with
  | zero => exact h
  | succ n ih =>
    unfold ccOrigLen
    split
    · exact ih h
    · next e he => exact .of_fault ⟨_, memReadImem_error he⟩

theorem ccLenTab_ends {n sym : Nat} {s : State} (h : Active s) : Ends Active (ccLenTab n sym s) := by
  induction n generalizing s sym with
  | zero => exact h
  | succ n ih =>
    unfold ccLenTab
    split
    · split
      · exact ⟨nofun, h⟩
      · exact ih h
    · next e he => exact .of_fault ⟨_, memReadImem_error he⟩

theorem ccChecks_ends {s : State} (h : Active s) : Ends Active (ccChecks s) := by
  have hregs : ∀ k p, Active { s with kraft := k, paylen := p } := fun _ _ => h
  unfold ccChecks
  dsimp only
  split
  · exact ⟨nofun, h⟩
  · split
    · exact ⟨nofun, h⟩
    · split
      · exact ⟨nofun, h⟩
      · exact hregs _ _

theorem ccParse_ends {s : State} (h : Active s) : Ends Active (ccParse s) := by
  unfold ccParse
  split
  · exact ⟨nofun, h⟩
  · have htag := ccTag_ends (vs := MAGIC) (s := { s with iptr := 0 }) h
    split
    · next e he => exact htag.of_error he
    · next s1 h1 =>
      have ha1 : Active s1 := htag.of_ok h1
      have horig := ccOrigLen_ends (n := 4) (s := { s1 with norig := 0 }) ha1
      split
      · next e he => exact horig.of_error he
      · next s2 h2 =>
        have htab := ccLenTab_ends (n := NSYM) (sym := 0) (horig.of_ok h2)
        split
        · next e he => exact htab.of_error he
        · next s3 h3 => exact ccChecks_ends (htab.of_ok h3)

theorem dStart_ends {s : State} (h : Active s) : Ends Inv (dStart s) := by
  unfold dStart
  split
  · exact ⟨nofun, h⟩
  · exact Active.inv_early .dHeader h rfl (by decide)

theorem dHeader_ends {s : State} (h : Active s) : Ends Inv (dHeader s) := by
  unfold dHeader
  split
  · next t ht =>
    have ht' : Active t := (ccParse_ends h).of_ok ht
    exact Active.inv_early .dCanon ht' rfl (by decide)
  · next e he => exact (ccParse_ends h).of_error he

theorem dCanon_ends {s : State} (h : Active s) : Ends Inv (dCanon s) := Active.inv_early .dTree h rfl (by decide)

theorem dTree_ends {s : State} (h : Active s) : Ends Inv (dTree s) := by
  unfold dTree ccTree
  split
  · next t ht =>
    split at ht
    · injection ht with ht; subst ht
      exact Active.inv_early .dDecode h rfl (by decide)
    · cases ht
  · next e he =>
    split at he
    · cases he
    · next e' he' =>
      injection he with he
      exact .of_fault (he ▸ ccInsertAll_error he')

theorem dEmit_ends {sym : Nat} {s : State} (h : Counted s) : Ends Counted (dEmit sym s) := by
  obtain ⟨hb, hcount⟩ := h
  unfold dEmit
  split
  · exact ⟨nofun, hb.1⟩
  · split
    · next t ht =>
      have hb' : Bounded t := hb.1.emitByte_bounded ht
      obtain ⟨-, rfl⟩ := emitByte_ok ht
      exact ⟨hb', congrArg (· + 1) hcount⟩
    · next e he => exact .of_fault ⟨_, emitByte_error he⟩

theorem brGetBit_counted {s t : State} {o : Option Bool} (h : Counted s) (ht : brGetBit s = .ok (o, t)) :
    Counted t := by
  rcases brGetBit_ok ht with ⟨-, rfl, -⟩ | ⟨-, -, -, rfl⟩
  · exact h
  · exact h

theorem dDecodeLoop_ends {n : Nat} {s : State} (h : Counted s) : Ends Counted (dDecodeLoop n s) := by
  induction n generalizing s with
  | zero => exact ⟨nofun, h.1.1⟩
  | succ n ih =>
    unfold dDecodeLoop
    split
    · next e he => exact .of_fault (brGetBit_error he)
    · next t ht => exact ⟨nofun, (brGetBit_counted h ht).1.1⟩
    · next b t ht =>
      have ht' : Counted t := brGetBit_counted h ht
      split
      · trivial
      · split
        · exact ⟨nofun, ht'.1.1⟩
        · exact ih ht'
        · next sym _ =>
          split
          · exact ht'
          · split
            · next u hu =>
              have hu' : Counted u := (dEmit_ends ht').of_ok hu
              exact ih hu'
            · next e he => exact (dEmit_ends ht').of_error he

theorem dDecode_ends {s : State} (h : Active s) : Ends Inv (dDecode s) := by
  have hloop := dDecodeLoop_ends (n := 8 * s.paylen + 1)
    (s := { brInit s with ocnt := 0, optr := 0, dec := { s.dec with dcur := 0 } }) ⟨⟨h, Nat.zero_le _⟩, rfl⟩
  unfold dDecode
  split
  · next t ht =>
    obtain ⟨⟨hactive, hoptr⟩, hcount⟩ : Counted t := hloop.of_ok ht
    exact Active.inv hactive nofun (fun _ => hoptr) (fun _ => hcount.trans_le hoptr)
  · next e he => exact hloop.of_error he

theorem dFinish_ends {s : State} (h : Bounded s) (hc : s.ocnt ≤ s.cfg.omemSize) : Ends Inv (dFinish s) := by
  unfold dFinish
  split
  · exact h.completeOperation_inv hc
  · exact ⟨nofun, h.1⟩

/-! ### The engine's turn and an operation -/

/-- A turn of the engine keeps the invariant, by the phase PHASE names (R40). -/
theorem enginePhase_inv {s t : State} (h : Inv s) (ht : enginePhase s = .next t) : Inv t := by
  by_cases hidle : s.phase = .idle
  · simp only [enginePhase, hidle] at ht
    injection ht with ht; exact ht ▸ h
  have ha : Active s := h.active hidle
  unfold enginePhase at ht
  split at ht
  · next hp => exact absurd hp hidle
  · exact endCompressPhase_inv (cStart_ends ha) ht
  · exact endCompressPhase_inv (cCount_ends ha) ht
  · exact endCompressPhase_inv (cBuild_ends ha) ht
  · exact endCompressPhase_inv (cDepth_ends ha) ht
  · exact endCompressPhase_inv (cCanon_ends ha) ht
  · exact endCompressPhase_inv (cSize_ends ha) ht
  · exact endCompressPhase_inv (cHeader_ends ha) ht
  · next hp => exact endCompressPhase_inv (cPayload_ends ⟨ha, h.optrBound (.inl hp)⟩) ht
  · next hp => exact endCompressPhase_inv (cFlush_ends ⟨ha, h.optrBound (.inr (.inl hp))⟩) ht
  · exact endDecompressPhase_inv (dStart_ends ha) ht
  · exact endDecompressPhase_inv (dHeader_ends ha) ht
  · exact endDecompressPhase_inv (dCanon_ends ha) ht
  · exact endDecompressPhase_inv (dTree_ends ha) ht
  · exact endDecompressPhase_inv (dDecode_ends ha) ht
  · next hp =>
    exact endDecompressPhase_inv (dFinish_ends ⟨ha, h.optrBound (.inr (.inr (.inl hp)))⟩ (h.ocntBound hp)) ht

theorem engineTurn_inv {s t : State} (h : Inv s) (ht : engineTurn s = .next t) : Inv t := by
  unfold engineTurn at ht
  split at ht
  · exact enginePhase_inv h ht
  · injection ht with ht; exact ht ▸ h

/-- An accepted CMD write starts an operation in an active state (R42). -/
theorem startOperation_inv {s : State} (i : Instr) (h : Inv s) : Inv (startOperation (firstPhase i) s) := by
  have ha : Active (startOperation (firstPhase i) s) := ⟨h.parameters, rfl, rfl, h.buffers, h.eras⟩
  exact Active.inv_early (firstPhase i) ha rfl (by cases i <;> decide)

/-- In an idle block a reserved command is the update of `raise BadCommand` (R256). -/
theorem badCommand_eq_raiseError {s : State} (hp : s.phase = .idle) : badCommand s = raiseError .badCommand s := by
  simp [badCommand, raiseError, State.setStatus, hp]

theorem badCommand_inv {s : State} (h : Inv s) (hb : s.busy = false) : Inv (badCommand s) := by
  rw [badCommand_eq_raiseError (h.idle.2 hb)]
  exact raiseError_inv nofun h.parameters h.buffers h.eras

theorem exec_inv {i : Instr} {s t : State} (h : Inv s) (ht : exec i s = .next t) : Inv t := by
  by_cases hb : s.busy = true
  · rw [exec_of_busy i hb] at ht
    injection ht with ht; exact ht ▸ h
  · have hb' : s.busy = false := by simpa using hb
    cases i with
    | compress =>
      rw [exec_compress_of_idle hb'] at ht
      exact runPhases_invariant (fun _ _ => enginePhase_inv) (startOperation_inv .compress h) ht
    | decompress =>
      rw [exec_decompress_of_idle hb'] at ht
      exact runPhases_invariant (fun _ _ => enginePhase_inv) (startOperation_inv .decompress h) ht

/-! ### The host's moves -/

/-- ILEN, the host's own fields and an era passed over are free: no clause bounds them. -/
theorem Inv.setHost {s : State} (h : Inv s) (ilen : Word32) (agenda : List Event) (rdata : Word32) {fresh : Nat}
    (hf : s.fresh ≤ fresh) :
    Inv { s with ilen := ilen, agenda := agenda, rdata := rdata, fresh := fresh } := by
  obtain ⟨himem, homem, hne⟩ := h.eras
  exact ⟨h.parameters, h.status, h.idle, h.olenClear, h.optrBound, h.ocntBound, h.olenBound, h.buffers,
    himem.trans_le hf, homem.trans_le hf, hne⟩

/-- A new IMEM of the same era and in canonical form keeps the invariant. -/
theorem Inv.setImem {s : State} (h : Inv s) {b : Buffer} (hwf : b.wf s.cfg.imemSize = true)
    (hera : b.era = s.imem.era) : Inv { s with imem := b } := by
  refine ⟨h.parameters, h.status, h.idle, h.olenClear, h.optrBound, h.ocntBound, h.olenBound,
    buffers_iff.2 ⟨hwf, (buffers_iff.1 h.buffers).2⟩, ?_⟩
  simpa [hera] using h.eras

theorem resetInput_inv {s : State} (hcfg : s.cfg.wellFormed = true) : Inv s.resetInput := by
  refine ⟨hcfg, .inl rfl, by simp [State.busy], fun _ => rfl, fun _ => Nat.zero_le _, nofun, Nat.zero_le _,
    resetInput_wf s, ?_⟩
  simp

theorem writeCmd_inv {s : State} (c : Byte) (h : Inv s) : Inv (writeCmd c s) := by
  unfold writeCmd
  split
  · exact h
  · next hb =>
    split
    · next i _ => exact startOperation_inv i h
    · exact badCommand_inv h (by simpa using hb)

theorem writeIlen_inv {s : State} (v : Word32) (h : Inv s) : Inv (s.writeIlen v) := by
  unfold State.writeIlen
  split
  · exact h
  · exact h.setHost v s.agenda s.rdata le_rfl

theorem writeRegister_inv {s : State} (n : Nat) (v : Word32) (h : Inv s) : Inv (writeRegister n v s) := by
  unfold writeRegister
  split
  · exact writeCmd_inv _ h
  · exact writeIlen_inv v h
  · exact h

theorem command_inv {c : Byte} {s t : State} (h : Inv s) (ht : command c s = .next t) : Inv t := by
  unfold command at ht
  split at ht
  · exact exec_inv h ht
  · injection ht with ht; subst ht
    split
    · exact h
    · next hb => exact badCommand_inv h (by simpa using hb)

theorem hostWriteImem_inv {a : Nat} {v : Byte} {s t : State} (h : Inv s) (ht : hostWriteImem a v s = .next t) :
    Inv t := by
  unfold hostWriteImem at ht
  split at ht
  · next ha =>
    split at ht
    · cases ht
    · injection ht with ht; subst ht
      exact h.setImem (Buffer.wf_write v (buffers_iff.1 h.buffers).1 ha) rfl
  · cases ht

theorem hostReadImem_inv {a : Nat} {s t : State} (h : Inv s) (ht : hostReadImem a s = .next t) : Inv t := by
  unfold hostReadImem at ht
  split at ht
  · injection ht with ht; subst ht
    exact h.setHost s.ilen s.agenda _ le_rfl
  · cases ht

theorem hostReadOmem_inv {a : Nat} {s t : State} (h : Inv s) (ht : hostReadOmem a s = .next t) : Inv t := by
  unfold hostReadOmem at ht
  split at ht
  · split at ht
    · injection ht with ht; subst ht
      exact h.setHost s.ilen s.agenda _ (Nat.le_succ _)
    · injection ht with ht; subst ht
      exact h.setHost s.ilen s.agenda _ le_rfl
  · cases ht

theorem hostCopy_inv {n : Nat} {s t : State} (h : Inv s) (ht : hostCopy n s = .next t) : Inv t := by
  unfold hostCopy at ht
  split at ht
  · cases ht
  · split at ht
    · cases ht
    · next hn =>
      split at ht
      · injection ht with ht; exact ht ▸ h
      · split at ht
        · cases ht
        · injection ht with ht; subst ht
          have hwf : (copyBytes s.omem n 0 s.imem).wf s.cfg.imemSize = true :=
            copyBytes_wf (buffers_iff.1 h.buffers).1 (by omega)
          exact (h.setImem hwf (by simp)).setHost s.ilen s.agenda _ le_rfl

theorem hostWait_inv {rest : List Event} {s t : State} (h : Inv s) (ht : hostWait rest s = .next t) : Inv t := by
  unfold hostWait at ht
  split at ht
  · injection ht with ht; subst ht
    exact h.setHost s.ilen rest _ le_rfl
  · exact engineTurn_inv h ht

theorem event_inv {e : Event} {rest : List Event} {s t : State} (h : Inv s) (ht : event e rest s = .next t) :
    Inv t := by
  have hr : Inv { s with agenda := rest } := h.setHost s.ilen rest s.rdata le_rfl
  cases e with
  | engine => exact engineTurn_inv hr ht
  | reset => injection ht with ht; subst ht; exact resetInput_inv hr.parameters
  | readReg n => injection ht with ht; subst ht; exact h.setHost s.ilen rest _ le_rfl
  | writeReg n v => injection ht with ht; subst ht; exact writeRegister_inv n v hr
  | writeImem a v => exact hostWriteImem_inv hr ht
  | readImem a => exact hostReadImem_inv hr ht
  | readOmem a => exact hostReadOmem_inv hr ht
  | writeOmem a v => cases ht
  | command c => exact command_inv hr ht
  | wait => exact hostWait_inv h ht
  | copy n => exact hostCopy_inv hr ht

/-- Settles O17, by the step's event or, with no event left, the engine's turn. -/
theorem stepKeepsInvariant : Obligations.StepKeepsInvariant := by
  unfold Obligations.StepKeepsInvariant
  intro s t h ht
  cases hagenda : s.agenda with
  | nil => rw [step_of_nil hagenda] at ht; exact engineTurn_inv h ht
  | cons e rest => rw [step_of_cons hagenda] at ht; exact event_inv h ht

end Sys2Proof.Safety
end

section
/-! PROOFS. The host's registers and the reset state (spec/10_state.md R21 to R24, R42, R51): O4, O7, O8, O13, O16. -/

namespace Sys2Proof.Safety

open Sys2Proof.Machine

/-- The byte of an instruction decodes to it (R82, R83). -/
theorem decode_encode (i : Instr) : decode (encode i) = .ok i := by cases i <;> decide

/-- A command byte that decodes runs its instruction. -/
theorem command_of_decode {c : Byte} {i : Instr} (h : decode c = .ok i) (s : State) : command c s = exec i s := by
  simp only [command, h]

/-- Settles O4: the word's byte decodes to the instruction, whether the block is idle or busy. -/
theorem fetchWordIsRunNext : Obligations.FetchWordIsRunNext := by
  unfold Obligations.FetchWordIsRunNext
  intro s i
  have hrun : ∀ u : State, u.agenda = .command (encode i) :: s.agenda →
      step u = exec i { u with agenda := s.agenda } := fun u hu => by
    rw [step_of_cons hu]
    exact command_of_decode (decode_encode i) _
  rw [State.withFetchWord, commandByteOfTableWord_eight]
  by_cases hb : s.busy = true
  · simp only [hb, if_true]
    exact hrun _ rfl
  · simp only [hb]
    exact hrun _ rfl

theorem writeCmd_of_busy {s : State} (c : Byte) (h : s.busy = true) : writeCmd c s = s := by simp [writeCmd, h]

theorem command_of_busy {s : State} (c : Byte) (h : s.busy = true) : command c s = .next s := by
  unfold command
  split
  · exact exec_of_busy _ h
  · simp [h]

/-- Settles O7, by the form of the CMD write. -/
theorem commandIgnoredWhileBusy : Obligations.CommandIgnoredWhileBusy := by
  unfold Obligations.CommandIgnoredWhileBusy
  intro s v rest hb hagenda
  have hb' : ({ s with agenda := rest } : State).busy = true := hb
  rcases hagenda with h | h
  · rw [step_of_cons h]
    exact congrArg Host.Outcome.next (writeCmd_of_busy _ hb')
  · rw [step_of_cons h]
    exact command_of_busy _ hb'

/-- What a host read of register `n` returns (R21). -/
theorem readRegister_eq (s : State) (n : Nat) :
    s.readRegister n =
      if n = 1 then s.status.setWidth 32 else if n = 2 then s.ilen else if n = 3 then s.olen else 0 := by
  match n with
  | 0 => rfl
  | 1 => rfl
  | 2 => rfl
  | 3 => rfl
  | n + 4 => simp [State.readRegister]

/-- A write of a register other than CMD and ILEN is ignored (R21). -/
theorem writeRegister_of_ne {n : Nat} (v : Word32) (s : State) (h0 : n ≠ 0) (h2 : n ≠ 2) : writeRegister n v s = s := by
  unfold writeRegister
  split
  · exact absurd rfl h0
  · exact absurd rfl h2
  · rfl

/-- Settles O8, register by register. -/
theorem registerMap : Obligations.RegisterMap := by
  unfold Obligations.RegisterMap
  intro s n v rest
  refine ⟨fun h => ?_, fun h h0 h2 => ?_, fun h hb => ?_, fun h hb => ?_⟩
  · rw [step_of_cons h, event, readRegister_eq]
  · rw [step_of_cons h, event, writeRegister_of_ne v _ h0 h2]
  · rw [step_of_cons h]
    exact congrArg Host.Outcome.next (State.writeIlen_idle (s := { s with agenda := rest }) v hb)
  · rw [step_of_cons h]
    exact congrArg Host.Outcome.next (State.writeIlen_busy (s := { s with agenda := rest }) v hb)

/-- Settles O13: the step is the engine's turn, which is nothing while BUSY = 0. -/
theorem idleEngineDoesNothing : Obligations.IdleEngineDoesNothing := by
  unfold Obligations.IdleEngineDoesNothing
  intro s hb hagenda
  rw [step_of_nil hagenda, engineTurn_of_idle hb]

/-- Settles O16, clause by clause: every register the invariant bounds is 0, and both buffers list nothing. -/
theorem resetMeetsInvariant : Obligations.ResetMeetsInvariant := by
  unfold Obligations.ResetMeetsInvariant
  intro cfg hcfg
  exact
    { parameters := hcfg
      status := .inl rfl
      idle := ⟨fun _ => by simp [State.busy, State.resetOf], fun _ => rfl⟩
      olenClear := fun _ => rfl
      optrBound := fun _ => Nat.zero_le _
      ocntBound := nofun
      olenBound := Nat.zero_le _
      buffers := reset_wf cfg
      eras := ⟨Nat.two_pos, Nat.one_lt_two, Nat.zero_ne_one⟩ }

end Sys2Proof.Safety
end

section
/-! PROOFS. What a predicate must keep for a whole unit of the engine to keep it, said once for each unit
(spec/43_bitstream.md, spec/42_container_codec.md, spec/44_compress.md, spec/45_decompress.md). -/

namespace Sys2Proof.Safety

open Sys2Proof.Machine

/-- A unit answers with a state that has `P`, or raises an error from one that has `R`, or stops with a fault. -/
def Yields (P : State → Prop) (R : ErrCode → State → Prop) : Except Stop State → Prop
  | .ok t => P t
  | .error (.raise e t) => R e t
  | .error (.fault _) => True

section
variable {P Q : State → Prop} {R : ErrCode → State → Prop} {r : Except Stop State} {t : State}

theorem Yields.of_ok (h : Yields P R r) (hr : r = .ok t) : P t := by subst hr; exact h

theorem Yields.of_error {e : Stop} (h : Yields P R r) (hr : r = .error e) : Yields Q R (.error e) := by
  subst hr
  cases e with
  | fault f => trivial
  | raise e t => exact h

theorem Yields.of_fault {e : Stop} (h : ∃ f, e = .fault f) : Yields P R (.error e) := by
  obtain ⟨f, rfl⟩ := h; trivial

theorem Yields.imp {S : ErrCode → State → Prop} (h : Yields P R r) (hPQ : ∀ t, P t → Q t)
    (hRS : ∀ e t, R e t → S e t) : Yields Q S r := by
  rcases r with (f | ⟨e, t⟩) | t
  · trivial
  · exact hRS e t h
  · exact hPQ t h

theorem Yields.mono (h : Yields P R r) (hPQ : ∀ t, P t → Q t) : Yields Q R r := h.imp hPQ fun _ _ hR => hR

theorem endCompressPhase_yields (h : Yields P R r) (hR : ∀ e u, R e u → P (raiseError e u))
    (ht : endCompressPhase r = .next t) : P t := by
  rcases r with (f | ⟨e, u⟩) | u
  · cases ht
  · injection ht with ht; exact ht ▸ hR e u h
  · injection ht with ht; exact ht ▸ h

theorem endDecompressPhase_yields (h : Yields P R r) (hR : ∀ e u, R e u → P (raiseError e u.forgetOmem))
    (ht : endDecompressPhase r = .next t) : P t := by
  rcases r with (f | ⟨e, u⟩) | u
  · cases ht
  · injection ht with ht; exact ht ▸ hR e u h
  · injection ht with ht; exact ht ▸ h

end

/-! ### The encoder's units -/

/-- `P` is kept by each byte that goes out and by the writer's own registers. -/
structure WriterKeeps (P : State → Prop) : Prop where
  emit : ∀ u v, P u → u.optr < u.cfg.omemSize →
    P { u with omem := u.omem.write u.optr v, optr := u.optr + 1 }
  acc : ∀ u w, P u → w.wcnt ≤ u.bw.wcnt + 1 → w.wcnt ≠ 8 → P { u with bw := w }

/-- Moreover by the input pointer, as the second pass over the input moves it. -/
structure EncoderKeeps (P : State → Prop) : Prop extends WriterKeeps P where
  start : ∀ u, P u → P { u with iptr := 0 }
  next : ∀ u, P u → u.iptr < u.cfg.imemSize → P { u with iptr := u.iptr + 1 }

/-- The writer leaves the input pointer and the parameters. -/
theorem WriterKeeps.and_input {P : State → Prop} (hP : WriterKeeps P) (i : Nat) (c : Config) :
    WriterKeeps (fun u => P u ∧ u.iptr = i ∧ u.cfg = c) :=
  ⟨fun u v h hlt => ⟨hP.emit u v h.1 hlt, h.2⟩, fun u w h hle hne => ⟨hP.acc u w h.1 hle hne, h.2⟩⟩

section
variable {P : State → Prop} {R : ErrCode → State → Prop} {s : State}

theorem emitByte_yields (hP : WriterKeeps P) (h : P s) (v : Byte) : Yields P R (emitByte s v) := by
  cases hr : emitByte s v with
  | ok t =>
    obtain ⟨hlt, rfl⟩ := emitByte_ok hr
    exact hP.emit s v h hlt
  | error e => exact .of_fault ⟨_, emitByte_error hr⟩

theorem emitBytes_yields (hP : WriterKeeps P) (h : P s) (vs : List Byte) : Yields P R (emitBytes vs s) := by
  induction vs generalizing s with
  | nil => exact h
  | cons v vs ih =>
    have hbyte := emitByte_yields (R := R) hP h v
    unfold emitBytes
    split
    · next t ht => exact ih (hbyte.of_ok ht)
    · next e he => exact hbyte.of_error he

/-- A byte goes out and the writer begins the next one (R192, R194). -/
theorem emitByte_restart_yields (hP : WriterKeeps P) (h : P s) (v : Byte) :
    Yields (fun t => P { t with bw := ⟨0, 0⟩ }) R (emitByte s v) :=
  (emitByte_yields hP h v).mono fun t ht => hP.acc t ⟨0, 0⟩ ht (Nat.zero_le _) (by decide)

theorem bwPutBit_yields (hP : WriterKeeps P) (h : P s) (b : Bool) : Yields P R (bwPutBit s b) := by
  have hbyte := emitByte_restart_yields (R := R) hP h (s.bw.accept b).wacc
  unfold bwPutBit
  dsimp only
  split
  · split
    · next t ht => exact hbyte.of_ok ht
    · next e he => exact hbyte.of_error he
  · next hne => exact hP.acc s _ h le_rfl hne

theorem bwPutBits_yields (hP : WriterKeeps P) (h : P s) (bs : List Bool) : Yields P R (bwPutBits bs s) := by
  induction bs generalizing s with
  | nil => exact h
  | cons b bs ih =>
    have hbit := bwPutBit_yields (R := R) hP h b
    unfold bwPutBits
    split
    · next t ht => exact ih (hbit.of_ok ht)
    · next e he => exact hbit.of_error he

theorem bwFlush_yields (hP : WriterKeeps P) (h : P s) : Yields P R (bwFlush s) := by
  have hbyte := emitByte_restart_yields (R := R) hP h s.bw.wacc
  unfold bwFlush
  split
  · split
    · next t ht => exact hbyte.of_ok ht
    · next e he => exact hbyte.of_error he
  · exact h

theorem cPayloadLoop_yields (hP : EncoderKeeps P) (h : P s) (n : Nat) : Yields P R (cPayloadLoop n s) := by
  induction n generalizing s with
  | zero => exact h
  | succ n ih =>
    unfold cPayloadLoop
    split
    · next e he => exact .of_fault ⟨_, memReadImem_error he⟩
    · next b hb =>
      have hput := bwPutBits_yields (R := R) (hP.and_input s.iptr s.cfg) ⟨h, rfl, rfl⟩
        (codeBits (Table.get s.code b.toNat 0) (Table.get s.len b.toNat 0))
      split
      · next t ht =>
        obtain ⟨ht', hiptr, hcfg⟩ := hput.of_ok ht
        obtain ⟨hlt, -⟩ := memReadImem_ok hb
        exact ih (hP.next t ht' (by rwa [hiptr, hcfg]))
      · next e he => exact hput.of_error he

/-- C_PAYLOAD leads to C_FLUSH and never raises (R217). -/
theorem cPayload_yields (hP : EncoderKeeps P) (h : P s) :
    Yields (fun t => ∃ u, P u ∧ t = { u with phase := .cFlush }) R (cPayload s) := by
  have h0 : P { bwInit s with iptr := 0 } := hP.start _ (hP.acc s ⟨0, 0⟩ h (Nat.zero_le _) (by decide))
  have hloop := cPayloadLoop_yields (R := R) hP h0 s.ilen.toNat
  unfold cPayload
  split
  · next e he => exact hloop.of_error he
  · next t ht =>
    have hput := bwPutBits_yields (R := R) hP.toWriterKeeps (hloop.of_ok ht)
      (codeBits (Table.get t.code EOS 0) (Table.get t.len EOS 0))
    split
    · next u hu => exact ⟨u, hput.of_ok hu, rfl⟩
    · next e he => exact hput.of_error he

/-- C_HEADER leads to C_PAYLOAD and never raises (R216). -/
theorem cHeader_yields (hP : WriterKeeps P) (h : P { s with optr := 0 }) :
    Yields (fun t => ∃ u, P u ∧ t = { u with phase := .cPayload }) R (cHeader s) := by
  have hbytes := emitBytes_yields (R := R) hP h (headerBytes s.ilen s.len)
  unfold cHeader ccEmit
  split
  · next t ht => exact ⟨t, hbytes.of_ok ht, rfl⟩
  · next e he => exact hbytes.of_error he

/-- C_FLUSH completes the operation and never raises (R218). -/
theorem cFlush_yields (hP : WriterKeeps P) (h : P s) :
    Yields (fun t => ∃ u, P u ∧ t = completeOperation u.optr u) R (cFlush s) := by
  have hflush := bwFlush_yields (R := R) hP h
  unfold cFlush
  split
  · next t ht => exact ⟨t, hflush.of_ok ht, rfl⟩
  · next e he => exact hflush.of_error he

end

/-! ### The encoder's phases that write no byte -/

/-- C_COUNT leads to C_BUILD with new counts and IPTR = ILEN, and never raises (R212). -/
theorem cCount_yields (R : ErrCode → State → Prop) (s : State) :
    Yields (fun t => ∃ f, fcCountLoop { s with freq := fcClear } s.ilen.toNat 0 fcClear = .ok f ∧
      t = { s with freq := f, iptr := s.ilen.toNat, phase := .cBuild }) R (cCount s) := by
  unfold cCount
  split
  · next t ht =>
    obtain ⟨f, hf, rfl⟩ := fcCount_ok ht
    exact ⟨f, hf, rfl⟩
  · next e he =>
    unfold fcCount at he
    split at he
    · cases he
    · next e' he' =>
      obtain ⟨a, rfl⟩ := fcCountLoop_error he'
      injection he with he
      exact .of_fault ⟨_, he.symm⟩

/-- C_BUILD leads to C_DEPTH with a new node store, and never raises (R213). -/
theorem cBuild_yields (R : ErrCode → State → Prop) (s : State) :
    Yields (fun t => ∃ d, tbMergeLoop NNODE (tbPlaceholder (tbInit s.freq s.nodes)) = .ok d ∧
      t = { s with nodes := { d with root := d.nnext - 1 }, phase := .cDepth }) R (cBuild s) := by
  unfold cBuild
  split
  · next t ht =>
    obtain ⟨d, hd, rfl⟩ := tbBuild_ok ht
    exact ⟨d, hd, rfl⟩
  · next e he =>
    unfold tbBuild at he
    split at he
    · cases he
    · next e' he' =>
      injection he with he
      exact .of_fault (he ▸ tbMergeLoop_error he')

/-- C_START leads to C_COUNT, or raises IOFailure with nothing written (R211). -/
theorem cStart_yields (s : State) :
    Yields (fun t => t = { s with phase := .cCount }) (fun e t => e ≠ .ok ∧ t = s) (cStart s) := by
  unfold cStart
  split
  · exact ⟨nofun, rfl⟩
  · rfl

/-- C_SIZE leads to C_HEADER, or raises IOFailure, with the three sizes written (R215). -/
theorem cSize_yields (s : State) :
    Yields (fun t => t = { s with
        tbits := payloadBits s.freq s.len
        paylen := (payloadBits s.freq s.len + 7) / 8
        osize := HDR_LEN + (payloadBits s.freq s.len + 7) / 8
        phase := .cHeader })
      (fun e t => e ≠ .ok ∧ t = { s with
        tbits := payloadBits s.freq s.len
        paylen := (payloadBits s.freq s.len + 7) / 8
        osize := HDR_LEN + (payloadBits s.freq s.len + 7) / 8 }) (cSize s) := by
  unfold cSize
  dsimp only
  split
  · exact ⟨nofun, rfl⟩
  · rfl

/-! ### The header parser -/

/-- `P` is kept by each update of the header parser. -/
structure ParserKeeps (P : State → Prop) : Prop where
  start : ∀ u, P u → P { u with iptr := 0 }
  next : ∀ u, P u → u.iptr < u.cfg.imemSize → P { u with iptr := u.iptr + 1 }
  norig : ∀ u n, P u → n < 2 ^ 32 → P { u with norig := n }
  len : ∀ u i v, P u → v ≤ L_MAX → P { u with len := Table.set u.len i v }
  kraft : ∀ u, P u → P { u with kraft := kraftSum u.len }
  paylen : ∀ u, P u → P { u with paylen := u.ilen.toNat - HDR_LEN }

section
variable {P : State → Prop} {R : ErrCode → State → Prop} {s : State}
  (hP : ParserKeeps P) (hR : ∀ e u, e ≠ .ok → P u → R e u)
include hP

theorem ccOrigLen_yields {n k : Nat} (h : P s) (hk : k + n = 4) (hnorig : s.norig < 2 ^ (8 * k)) :
    Yields (fun t => P t ∧ t.norig < 2 ^ 32) R (ccOrigLen n s) := by
  induction n generalizing s k with
  | zero =>
    obtain rfl : k = 4 := by omega
    exact ⟨h, hnorig⟩
  | succ n ih =>
    unfold ccOrigLen
    split
    · next b hb =>
      obtain ⟨hlt, -⟩ := memReadImem_ok hb
      have hshift : be32Shift s.norig b < 2 ^ (8 * (k + 1)) := by
        have hbyte := b.isLt
        rw [be32Shift, Nat.shiftLeft_eq, show 8 * (k + 1) = 8 * k + 8 by ring, pow_add]
        omega
      have hword : be32Shift s.norig b < 2 ^ 32 :=
        hshift.trans_le (Nat.pow_le_pow_right Nat.two_pos (by omega))
      exact ih (k := k + 1) (hP.next _ (hP.norig _ _ h hword) hlt) (by omega) hshift
    · next e he => exact .of_fault ⟨_, memReadImem_error he⟩

include hR

theorem ccTag_yields (h : P s) (vs : List Byte) : Yields P R (ccTag vs s) := by
  induction vs generalizing s with
  | nil => exact h
  | cons v vs ih =>
    unfold ccTag
    split
    · next b hb =>
      split
      · exact ih (hP.next s h (memReadImem_ok hb).1)
      · exact hR _ _ nofun h
    · next e he => exact .of_fault ⟨_, memReadImem_error he⟩

theorem ccLenTab_yields (h : P s) (n sym : Nat) : Yields P R (ccLenTab n sym s) := by
  induction n generalizing s sym with
  | zero => exact h
  | succ n ih =>
    unfold ccLenTab
    split
    · next b hb =>
      obtain ⟨hlt, -⟩ := memReadImem_ok hb
      split
      · exact hR _ _ nofun (hP.next s h hlt)
      · next hb45 => exact ih (hP.next _ (hP.len s sym b.toNat h (by omega)) hlt) (sym + 1)
    · next e he => exact .of_fault ⟨_, memReadImem_error he⟩

theorem ccChecks_yields (h : P s) :
    Yields (fun t => P t ∧ t.norig = s.norig ∧ kraftSum t.len ≤ 2 ^ L_MAX ∧ t.paylen = t.ilen.toNat - HDR_LEN) R
      (ccChecks s) := by
  have hk := hP.kraft s h
  unfold ccChecks
  dsimp only
  split
  · exact hR _ _ nofun h
  · split
    · exact hR _ _ nofun hk
    · next hkraft =>
      split
      · exact hR _ _ nofun hk
      · exact ⟨hP.paylen _ hk, rfl, Nat.not_lt.1 hkraft, rfl⟩

/-- D_HEADER leads to D_CANON with an accepted length table, or raises an error (R227). -/
theorem dHeader_yields (h : P s) :
    Yields (fun t => ∃ u, P u ∧ u.norig < 2 ^ 32 ∧ kraftSum u.len ≤ 2 ^ L_MAX ∧ u.paylen = u.ilen.toNat - HDR_LEN ∧
      t = { u with phase := .dCanon }) R (dHeader s) := by
  have hkeep : ParserKeeps (fun u => P u ∧ u.norig < 2 ^ 32) :=
    ⟨fun u h => ⟨hP.start u h.1, h.2⟩, fun u h hlt => ⟨hP.next u h.1 hlt, h.2⟩,
      fun u n h hn => ⟨hP.norig u n h.1 hn, hn⟩, fun u i v h hv => ⟨hP.len u i v h.1 hv, h.2⟩,
      fun u h => ⟨hP.kraft u h.1, h.2⟩, fun u h => ⟨hP.paylen u h.1, h.2⟩⟩
  have hparse : Yields (fun u => P u ∧ u.norig < 2 ^ 32 ∧ kraftSum u.len ≤ 2 ^ L_MAX ∧
      u.paylen = u.ilen.toNat - HDR_LEN) R (ccParse s) := by
    unfold ccParse
    split
    · exact hR _ _ nofun h
    · have htag := ccTag_yields hP hR (hP.start s h) MAGIC
      split
      · next e he => exact htag.of_error he
      · next s1 h1 =>
        have horig := ccOrigLen_yields (R := R) hP (n := 4) (k := 0)
          (hP.norig s1 0 (htag.of_ok h1) (Nat.two_pow_pos _)) rfl (Nat.two_pow_pos _)
        split
        · next e he => exact horig.of_error he
        · next s2 h2 =>
          have htab := ccLenTab_yields hkeep (fun e u he hu => hR e u he hu.1) (horig.of_ok h2) NSYM 0
          split
          · next e he => exact htab.of_error he
          · next s3 h3 =>
            obtain ⟨hs3, hnorig⟩ := htab.of_ok h3
            exact (ccChecks_yields hP hR hs3).mono fun t ⟨ht, heq, hrest⟩ => ⟨ht, heq ▸ hnorig, hrest⟩
  unfold dHeader
  split
  · next t ht =>
    obtain ⟨hu, hnorig, hkraft, hpay⟩ := hparse.of_ok ht
    exact ⟨t, hu, hnorig, hkraft, hpay, rfl⟩
  · next e he => exact hparse.of_error he

end

/-! ### The decode loop -/

/-- `P` is kept by each update of the decode loop. -/
structure DecoderKeeps (P : State → Prop) : Prop where
  bit : ∀ u, P u → u.rpos ≠ 8 * u.paylen → P { u with rpos := u.rpos + 1 }
  edge : ∀ u (n : Nat) (r : DRecord) (b : Bool) (m : Nat), P u → u.dec.dch[n]? = some r → r.child b = .node m →
    P { u with dec := { u.dec with dcur := m } }
  root : ∀ u, P u → P { u with dec := { u.dec with dcur := 0 } }
  emit : ∀ u v, P u → u.optr < u.cfg.omemSize →
    P { u with omem := u.omem.write u.optr v, optr := u.optr + 1, ocnt := u.ocnt + 1 }

section
variable {P : State → Prop} {R : ErrCode → State → Prop} {s : State}
  (hP : DecoderKeeps P) (hR : ∀ e u, e ≠ .ok → P u → R e u)
include hP

theorem brGetBit_yields (h : P s) {o : Option Bool} {t : State} (ht : brGetBit s = .ok (o, t)) : P t := by
  rcases brGetBit_ok ht with ⟨-, rfl, -⟩ | ⟨hne, -, -, rfl⟩
  · exact h
  · exact hP.bit s h hne

include hR

theorem dEmit_yields (h : P s) (sym : Nat) : Yields P R (dEmit sym s) := by
  unfold dEmit
  split
  · exact hR _ _ nofun h
  · split
    · next t ht =>
      obtain ⟨hlt, rfl⟩ := emitByte_ok ht
      exact hP.emit s _ h hlt
    · next e he => exact .of_fault ⟨_, emitByte_error he⟩

theorem dDecodeLoop_yields (h : P s) (n : Nat) : Yields P R (dDecodeLoop n s) := by
  induction n generalizing s with
  | zero => exact hR _ _ nofun h
  | succ n ih =>
    unfold dDecodeLoop
    split
    · next e he => exact .of_fault (brGetBit_error he)
    · next t ht => exact hR _ _ nofun (brGetBit_yields hP h ht)
    · next b t ht =>
      have ht' : P t := brGetBit_yields hP h ht
      split
      · trivial
      · next r hr =>
        split
        · exact hR _ _ nofun ht'
        · next m hm => exact ih (hP.edge t _ r b m ht' hr hm)
        · next sym _ =>
          split
          · exact ht'
          · have hemit := dEmit_yields hP hR ht' sym
            split
            · next u hu => exact ih (hP.root u (hemit.of_ok hu))
            · next e he => exact hemit.of_error he

/-- D_DECODE leads to D_FINISH, or raises an error (R230). -/
theorem dDecode_yields (h : P { brInit s with ocnt := 0, optr := 0, dec := { s.dec with dcur := 0 } }) :
    Yields (fun t => ∃ u, P u ∧ t = { u with phase := .dFinish }) R (dDecode s) := by
  have hloop := dDecodeLoop_yields hP hR h (8 * s.paylen + 1)
  unfold dDecode
  split
  · next t ht => exact ⟨t, hloop.of_ok ht, rfl⟩
  · next e he => exact hloop.of_error he

end

/-! ### The decoder's other phases -/

/-- D_START leads to D_HEADER, or raises IOFailure with nothing written (R226). -/
theorem dStart_yields (s : State) :
    Yields (fun t => t = { s with phase := .dHeader }) (fun e t => e ≠ .ok ∧ t = s) (dStart s) := by
  unfold dStart
  split
  · exact ⟨nofun, rfl⟩
  · rfl

/-- D_TREE leads to D_DECODE with a new decode tree, and never raises (R229). -/
theorem dTree_yields (R : ErrCode → State → Prop) (s : State) :
    Yields (fun t => ∃ d, ccTree s = .ok { s with dec := d } ∧ t = { s with dec := d, phase := .dDecode }) R
      (dTree s) := by
  unfold dTree
  split
  · next t ht =>
    have ht' := ht
    unfold ccTree at ht'
    split at ht'
    · next d hd =>
      injection ht' with ht'
      subst ht'
      exact ⟨d, ht, rfl⟩
    · cases ht'
  · next e he =>
    unfold ccTree at he
    split at he
    · cases he
    · next e' he' =>
      injection he with he
      exact .of_fault (he ▸ ccInsertAll_error he')

/-- D_FINISH completes the operation with OLEN = OCNT = NORIG, or raises CorruptHeader (R231). -/
theorem dFinish_yields (s : State) :
    Yields (fun t => s.ocnt = s.norig ∧ t = completeOperation s.ocnt s) (fun e t => e ≠ .ok ∧ t = s) (dFinish s) := by
  unfold dFinish
  split
  · next h => exact ⟨h, rfl⟩
  · exact ⟨nofun, rfl⟩

end Sys2Proof.Safety
end

section
/-! PROOFS. The order of the phases (spec/10_state.md R40), and the frames of the two operations (spec/44_compress.md
R219, R220, spec/45_decompress.md R233, R238): O19, O26, O31. -/

namespace Sys2Proof.Safety

open Sys2Proof.Machine

/-! ### The order of the phases -/

/-- What O19 says of a state after a turn in a phase with the next phase `q`, STATUS having been `σ` (R40). -/
def InOrder (q : Phase) (σ : Byte) (t : State) : Prop :=
  (t.phase = q ∨ t.phase = .idle) ∧ (t.phase = .idle → ∃ e, t.status = packStatus false true e) ∧
    (t.phase ≠ .idle → t.status = σ)

section
variable {q : Phase} {σ : Byte} {t : State}

theorem InOrder.of_next (hq : q ≠ .idle) (hp : t.phase = q) (hσ : t.status = σ) : InOrder q σ t :=
  ⟨.inl hp, fun h => absurd (hp.symm.trans h) hq, fun _ => hσ⟩

theorem InOrder.of_end (e : ErrCode) (hp : t.phase = .idle) (hs : t.status = packStatus false true e) :
    InOrder q σ t :=
  ⟨.inr hp, fun _ => ⟨e, hs⟩, fun h => absurd hp h⟩

theorem endCompressPhase_inOrder {r : Except Stop State} (h : Yields (InOrder q σ) (fun _ _ => True) r)
    (ht : endCompressPhase r = .next t) : InOrder q σ t :=
  endCompressPhase_yields h (fun e _ _ => .of_end e rfl rfl) ht

theorem endDecompressPhase_inOrder {r : Except Stop State} (h : Yields (InOrder q σ) (fun _ _ => True) r)
    (ht : endDecompressPhase r = .next t) : InOrder q σ t :=
  endDecompressPhase_yields h (fun e _ _ => .of_end e rfl rfl) ht

end

/-- No unit writes STATUS. -/
theorem encoderKeeps_status (σ : Byte) : EncoderKeeps (fun u => u.status = σ) :=
  ⟨⟨fun _ _ h _ => h, fun _ _ h _ _ => h⟩, fun _ h => h, fun _ h _ => h⟩

theorem parserKeeps_status (σ : Byte) : ParserKeeps (fun u => u.status = σ) :=
  ⟨fun _ h => h, fun _ h _ => h, fun _ _ h _ => h, fun _ _ _ h _ => h, fun _ h => h, fun _ h => h⟩

theorem decoderKeeps_status (σ : Byte) : DecoderKeeps (fun u => u.status = σ) :=
  ⟨fun _ h _ => h, fun _ _ _ _ _ h _ _ => h, fun _ h => h, fun _ _ h _ => h⟩

/-- A turn of the engine leads to the next phase, or ends the operation (R40). -/
theorem enginePhase_inOrder {s t : State} (hidle : s.phase ≠ .idle) (ht : enginePhase s = .next t) :
    InOrder (nextPhase s.phase) s.status t := by
  cases hp : s.phase <;> simp only [enginePhase, hp] at ht <;> simp only [nextPhase]
  case idle => exact absurd hp hidle
  case cStart =>
    refine endCompressPhase_inOrder ((cStart_yields s).imp ?_ fun _ _ _ => trivial) ht
    rintro _ rfl
    exact .of_next nofun rfl rfl
  case cCount =>
    refine endCompressPhase_inOrder ((cCount_yields _ s).mono ?_) ht
    rintro _ ⟨f, -, rfl⟩
    exact .of_next nofun rfl rfl
  case cBuild =>
    refine endCompressPhase_inOrder ((cBuild_yields _ s).mono ?_) ht
    rintro _ ⟨d, -, rfl⟩
    exact .of_next nofun rfl rfl
  case cDepth => exact endCompressPhase_inOrder (r := cDepth s) (.of_next nofun rfl rfl) ht
  case cCanon => exact endCompressPhase_inOrder (r := cCanon s) (.of_next nofun rfl rfl) ht
  case cSize =>
    refine endCompressPhase_inOrder ((cSize_yields s).imp ?_ fun _ _ _ => trivial) ht
    rintro _ rfl
    exact .of_next nofun rfl rfl
  case cHeader =>
    refine endCompressPhase_inOrder ((cHeader_yields (encoderKeeps_status s.status).toWriterKeeps rfl).mono ?_) ht
    rintro _ ⟨u, hu, rfl⟩
    exact .of_next nofun rfl hu
  case cPayload =>
    refine endCompressPhase_inOrder ((cPayload_yields (encoderKeeps_status s.status) rfl).mono ?_) ht
    rintro _ ⟨u, hu, rfl⟩
    exact .of_next nofun rfl hu
  case cFlush =>
    refine endCompressPhase_inOrder ((cFlush_yields (encoderKeeps_status s.status).toWriterKeeps rfl).mono ?_) ht
    rintro _ ⟨u, -, rfl⟩
    exact .of_end .ok rfl rfl
  case dStart =>
    refine endDecompressPhase_inOrder ((dStart_yields s).imp ?_ fun _ _ _ => trivial) ht
    rintro _ rfl
    exact .of_next nofun rfl rfl
  case dHeader =>
    have hheader := dHeader_yields (R := fun _ _ => True) (parserKeeps_status s.status) (fun _ _ _ _ => trivial) rfl
    refine endDecompressPhase_inOrder (hheader.mono ?_) ht
    rintro _ ⟨u, hu, -, -, -, rfl⟩
    exact .of_next nofun rfl hu
  case dCanon => exact endDecompressPhase_inOrder (r := dCanon s) (.of_next nofun rfl rfl) ht
  case dTree =>
    refine endDecompressPhase_inOrder ((dTree_yields _ s).mono ?_) ht
    rintro _ ⟨d, -, rfl⟩
    exact .of_next nofun rfl rfl
  case dDecode =>
    have hdecode := dDecode_yields (R := fun _ _ => True) (decoderKeeps_status s.status) (fun _ _ _ _ => trivial) rfl
    refine endDecompressPhase_inOrder (hdecode.mono ?_) ht
    rintro _ ⟨u, hu, rfl⟩
    exact .of_next nofun rfl hu
  case dFinish =>
    refine endDecompressPhase_inOrder ((dFinish_yields s).imp ?_ fun _ _ _ => trivial) ht
    rintro _ ⟨-, rfl⟩
    exact .of_end .ok rfl rfl

/-- Settles O19, by the phase PHASE names. -/
theorem phasesInOrder : Obligations.PhasesInOrder := by
  unfold Obligations.PhasesInOrder
  intro s t hp ht
  exact enginePhase_inOrder hp ht

/-- The turns the engine needs at most from a phase to the end of the operation (R40). -/
def turnsLeft : Phase → Nat
  | .idle => 0
  | .cStart => 9
  | .cCount => 8
  | .cBuild => 7
  | .cDepth => 6
  | .cCanon => 5
  | .cSize => 4
  | .cHeader => 3
  | .cPayload => 2
  | .cFlush => 1
  | .dStart => 6
  | .dHeader => 5
  | .dCanon => 4
  | .dTree => 3
  | .dDecode => 2
  | .dFinish => 1

theorem turnsLeft_nextPhase {p : Phase} (hp : p ≠ .idle) : turnsLeft (nextPhase p) + 1 = turnsLeft p := by
  revert hp
  cases p <;> decide

/-- A run with turns enough ends the operation. -/
theorem runPhases_ends {n : Nat} {s t : State} (hn : turnsLeft s.phase ≤ n) (ht : runPhases n s = .next t) :
    t.phase = .idle := by
  induction n generalizing s with
  | zero =>
    injection ht with ht
    subst ht
    by_contra hp
    have hturn := turnsLeft_nextPhase hp
    omega
  | succ n ih =>
    unfold runPhases at ht
    split at ht
    · next hp => injection ht with ht; exact ht ▸ hp
    · next hp =>
      split at ht
      · next u hu =>
        obtain ⟨hphase, -⟩ := enginePhase_inOrder hp hu
        refine ih ?_ ht
        rcases hphase with h | h
        · have hturn := turnsLeft_nextPhase hp
          rw [h]; omega
        · rw [h]; exact Nat.zero_le _
      · cases ht
      · cases ht

/-! ### The bytes that go out -/

/-- OMEM is that of `m` from OPTR on, and OPTR is inside the buffer (R41). -/
def Beyond (m : Buffer) (u : State) : Prop :=
  u.optr ≤ u.cfg.omemSize ∧ ∀ a, u.optr ≤ a → u.omem.read a = m.read a

theorem Beyond.emit {m : Buffer} {u : State} (v : Byte) (h : Beyond m u) (hlt : u.optr < u.cfg.omemSize) :
    u.optr + 1 ≤ u.cfg.omemSize ∧ ∀ a, u.optr + 1 ≤ a → (u.omem.write u.optr v).read a = m.read a := by
  refine ⟨hlt, fun a ha => ?_⟩
  rw [Buffer.read_write_ne v (by omega)]
  exact h.2 a (by omega)

theorem encoderKeeps_beyond (m : Buffer) : EncoderKeeps (Beyond m) :=
  ⟨⟨fun _ v h hlt => h.emit v hlt, fun _ _ h _ _ => h⟩, fun _ h => h, fun _ h _ => h⟩

/-! ### The frame of COMPRESS -/

/-- OMEM during COMPRESS, `m` being OMEM before it: untouched up to C_HEADER, untouched from OPTR on in the two phases
that write the payload, untouched from OLEN on when it has ended (R220). -/
def CompressOmem (m : Buffer) (u : State) : Prop :=
  match u.phase with
  | .cStart | .cCount | .cBuild | .cDepth | .cCanon | .cSize | .cHeader => u.omem = m
  | .cPayload | .cFlush => Beyond m u
  | .idle => ∀ a, u.olen.toNat ≤ a → u.omem.read a = m.read a
  | .dStart | .dHeader | .dCanon | .dTree | .dDecode | .dFinish => False

theorem compressOmem_raiseError {m : Buffer} (e : ErrCode) {u : State} (h : u.omem = m) :
    CompressOmem m (raiseError e u) := fun _ _ => h ▸ rfl

/-- A turn of the engine during COMPRESS keeps the frame of OMEM; only C_START and C_SIZE raise an error. -/
theorem enginePhase_compress {m : Buffer} {s t : State} (hsize : s.cfg.omemSize < 2 ^ 32) (h : CompressOmem m s)
    (ht : enginePhase s = .next t) : CompressKeeps s t ∧ CompressOmem m t := by
  have hend : ∀ {r : Except Stop State}, ResultAll (CompressKeeps s) r →
      Yields (CompressOmem m) (fun _ u => u.omem = m) r → endCompressPhase r = .next t →
      CompressKeeps s t ∧ CompressOmem m t := fun hkeep hr ht =>
    ⟨endCompressPhase_next hkeep (fun e u hu => hu.trans (raiseError_compressKeeps e u)) ht,
      endCompressPhase_yields hr (fun e _ hu => compressOmem_raiseError e hu) ht⟩
  cases hp : s.phase <;> simp only [enginePhase, hp] at ht <;> simp only [CompressOmem, hp] at h
  case idle =>
    injection ht with ht
    subst ht
    exact ⟨CompressKeeps.refl s, by simpa only [CompressOmem, hp] using h⟩
  case cStart =>
    refine hend (cStart_keeps s) ((cStart_yields s).imp ?_ ?_) ht
    · rintro _ rfl; exact h
    · rintro _ _ ⟨-, rfl⟩; exact h
  case cCount =>
    refine hend (cCount_keeps s) ((cCount_yields _ s).mono ?_) ht
    rintro _ ⟨f, -, rfl⟩; exact h
  case cBuild =>
    refine hend (cBuild_keeps s) ((cBuild_yields _ s).mono ?_) ht
    rintro _ ⟨d, -, rfl⟩; exact h
  case cDepth => exact hend (cDepth_keeps s) h ht
  case cCanon => exact hend (cCanon_keeps s) h ht
  case cSize =>
    refine hend (cSize_keeps s) ((cSize_yields s).imp ?_ ?_) ht
    · rintro _ rfl; exact h
    · rintro _ _ ⟨-, rfl⟩; exact h
  case cHeader =>
    have h0 : Beyond m { s with optr := 0 } := ⟨Nat.zero_le _, fun _ _ => h ▸ rfl⟩
    refine hend (cHeader_keeps s) ((cHeader_yields (encoderKeeps_beyond m).toWriterKeeps h0).mono ?_) ht
    rintro _ ⟨u, hu, rfl⟩; exact hu
  case cPayload =>
    refine hend (cPayload_keeps s) ((cPayload_yields (encoderKeeps_beyond m) h).mono ?_) ht
    rintro _ ⟨u, hu, rfl⟩; exact hu
  case cFlush =>
    have hkeep : WriterKeeps (fun u => Beyond m u ∧ u.cfg = s.cfg) :=
      ⟨fun u v hu hlt => ⟨hu.1.emit v hlt, hu.2⟩, fun _ _ hu _ _ => hu⟩
    refine hend (cFlush_keeps s) ((cFlush_yields hkeep ⟨h, rfl⟩).mono ?_) ht
    rintro _ ⟨u, ⟨⟨hle, hu⟩, hcfg⟩, rfl⟩
    intro a ha
    refine hu a ?_
    rw [hcfg] at hle
    rwa [State.completeOperation_olen, BitVec.toNat_ofNat, Nat.mod_eq_of_lt (by omega)] at ha

/-- Settles O26: every turn of COMPRESS keeps its frame. -/
theorem compressFrame : Obligations.CompressFrame := by
  unfold Obligations.CompressFrame
  intro s t hcfg ht
  have hsize : s.cfg.omemSize < 2 ^ 32 := by
    simp only [Config.wellFormed, Bool.and_eq_true, decide_eq_true_eq] at hcfg
    omega
  by_cases hb : s.busy = true
  · rw [exec_of_busy _ hb] at ht
    injection ht with ht
    subst ht
    simp [hb]
  · rw [exec_compress_of_idle (by simpa using hb)] at ht
    obtain ⟨⟨⟨hcfg', hilen, himem, hagenda, hrdata⟩, hdec, hrpos, hnorig, hocnt, hkraft, hfresh⟩, homem⟩ :
        CompressKeeps s t ∧ CompressOmem s.omem t := by
      refine runPhases_invariant (P := fun u => CompressKeeps s u ∧ CompressOmem s.omem u) (fun u v hu hv => ?_)
        ⟨startOperation_compressKeeps .cStart s, rfl⟩ ht
      obtain ⟨hkeep, homem⟩ := enginePhase_compress (hu.1.cfg ▸ hsize) hu.2 hv
      exact ⟨hu.1.trans hkeep, homem⟩
    have hidle : t.phase = .idle := runPhases_ends (s := startOperation .cStart s) le_rfl ht
    simp only [CompressOmem, hidle] at homem
    exact ⟨hcfg', hilen, himem, hdec, hrpos, hnorig, hocnt, hkraft, hagenda, hrdata, hfresh, fun h => absurd h hb,
      fun _ => homem⟩

/-! ### The frame of DECOMPRESS -/

/-- OMEM during DECOMPRESS, `m` being OMEM before it: untouched up to D_DECODE, untouched from OPTR = OCNT on after it,
untouched from OLEN on after a success (R233). From the header on NORIG is a 32-bit number (R165). -/
def DecompressOmem (m : Buffer) (u : State) : Prop :=
  match u.phase with
  | .dStart | .dHeader => u.omem = m
  | .dCanon | .dTree | .dDecode => u.omem = m ∧ u.norig < 2 ^ 32
  | .dFinish => Beyond m u ∧ u.ocnt = u.optr ∧ u.norig < 2 ^ 32
  | .idle => u.status = packStatus false true .ok → ∀ a, u.olen.toNat ≤ a → u.omem.read a = m.read a
  | .cStart | .cCount | .cBuild | .cDepth | .cCanon | .cSize | .cHeader | .cPayload | .cFlush => False

theorem decompressOmem_raiseError (m : Buffer) {e : ErrCode} (he : e ≠ .ok) (u : State) :
    DecompressOmem m (raiseError e u) := fun hok => by
  rw [State.raiseError_status, packStatus_inj] at hok
  exact absurd hok.2.2 he

theorem parserKeeps_omem (m : Buffer) : ParserKeeps (fun u => u.omem = m) :=
  ⟨fun _ h => h, fun _ h _ => h, fun _ _ h _ => h, fun _ _ _ h _ => h, fun _ h => h, fun _ h => h⟩

theorem decoderKeeps_beyond (m : Buffer) :
    DecoderKeeps (fun u => Beyond m u ∧ u.ocnt = u.optr ∧ u.norig < 2 ^ 32) :=
  ⟨fun _ h _ => h, fun _ _ _ _ _ h _ _ => h, fun _ h => h,
    fun _ v h hlt => ⟨h.1.emit v hlt, congrArg (· + 1) h.2.1, h.2.2⟩⟩

/-- A turn of the engine during DECOMPRESS keeps the frame of OMEM. -/
theorem enginePhase_decompress {m : Buffer} {s t : State} (h : DecompressOmem m s) (ht : enginePhase s = .next t) :
    DecompressKeeps s t ∧ DecompressOmem m t := by
  have hend : ∀ {r : Except Stop State}, ResultAll (DecompressKeeps s) r →
      Yields (DecompressOmem m) (fun e _ => e ≠ .ok) r → endDecompressPhase r = .next t →
      DecompressKeeps s t ∧ DecompressOmem m t := fun hkeep hr ht =>
    ⟨endDecompressPhase_next hkeep (fun e u hu =>
        (hu.trans (forgetOmem_decompressKeeps u)).trans (raiseError_decompressKeeps e _)) ht,
      endDecompressPhase_yields hr (fun _ u he => decompressOmem_raiseError m he u.forgetOmem) ht⟩
  cases hp : s.phase <;> simp only [enginePhase, hp] at ht <;> simp only [DecompressOmem, hp] at h
  case idle =>
    injection ht with ht
    subst ht
    exact ⟨DecompressKeeps.refl s, by simpa only [DecompressOmem, hp] using h⟩
  case dStart =>
    refine hend (dStart_keeps s) ((dStart_yields s).imp ?_ fun _ _ hu => hu.1) ht
    rintro _ rfl; exact h
  case dHeader =>
    have hheader := dHeader_yields (R := fun e _ => e ≠ .ok) (parserKeeps_omem m) (fun _ _ he _ => he) h
    refine hend (dHeader_keeps s) (hheader.mono ?_) ht
    rintro _ ⟨u, hu, hnorig, -, -, rfl⟩; exact ⟨hu, hnorig⟩
  case dCanon => exact hend (dCanon_keeps s) h ht
  case dTree =>
    refine hend (dTree_keeps s) ((dTree_yields _ s).mono ?_) ht
    rintro _ ⟨d, -, rfl⟩; exact h
  case dDecode =>
    have hdecode := dDecode_yields (R := fun e _ => e ≠ .ok) (s := s) (decoderKeeps_beyond m) (fun _ _ he _ => he)
      ⟨⟨Nat.zero_le _, fun _ _ => h.1 ▸ rfl⟩, rfl, h.2⟩
    refine hend (dDecode_keeps s) (hdecode.mono ?_) ht
    rintro _ ⟨u, hu, rfl⟩; exact hu
  case dFinish =>
    obtain ⟨⟨-, hread⟩, hcount, hnorig⟩ := h
    refine hend (dFinish_keeps s) ((dFinish_yields s).imp ?_ fun _ _ hu => hu.1) ht
    rintro _ ⟨heq, rfl⟩
    intro _ a ha
    refine hread a ?_
    rwa [State.completeOperation_olen, BitVec.toNat_ofNat, Nat.mod_eq_of_lt (by omega), hcount] at ha

/-- Settles O31: every turn of DECOMPRESS keeps its frame. -/
theorem decompressFrame : Obligations.DecompressFrame := by
  unfold Obligations.DecompressFrame
  intro s t ht
  by_cases hb : s.busy = true
  · rw [exec_of_busy _ hb] at ht
    injection ht with ht
    subst ht
    simp [hb]
  · rw [exec_decompress_of_idle (by simpa using hb)] at ht
    obtain ⟨⟨⟨hcfg, hilen, himem, hagenda, hrdata⟩, hfreq, hnodes, htbits, hosize, hbw⟩, homem⟩ :
        DecompressKeeps s t ∧ DecompressOmem s.omem t := by
      refine runPhases_invariant (P := fun u => DecompressKeeps s u ∧ DecompressOmem s.omem u) (fun u v hu hv => ?_)
        ⟨startOperation_decompressKeeps .dStart s, rfl⟩ ht
      obtain ⟨hkeep, homem⟩ := enginePhase_decompress hu.2 hv
      exact ⟨hu.1.trans hkeep, homem⟩
    have hidle : t.phase = .idle := runPhases_ends (s := startOperation .dStart s) le_rfl ht
    simp only [DecompressOmem, hidle] at homem
    exact ⟨hcfg, hilen, himem, hfreq, hnodes, htbits, hosize, hbw, hagenda, hrdata, fun h => absurd h hb,
      fun _ => homem⟩

end Sys2Proof.Safety
end

section
/-! PROOFS. The canonical order and the codes CANON gives along it (spec/41_tree_builder.md R144 to R146): the order
lists each coded symbol once, by length; the code of an entry is the code space used before it. -/

namespace Sys2Proof.Safety

open Sys2Proof.Machine

/-! ### Sums over a table -/

/-- The first entries of a table, as reads of it. -/
theorem take_toList_eq_map_get {n k : Nat} (t : Table Nat n) (hk : k ≤ n) :
    t.toArray.toList.take k = (List.range k).map (fun i => Table.get t i 0) := by
  apply List.ext_getElem
  · simpa using hk
  · intro i h1 h2
    have hi : i < n := by simp at h1; omega
    rw [List.getElem_take, Table.list_getElem t hi 0]
    simp

theorem sum_take_toList {n k : Nat} (t : Table Nat n) (hk : k ≤ n) :
    (t.toArray.toList.take k).sum = ∑ i ∈ Finset.range k, Table.get t i 0 := by
  rw [take_toList_eq_map_get t hk]; rfl

/-- KRAFT as a sum over the symbols (R168). -/
theorem kraftSum_eq_sum (len : Table Nat NSYM) :
    kraftSum len =
      ∑ i ∈ Finset.range NSYM, if 0 < Table.get len i 0 then 2 ^ (L_MAX - Table.get len i 0) else 0 := by
  have htake : len.toArray.toList = len.toArray.toList.take NSYM := by simp
  rw [kraftSum, htake, take_toList_eq_map_get len le_rfl, List.map_map]
  rfl

/-! ### The canonical order -/

/-- The symbols of one length are listed once. -/
theorem symbolsOfLength_nodup (len : Table Nat NSYM) (l : Nat) : (symbolsOfLength len l).Nodup := by
  have hsub : List.Sublist (symbolsOfLength len l) ((Table.entries len).map (·.2)) :=
    List.filter_sublist.map _
  refine hsub.nodup ?_
  rw [Table.entries, List.zipIdx_map_snd]
  exact List.nodup_range'

/-- The symbols in canonical order. -/
theorem canonicalOrder_map_fst (len : Table Nat NSYM) :
    (canonicalOrder len).map Prod.fst = (List.range' 1 L_MAX).flatMap (symbolsOfLength len) := by
  simp [canonicalOrder, List.map_flatMap, Function.comp_def]

/-- Each symbol stands at most once in canonical order. -/
theorem canonicalOrder_nodup (len : Table Nat NSYM) : ((canonicalOrder len).map Prod.fst).Nodup := by
  rw [canonicalOrder_map_fst, List.nodup_flatMap]
  refine ⟨fun l _ => symbolsOfLength_nodup len l, ?_⟩
  refine List.Nodup.pairwise_of_forall_ne List.nodup_range' fun l _ k _ hlk => ?_
  intro s hl hk
  exact hlk ((mem_symbolsOfLength.1 hl).2.symm.trans (mem_symbolsOfLength.1 hk).2)

/-- The lengths do not fall along the canonical order (R144). -/
theorem canonicalOrder_sorted (len : Table Nat NSYM) :
    (canonicalOrder len).Pairwise (fun e f => e.2 ≤ f.2) := by
  rw [canonicalOrder, List.pairwise_flatMap]
  constructor
  · intro l _
    exact List.pairwise_map.2 (List.pairwise_of_forall fun _ _ => le_rfl)
  · refine (List.pairwise_lt_range' (s := 1) (n := L_MAX)).imp fun {l k} hlk => ?_
    intro e he f hf
    obtain ⟨_, -, rfl⟩ := List.mem_map.1 he
    obtain ⟨_, -, rfl⟩ := List.mem_map.1 hf
    exact hlk.le

/-- An entry of the canonical order is a symbol with a length from 1 to 45. -/
theorem bounds_of_mem_canonicalOrder {len : Table Nat NSYM} {e : Nat × Nat} (he : e ∈ canonicalOrder len) :
    e.1 < NSYM ∧ e.2 = Table.get len e.1 0 ∧ 0 < e.2 ∧ e.2 ≤ L_MAX := by
  obtain ⟨hs, hl, h0, h45⟩ := mem_canonicalOrder.1 he
  exact ⟨hs, hl.symm, h0, h45⟩

theorem canonicalOrder_toFinset (len : Table Nat NSYM) :
    ((canonicalOrder len).map Prod.fst).toFinset =
      (Finset.range NSYM).filter (fun i => 0 < Table.get len i 0 ∧ Table.get len i 0 ≤ L_MAX) := by
  ext i
  simp only [List.mem_toFinset, List.mem_map, Finset.mem_filter, Finset.mem_range]
  constructor
  · rintro ⟨e, he, rfl⟩
    obtain ⟨hs, hl, hbounds⟩ := bounds_of_mem_canonicalOrder he
    exact ⟨hs, hl ▸ hbounds⟩
  · rintro ⟨hi, hbounds⟩
    exact ⟨(i, Table.get len i 0), mem_canonicalOrder.2 ⟨hi, rfl, hbounds⟩, rfl⟩

theorem length_canonicalOrder_le (len : Table Nat NSYM) : (canonicalOrder len).length ≤ NSYM := by
  have hcard := List.toFinset_card_of_nodup (canonicalOrder_nodup len)
  rw [canonicalOrder_toFinset, List.length_map] at hcard
  rw [← hcard]
  exact (Finset.card_filter_le _ _).trans (Finset.card_range _).le

/-! ### The code space -/

/-- The code space the entries take, in units of 2^-45: CACC after CANON has passed them (R145). -/
def codeSpace (es : List (Nat × Nat)) : Nat := (es.map (fun e => 2 ^ (L_MAX - e.2))).sum

@[simp] theorem codeSpace_nil : codeSpace [] = 0 := rfl

@[simp] theorem codeSpace_cons (e : Nat × Nat) (es : List (Nat × Nat)) :
    codeSpace (e :: es) = 2 ^ (L_MAX - e.2) + codeSpace es := by simp [codeSpace]

@[simp] theorem codeSpace_append (es fs : List (Nat × Nat)) :
    codeSpace (es ++ fs) = codeSpace es + codeSpace fs := by simp [codeSpace]

/-- The code space of a code table as a sum over the symbols with a code. -/
theorem codeSpace_canonicalOrder (len : Table Nat NSYM) :
    codeSpace (canonicalOrder len) =
      ∑ i ∈ (Finset.range NSYM).filter (fun i => 0 < Table.get len i 0 ∧ Table.get len i 0 ≤ L_MAX),
        2 ^ (L_MAX - Table.get len i 0) := by
  have hsum := List.sum_toFinset (fun i => 2 ^ (L_MAX - Table.get len i 0)) (canonicalOrder_nodup len)
  rw [canonicalOrder_toFinset, List.map_map] at hsum
  rw [hsum, codeSpace]
  refine congrArg List.sum (List.map_congr_left fun e he => ?_)
  obtain ⟨-, hl, -⟩ := bounds_of_mem_canonicalOrder he
  simp [hl]

theorem codeSpace_le_kraftSum (len : Table Nat NSYM) : codeSpace (canonicalOrder len) ≤ kraftSum len := by
  rw [codeSpace_canonicalOrder, kraftSum_eq_sum, Finset.sum_filter]
  refine Finset.sum_le_sum fun i _ => ?_
  by_cases hpos : 0 < Table.get len i 0
  · by_cases hmax : Table.get len i 0 ≤ L_MAX
    · simp [hpos, hmax]
    · simp [hpos, hmax]
  · simp [hpos]

/-- The code space the entries take is a whole number of codes of a length none of them exceeds. -/
theorem dvd_codeSpace {es : List (Nat × Nat)} {l : Nat} (h : ∀ e ∈ es, e.2 ≤ l) :
    2 ^ (L_MAX - l) ∣ codeSpace es := by
  refine List.dvd_sum fun x hx => ?_
  obtain ⟨e, he, rfl⟩ := List.mem_map.1 hx
  have hle := h e he
  exact pow_dvd_pow 2 (by omega)

/-! ### The codes CANON gives -/

/-- CANON over a list of entries, from a code table on (R145). -/
def canonOver (code : Table CodeWord NSYM) (es : List (Nat × Nat)) : Table CodeWord NSYM × Nat :=
  es.foldl canonStep (code, 0)

theorem canon_eq_canonOver (s : State) :
    canon s = { s with
      code := (canonOver s.code (canonicalOrder s.len)).1, cacc := (canonOver s.code (canonicalOrder s.len)).2 } := rfl

theorem foldl_canonStep_snd (es : List (Nat × Nat)) (acc : Table CodeWord NSYM × Nat) :
    (es.foldl canonStep acc).2 = acc.2 + codeSpace es := by
  induction es generalizing acc with
  | nil => simp
  | cons e es ih => simp [ih, canonStep, Nat.add_assoc]

/-- CACC ends at the code space of the entries (R145). -/
theorem canonOver_snd (code : Table CodeWord NSYM) (es : List (Nat × Nat)) :
    (canonOver code es).2 = codeSpace es := by simp [canonOver, foldl_canonStep_snd]

/-- CANON leaves the code of a symbol that is not among the entries. -/
theorem foldl_canonStep_get_of_not_mem {es : List (Nat × Nat)} {s : Nat} (h : s ∉ es.map Prod.fst)
    (acc : Table CodeWord NSYM × Nat) :
    Table.get (es.foldl canonStep acc).1 s 0 = Table.get acc.1 s 0 := by
  induction es generalizing acc with
  | nil => rfl
  | cons e es ih =>
    simp only [List.map_cons, List.mem_cons, not_or] at h
    obtain ⟨hne, hnot⟩ := h
    rw [List.foldl_cons, ih hnot, canonStep, Table.get_set_ne _ _ (Ne.symm hne)]

/-- The code of an entry is the code space used before it, in codes of its length (R145, R146). -/
theorem canonOver_get {code : Table CodeWord NSYM} {pre post : List (Nat × Nat)} {e : Nat × Nat}
    (hnodup : ((pre ++ e :: post).map Prod.fst).Nodup) (he : e.1 < NSYM) :
    Table.get (canonOver code (pre ++ e :: post)).1 e.1 0 =
      BitVec.ofNat 45 (codeSpace pre >>> (L_MAX - e.2)) := by
  have hnot : e.1 ∉ post.map Prod.fst := by
    rw [List.map_append, List.map_cons] at hnodup
    exact (List.nodup_cons.1 (List.nodup_append.1 hnodup).2.1).1
  rw [canonOver, List.foldl_append, List.foldl_cons, foldl_canonStep_get_of_not_mem hnot, canonStep,
    Table.get_set_self _ _ he, foldl_canonStep_snd, Nat.zero_add]

end Sys2Proof.Safety
end

section
/-! PROOFS. The decode tree has at most 301 records (spec/42_container_codec.md R172, R175). Along the canonical order
each code follows the one before it: the trailing ones of the code before give way to a one and zeros. A new code
shares all bits up to that one with the code before it, so it needs a record for each further bit only, and the number
of ones in the code pays for them. -/

namespace Sys2Proof.Safety

open Sys2Proof.Machine

/-! ### Bit strings -/

@[simp] theorem length_bitString (v n : Nat) : (bitString v n).length = n := by simp [bitString]

/-- The bit string of a number is that of its half and its last bit (R10). -/
theorem bitString_succ (v n : Nat) : bitString v (n + 1) = bitString (v / 2) n ++ [v.testBit 0] := by
  rw [bitString, List.range_succ, List.map_append]
  congr 1
  · refine List.map_congr_left fun k hk => ?_
    have hk : k < n := List.mem_range.1 hk
    rw [show n + 1 - 1 - k = (n - 1 - k) + 1 by omega, Nat.testBit_add_one]
  · simp

theorem bitString_zero_left (n : Nat) : bitString 0 n = List.replicate n false := by
  induction n with
  | zero => rfl
  | succ n ih => rw [bitString_succ, Nat.zero_div, ih, Nat.zero_testBit, List.replicate_succ']

/-- A longer code of the same left-aligned value has zeros behind (R146). -/
theorem bitString_mul_two_pow (v n k : Nat) :
    bitString (v * 2 ^ k) (n + k) = bitString v n ++ List.replicate k false := by
  induction k with
  | zero => simp
  | succ k ih =>
    have hdiv : v * 2 ^ (k + 1) / 2 = v * 2 ^ k := by rw [pow_succ, ← mul_assoc]; omega
    have hbit : (v * 2 ^ (k + 1)).testBit 0 = false := by
      rw [Nat.testBit_zero, pow_succ, ← mul_assoc]; simp
    rw [← Nat.add_assoc, bitString_succ, hdiv, hbit, ih, List.append_assoc, ← List.replicate_succ']

/-- The code word of a number has the bits of the number (R10, R30). -/
theorem codeBits_ofNat (v : Nat) {n : Nat} (hn : n ≤ 45) : codeBits (BitVec.ofNat 45 v) n = bitString v n := by
  apply List.ext_getElem
  · simp [length_codeBits]
  · intro j h1 h2
    have hj : j < n := by simpa using h2
    rw [getElem_codeBits _ _ _ hj, BitVec.getLsbD_ofNat]
    have hlt : n - 1 - j < 45 := by omega
    simp [bitString, hlt]

/-- The code `q` follows the code `p`: the trailing ones of `p` become a one before zeros, and more zeros follow. -/
def FollowsCode (p q : List Bool) : Prop :=
  ∃ (x : List Bool) (t k : Nat),
    p = x ++ false :: List.replicate t true ∧ q = x ++ true :: List.replicate (t + k) false

/-- The next number of the same length follows (R146). -/
theorem followsCode_add_one {v n : Nat} (h : v + 1 < 2 ^ n) : FollowsCode (bitString v n) (bitString (v + 1) n) := by
  induction n generalizing v with
  | zero => omega
  | succ n ih =>
    rw [bitString_succ, bitString_succ]
    rcases Nat.even_or_odd' v with ⟨m, rfl | rfl⟩
    · refine ⟨bitString m n, 0, 0, ?_, ?_⟩
      · simp
      · simp [show (2 * m + 1) / 2 = m by omega]
    · obtain ⟨x, t, k, hp, hq⟩ := ih (v := m) (by omega)
      refine ⟨x, t + 1, k, ?_, ?_⟩
      · simp [show (2 * m + 1) / 2 = m by omega, hp, List.replicate_succ']
      · simp [show (2 * m + 1 + 1) / 2 = m + 1 by omega, show (2 * m + 1 + 1) % 2 = 0 by omega, hq,
          show t + 1 + k = t + k + 1 by omega, List.replicate_succ']

/-- The next code of a length that is not smaller follows (R146). -/
theorem followsCode_next {v n k : Nat} (h : v + 1 < 2 ^ n) :
    FollowsCode (bitString v n) (bitString ((v + 1) * 2 ^ k) (n + k)) := by
  obtain ⟨x, t, j, hp, hq⟩ := followsCode_add_one h
  refine ⟨x, t, j + k, hp, ?_⟩
  rw [bitString_mul_two_pow, hq, ← Nat.add_assoc, List.replicate_add]
  simp

/-! ### The decode-tree store -/

/-- The records are numbered from 0 to DNEXT - 1, and an edge leads from a record to one allocated after it (R172). -/
structure Linked (d : DecodeStore) : Prop where
  count : d.dnext = d.dch.length
  edge : ∀ n r b m, d.dch[n]? = some r → r.child b = .node m → n < m ∧ m < d.dch.length

/-- The bits lead from record `n` along edges to a record. -/
def NodePath (d : DecodeStore) : Nat → List Bool → Prop
  | n, [] => n < d.dch.length
  | n, b :: bs => ∃ r m, d.dch[n]? = some r ∧ r.child b = .node m ∧ NodePath d m bs

@[simp] theorem DRecord.child_setChild_self (r : DRecord) (b : Bool) (e : DEntry) : (r.setChild b e).child b = e := by
  cases b <;> rfl

theorem DRecord.child_setChild_ne (r : DRecord) {b c : Bool} (e : DEntry) (h : b ≠ c) :
    (r.setChild b e).child c = r.child c := by
  obtain rfl : c = !b := Bool.eq_not.2 h.symm
  cases b <;> rfl

@[simp] theorem length_setChild (d : DecodeStore) (n : Nat) (b : Bool) (e : DEntry) :
    (d.setChild n b e).dch.length = d.dch.length := by simp [DecodeStore.setChild]

@[simp] theorem dnext_setChild (d : DecodeStore) (n : Nat) (b : Bool) (e : DEntry) :
    (d.setChild n b e).dnext = d.dnext := rfl

@[simp] theorem dcur_setChild (d : DecodeStore) (n : Nat) (b : Bool) (e : DEntry) :
    (d.setChild n b e).dcur = d.dcur := rfl

@[simp] theorem dcur_alloc (d : DecodeStore) : d.alloc.dcur = d.dcur := rfl

theorem getElem?_setChild_self {d : DecodeStore} {n : Nat} {r : DRecord} (b : Bool) (e : DEntry)
    (h : d.dch[n]? = some r) : (d.setChild n b e).dch[n]? = some (r.setChild b e) := by
  simp [DecodeStore.setChild, h]

theorem getElem?_setChild_ne {d : DecodeStore} {n j : Nat} (b : Bool) (e : DEntry) (h : n ≠ j) :
    (d.setChild n b e).dch[j]? = d.dch[j]? := by
  simp [DecodeStore.setChild, h]

theorem Linked.dch_alloc {d : DecodeStore} (h : Linked d) : d.alloc.dch = d.dch ++ [⟨.none, .none⟩] := by
  simp [DecodeStore.alloc, h.count]

theorem Linked.getElem?_alloc {d : DecodeStore} (h : Linked d) {j : Nat} (hj : j < d.dch.length) :
    d.alloc.dch[j]? = d.dch[j]? := by rw [h.dch_alloc, List.getElem?_append_left hj]

theorem Linked.length_alloc {d : DecodeStore} (h : Linked d) : d.alloc.dch.length = d.dch.length + 1 := by
  simp [h.dch_alloc]

/-- The root alone is a tree (R172). -/
theorem linked_root (c : Nat) : Linked ⟨[⟨.none, .none⟩], 1, c⟩ := by
  refine ⟨rfl, fun n r b m hr hm => ?_⟩
  have hr' : r = ⟨.none, .none⟩ := by simpa using List.mem_of_getElem? hr
  subst hr'
  cases b <;> cases hm

theorem Linked.alloc {d : DecodeStore} (h : Linked d) : Linked d.alloc := by
  refine ⟨by rw [h.length_alloc, ← h.count]; rfl, fun n r b m hr hm => ?_⟩
  rw [h.length_alloc]
  rcases lt_trichotomy n d.dch.length with hn | rfl | hn
  · rw [h.getElem?_alloc hn] at hr
    obtain ⟨hnm, hlt⟩ := h.edge n r b m hr hm
    exact ⟨hnm, by omega⟩
  · rw [h.dch_alloc, List.getElem?_concat_length] at hr
    injection hr with hr
    subst hr
    cases b <;> cases hm
  · have hlt := (List.getElem?_eq_some_iff.1 hr).1
    rw [h.length_alloc] at hlt
    omega

/-- An entry that is no edge, or an edge to a record allocated later, keeps the store linked. -/
theorem Linked.setChild {d : DecodeStore} (h : Linked d) {n : Nat} {b : Bool} {e : DEntry}
    (he : ∀ m, e = .node m → n < m ∧ m < d.dch.length) : Linked (d.setChild n b e) := by
  refine ⟨by simpa using h.count, fun j r c m hr hm => ?_⟩
  rw [length_setChild]
  by_cases hj : n = j
  · subst hj
    obtain ⟨r0, hr0⟩ : ∃ r0, d.dch[n]? = some r0 := by
      have hlt := (List.getElem?_eq_some_iff.1 hr).1
      rw [length_setChild] at hlt
      exact ⟨_, List.getElem?_eq_getElem hlt⟩
    rw [getElem?_setChild_self b e hr0] at hr
    injection hr with hr
    subst hr
    by_cases hbc : b = c
    · subst hbc
      rw [DRecord.child_setChild_self] at hm
      exact he m hm
    · rw [DRecord.child_setChild_ne _ _ hbc] at hm
      exact h.edge n r0 c m hr0 hm
  · rw [getElem?_setChild_ne b e hj] at hr
    exact h.edge j r c m hr hm

/-- The store with a new record below the free entry `b` of record `n`: the step of CC_TREE's walk where an edge is
missing (R172). -/
theorem Linked.grow {d : DecodeStore} (h : Linked d) {n : Nat} (b : Bool) (hn : n < d.dch.length) :
    Linked (d.alloc.setChild n b (.node d.dnext)) := by
  refine h.alloc.setChild fun m hm => ?_
  injection hm with hm
  subst hm
  rw [h.length_alloc, h.count]
  exact ⟨hn, Nat.lt_succ_self _⟩

/-! ### Inserting a code -/

/-- What the insertion of a code below record `n` leads to. The bits `x` are those for which the store has records
already, so the records added are those of the bits between them and the last one. -/
structure Inserted (d d' : DecodeStore) (n : Nat) (bits x : List Bool) : Prop where
  linked : Linked d'
  kept : ∀ j, j < n → d'.dch[j]? = d.dch[j]?
  dcur : d'.dcur = d.dcur
  path : NodePath d' n bits.dropLast
  size : d'.dch.length + x.length + 1 ≤ d.dch.length + bits.length

/-- The last bit's entry becomes the leaf. -/
theorem inserted_leaf {d : DecodeStore} {n : Nat} (hd : Linked d) (hn : n < d.dch.length) (b : Bool) (sym : Nat) :
    Inserted d (d.setChild n b (.leaf sym)) n [b] [] :=
  ⟨hd.setChild nofun, fun j hj => getElem?_setChild_ne _ _ (by omega), rfl, by simpa [NodePath] using hn, by simp⟩

/-- Where the edge is missing, the rest of the code goes below the new record. -/
theorem Inserted.of_new {d d' : DecodeStore} {n : Nat} {r : DRecord} {b b' : Bool} {bs : List Bool} (hd : Linked d)
    (hr : d.dch[n]? = some r)
    (h : Inserted (d.alloc.setChild n b (.node d.dnext)) d' d.dnext (b' :: bs) []) :
    Inserted d d' n (b :: b' :: bs) [] := by
  have hn : n < d.dch.length := (List.getElem?_eq_some_iff.1 hr).1
  have hn' : n < d.dnext := hd.count ▸ hn
  obtain ⟨hl, hk, hc, hp, hs⟩ := h
  have hrec : d'.dch[n]? = some (r.setChild b (.node d.dnext)) := by
    rw [hk n hn', getElem?_setChild_self _ _ (by rw [hd.getElem?_alloc hn, hr])]
  refine ⟨hl, fun j hj => ?_, by simpa using hc, ⟨_, _, hrec, by simp, hp⟩, ?_⟩
  · rw [hk j (by omega), getElem?_setChild_ne _ _ (by omega), hd.getElem?_alloc (by omega)]
  · rw [length_setChild, hd.length_alloc] at hs
    simp only [List.length_cons, List.length_nil] at hs ⊢
    omega

/-- Where the edge is there, the rest of the code goes below the record it leads to. -/
theorem Inserted.of_edge {d d' : DecodeStore} {n m : Nat} {r : DRecord} {b b' : Bool} {bs x x' : List Bool}
    (hd : Linked d) (hr : d.dch[n]? = some r) (hm : r.child b = .node m) (h : Inserted d d' m (b' :: bs) x')
    (hx : x.length ≤ x'.length + 1) : Inserted d d' n (b :: b' :: bs) x := by
  have hnm := (hd.edge n r b m hr hm).1
  obtain ⟨hl, hk, hc, hp, hs⟩ := h
  refine ⟨hl, fun j hj => hk j (by omega), hc, ⟨r, m, (hk n hnm).trans hr, hm, hp⟩, ?_⟩
  simp only [List.length_cons] at hs ⊢
  omega

/-- A path that begins at a record begins with an edge of that record. -/
theorem nodePath_cons {d : DecodeStore} {n : Nat} {r : DRecord} {b : Bool} {x : List Bool} (hr : d.dch[n]? = some r)
    (h : NodePath d n (b :: x)) : ∃ m, r.child b = .node m ∧ NodePath d m x := by
  obtain ⟨r', m, hr', hm, hx⟩ := h
  rw [hr] at hr'
  injection hr' with hr'
  exact ⟨m, hr' ▸ hm, hx⟩

/-- The insertion of a code of which the store has the bits `x` already, but for the last bit at least (R172). -/
theorem ccInsert_ok {sym : Nat} {bits : List Bool} {n : Nat} {d d' : DecodeStore} (hd : Linked d)
    (hn : n < d.dch.length) (h : ccInsert sym bits n d = .ok d') {x y : List Bool} (hxy : bits = x ++ y) (hy : y ≠ [])
    (hx : NodePath d n x) : Inserted d d' n bits x := by
  induction bits generalizing n d x y with
  | nil => cases h
  | cons b bs ih =>
    cases bs with
    | nil =>
      obtain rfl : x = [] := by
        rcases x with _ | ⟨c, x⟩
        · rfl
        · simp at hxy; exact absurd hxy.2.2 hy
      simp only [ccInsert, hn, if_true, Except.ok.injEq] at h
      exact h ▸ inserted_leaf hd hn b sym
    | cons b' bs =>
      unfold ccInsert at h
      split at h
      · cases h
      · next r hr =>
        split at h
        · next hchild =>
          obtain rfl : x = [] := by
            rcases x with _ | ⟨c, x⟩
            · rfl
            · obtain ⟨m, hm, -⟩ := nodePath_cons hr hx
              rw [List.cons_append, List.cons.injEq] at hxy
              rw [← hxy.1, hchild] at hm
              cases hm
          have hnew : d.dnext < (d.alloc.setChild n b (.node d.dnext)).dch.length := by
            rw [length_setChild, hd.length_alloc, hd.count]
            exact Nat.lt_succ_self _
          exact .of_new hd hr (ih (hd.grow b hn) hnew h (x := []) rfl (by simp) hnew)
        · next m hchild =>
          have hm := (hd.edge n r b m hr hchild).2
          rcases x with _ | ⟨c, x⟩
          · exact .of_edge hd hr hchild (ih hd hm h (x := []) rfl (by simp) hm) (by simp)
          · obtain ⟨m', hm', hpath⟩ := nodePath_cons hr hx
            rw [List.cons_append, List.cons.injEq] at hxy
            rw [← hxy.1, hchild] at hm'
            injection hm' with hm'
            exact .of_edge hd hr hchild (ih hd hm h hxy.2 hy (hm' ▸ hpath)) (by simp)
        · cases h

/-! ### The size of the tree -/

/-- The tree after `k` codes were inserted behind the first one, of which `p` is the last: its records are at most one
for each code and each bit of `p` that is no one (R175). -/
structure TreeFits (d : DecodeStore) (p : List Bool) (k : Nat) : Prop where
  linked : Linked d
  root : 0 < d.dch.length
  path : NodePath d 0 p.dropLast
  size : d.dch.length + p.count true ≤ p.length + k

theorem nodePath_of_append {d : DecodeStore} {n : Nat} {x y : List Bool} (h : NodePath d n (x ++ y)) :
    NodePath d n x := by
  induction x generalizing n with
  | nil =>
    cases y with
    | nil => exact h
    | cons b y =>
      obtain ⟨r, m, hr, -, -⟩ := h
      exact (List.getElem?_eq_some_iff.1 hr).1
  | cons b x ih =>
    obtain ⟨r, m, hr, hm, hp⟩ := h
    exact ⟨r, m, hr, hm, ih hp⟩

/-- Inserting the first code makes one record for each of its bits at most. -/
theorem treeFits_first {sym c : Nat} {n : Nat} {d : DecodeStore}
    (h : ccInsert sym (List.replicate n false) 0 ⟨[⟨.none, .none⟩], 1, c⟩ = .ok d) :
    TreeFits d (List.replicate n false) 0 ∧ d.dcur = c := by
  have hne : List.replicate n false ≠ [] := by
    intro hnil; rw [hnil] at h; cases h
  obtain ⟨hl, -, hc, hp, hs⟩ :=
    ccInsert_ok (linked_root c) Nat.one_pos h (x := []) rfl hne (by simp [NodePath])
  refine ⟨⟨hl, ?_, hp, ?_⟩, hc⟩
  · have hroot : NodePath d 0 [] := nodePath_of_append (x := []) hp
    exact hroot
  · simp [List.count_replicate] at hs ⊢
    omega

/-- Inserting the code that follows keeps the bound: the ones it loses pay for the records it needs. -/
theorem TreeFits.insert {d d' : DecodeStore} {p q : List Bool} {k sym : Nat} (h : TreeFits d p k)
    (hpq : FollowsCode p q) (hins : ccInsert sym q 0 d = .ok d') : TreeFits d' q (k + 1) ∧ d'.dcur = d.dcur := by
  obtain ⟨x, t, j, rfl, rfl⟩ := hpq
  have hx : NodePath d 0 x := by
    have hpath := h.path
    rw [List.dropLast_append_of_ne_nil (by simp)] at hpath
    exact nodePath_of_append hpath
  obtain ⟨hl, -, hc, hp, hs⟩ := ccInsert_ok h.linked h.root hins rfl (by simp) hx
  have hsize := h.size
  refine ⟨⟨hl, ?_, hp, ?_⟩, hc⟩
  · have hroot' : NodePath d' 0 [] := nodePath_of_append (x := []) hp
    exact hroot'
  · simp [List.count_replicate] at hs hsize ⊢
    omega

/-! ### CC_TREE along the canonical order -/

/-- The code CANON gives the entry after the entries `pre` (R145), as bits. -/
def codeAfter (pre : List (Nat × Nat)) (e : Nat × Nat) : List Bool :=
  bitString (codeSpace pre >>> (L_MAX - e.2)) e.2

/-- Of two neighbours in canonical order the second one's code follows the first one's. -/
theorem codeAfter_followsCode {pre : List (Nat × Nat)} {e f : Nat × Nat} (hpre : ∀ g ∈ pre, g.2 ≤ e.2)
    (hef : e.2 ≤ f.2) (hf : f.2 ≤ L_MAX) (hspace : codeSpace (pre ++ [e]) < 2 ^ L_MAX) :
    FollowsCode (codeAfter pre e) (codeAfter (pre ++ [e]) f) := by
  obtain ⟨v, hv⟩ := dvd_codeSpace hpre
  obtain ⟨k, hk⟩ := Nat.exists_eq_add_of_le hef
  have hcode : codeSpace pre >>> (L_MAX - e.2) = v := by
    rw [hv, Nat.shiftRight_eq_div_pow, Nat.mul_div_cancel_left _ (by positivity)]
  have hnext : codeSpace (pre ++ [e]) = (v + 1) * 2 ^ (L_MAX - e.2) := by
    rw [codeSpace_append, hv, codeSpace_cons, codeSpace_nil]; ring
  have hcode' : codeSpace (pre ++ [e]) >>> (L_MAX - f.2) = (v + 1) * 2 ^ k := by
    have hsplit : L_MAX - e.2 = k + (L_MAX - f.2) := by omega
    rw [hnext, Nat.shiftRight_eq_div_pow, hsplit, pow_add, ← mul_assoc, Nat.mul_div_cancel _ (by positivity)]
  have hlt : v + 1 < 2 ^ e.2 := by
    rw [hnext] at hspace
    refine Nat.lt_of_mul_lt_mul_right (a := 2 ^ (L_MAX - e.2)) ?_
    rw [← pow_add, show e.2 + (L_MAX - e.2) = L_MAX by omega]
    exact hspace
  rw [codeAfter, codeAfter, hcode, hcode', hk]
  exact followsCode_next hlt

/-- The tree after the insertions of the entries `post` behind the entry `e`. -/
theorem ccInsertAll_fits {code : Table CodeWord NSYM} {pre post : List (Nat × Nat)} {e : Nat × Nat}
    {d d' : DecodeStore} {k : Nat} (hsorted : (pre ++ e :: post).Pairwise (fun g f => g.2 ≤ f.2))
    (hbounds : ∀ g ∈ pre ++ e :: post, 0 < g.2 ∧ g.2 ≤ L_MAX) (hspace : codeSpace (pre ++ e :: post) ≤ 2 ^ L_MAX)
    (hcode : ∀ pre' g post', pre ++ e :: post = pre' ++ g :: post' →
      codeBits (Table.get code g.1 0) g.2 = codeAfter pre' g)
    (hfit : TreeFits d (codeAfter pre e) k) (h : ccInsertAll code post d = .ok d') :
    ∃ p, p.length ≤ L_MAX ∧ TreeFits d' p (k + post.length) ∧ d'.dcur = d.dcur := by
  induction post generalizing pre e d k with
  | nil =>
    injection h with h
    subst h
    exact ⟨_, by simpa [codeAfter] using (hbounds e (by simp)).2, hfit, rfl⟩
  | cons f post ih =>
    unfold ccInsertAll at h
    split at h
    · next d1 h1 =>
      have happ : pre ++ e :: f :: post = (pre ++ [e]) ++ f :: post := by simp
      have hfollow : FollowsCode (codeAfter pre e) (codeAfter (pre ++ [e]) f) := by
        refine codeAfter_followsCode (fun g hg => ?_) ?_ (hbounds f (by simp)).2 ?_
        · exact (List.pairwise_append.1 hsorted).2.2 g hg e (by simp)
        · exact (List.pairwise_cons.1 (List.pairwise_append.1 hsorted).2.1).1 f (by simp)
        · have hpos : 0 < 2 ^ (L_MAX - f.2) := by positivity
          rw [happ, codeSpace_append, codeSpace_cons] at hspace
          omega
      rw [hcode (pre ++ [e]) f post happ] at h1
      obtain ⟨hfit1, hc1⟩ := hfit.insert hfollow h1
      rw [happ] at hsorted hbounds hspace hcode
      obtain ⟨p, hp, hfit', hc⟩ := ih hsorted hbounds hspace hcode hfit1 h
      exact ⟨p, hp, by rwa [List.length_cons, show k + (post.length + 1) = k + 1 + post.length by omega],
        hc.trans hc1⟩
    · cases h

/-- The tree CC_TREE makes has at most 301 records, and each edge leads to one of them (R175). -/
theorem ccTree_fits {s t : State} {code : Table CodeWord NSYM} (hspace : codeSpace (canonicalOrder s.len) ≤ 2 ^ L_MAX)
    (hcode : s.code = (canonOver code (canonicalOrder s.len)).1) (h : ccTree s = .ok t) :
    ∃ d, t = { s with dec := d } ∧ Linked d ∧ d.dch.length ≤ DNODE ∧ d.dcur = s.dec.dcur := by
  unfold ccTree at h
  split at h
  · next d hd =>
    injection h with h
    refine ⟨d, h.symm, ?_⟩
    have hlen := length_canonicalOrder_le s.len
    have hsorted := canonicalOrder_sorted s.len
    have hnodup := canonicalOrder_nodup s.len
    have hbounds : ∀ g ∈ canonicalOrder s.len, g.1 < NSYM ∧ g.2 = Table.get s.len g.1 0 ∧ 0 < g.2 ∧ g.2 ≤ L_MAX :=
      fun g hg => bounds_of_mem_canonicalOrder hg
    have hbits : ∀ pre g post, canonicalOrder s.len = pre ++ g :: post →
        codeBits (Table.get s.code g.1 0) g.2 = codeAfter pre g := by
      intro pre g post heq
      obtain ⟨hg, -, -, h45⟩ := hbounds g (by simp [heq])
      rw [hcode, heq, canonOver_get (heq ▸ hnodup) hg, codeBits_ofNat _ h45, codeAfter]
    cases hes : canonicalOrder s.len with
    | nil =>
      rw [hes] at hd
      injection hd with hd
      subst hd
      exact ⟨linked_root _, by simp, rfl⟩
    | cons e es =>
      rw [hes] at hd hsorted hspace hbounds hbits hlen
      unfold ccInsertAll at hd
      split at hd
      · next d1 h1 =>
        have hzero : codeAfter [] e = List.replicate e.2 false := by
          rw [codeAfter, codeSpace_nil, Nat.zero_shiftRight, bitString_zero_left]
        rw [hbits [] e es rfl, hzero] at h1
        obtain ⟨hfit, hc1⟩ := treeFits_first h1
        rw [← hzero] at hfit
        obtain ⟨p, hp, hfit', hc⟩ := ccInsertAll_fits (pre := []) hsorted (fun g hg => (hbounds g hg).2.2) hspace hbits
          hfit hd
        have hsize := hfit'.size
        refine ⟨hfit'.linked, ?_, hc.trans hc1⟩
        have hlen' : es.length + 1 ≤ 257 := hlen
        have hp' : p.length ≤ 45 := hp
        show d.dch.length ≤ 301
        omega
      · cases hd
  · cases h

end Sys2Proof.Safety
end

section
/-! PROOFS. The Huffman tree in the flat node store (spec/41_tree_builder.md R131 to R141). TB_DEPTH takes the merges of
TB_BUILD back, the last one first. Going back one merge, two facts about the live nodes and their depths are kept: the
Kraft sum over the live nodes is at most 1, and the weight of a node at depth D is at most total / fib D. So no depth
reaches 48. -/

namespace Sys2Proof.Safety

open Sys2Proof.Machine

/-! ### The live set -/

/-- The nodes of the live set (R133). -/
def live (d : NodeStore) : Finset Nat := (Finset.range NNODE).filter (fun i => Table.get d.nlive i false = true)

/-- The weight of a node (R32). -/
def weight (d : NodeStore) (i : Nat) : Nat := Table.get d.nfreq i 0

theorem mem_live {d : NodeStore} {i : Nat} : i ∈ live d ↔ i < NNODE ∧ Table.get d.nlive i false = true := by
  simp [live]

/-- The keys of the live set are the live nodes with their weights (R133). -/
theorem mem_liveKeys {d : NodeStore} {k : Nat × Nat} : k ∈ d.liveKeys ↔ k.2 ∈ live d ∧ k.1 = weight d k.2 := by
  obtain ⟨w, i⟩ := k
  simp only [NodeStore.liveKeys, List.mem_map, List.mem_filter, mem_live, weight, Prod.mk.injEq]
  constructor
  · rintro ⟨⟨⟨b, w'⟩, j⟩, ⟨hmem, hb⟩, rfl, rfl⟩
    obtain ⟨hb', hw'⟩ := List.getElem?_zip_eq_some.1 (List.mem_zipIdx_iff_getElem?.1 hmem)
    have hj : j < NNODE := by simpa using (List.getElem?_eq_some_iff.1 hb').1
    refine ⟨⟨hj, ?_⟩, ?_⟩
    · simp only [Table.get, List.getD_eq_getElem?_getD, hb', Option.getD_some]
      exact hb
    · simp only [Table.get, List.getD_eq_getElem?_getD, hw', Option.getD_some]
  · rintro ⟨⟨hi, hlive⟩, rfl⟩
    refine ⟨((true, Table.get d.nfreq i 0), i), ⟨?_, rfl⟩, rfl, rfl⟩
    rw [List.mem_zipIdx_iff_getElem?, List.getElem?_zip_eq_some]
    constructor
    · rw [List.getElem?_eq_getElem (by simpa using hi), Table.list_getElem _ hi false, hlive]
    · rw [List.getElem?_eq_getElem (by simpa using hi), Table.list_getElem _ hi 0]

theorem card_filter_range (n : Nat) (p : Nat → Bool) :
    ((Finset.range n).filter (fun i => p i = true)).card = (List.range n).countP p := by
  have hp : (fun i => decide (p i = true)) = p := by funext i; simp
  conv_rhs => rw [List.countP_eq_length_filter, ← hp]
  rfl

theorem liveCount_eq_card (d : NodeStore) : d.liveCount = (live d).card := by
  have hlist : d.nlive.toArray.toList = (List.range NNODE).map (fun i => Table.get d.nlive i false) := by
    apply List.ext_getElem
    · simp
    · intro i h1 h2
      have hi : i < NNODE := by simpa using h1
      rw [Table.list_getElem _ hi false]
      simp
  rw [NodeStore.liveCount, hlist, List.countP_map, live, card_filter_range]
  rfl

/-! ### The priority order -/

/-- The lexicographic order the keys are compared by (R133). -/
theorem keyLt_iff {a b : Nat × Nat} : keyLt a b = true ↔ a.1 < b.1 ∨ (a.1 = b.1 ∧ a.2 < b.2) := by
  simp [keyLt]

theorem keyLt_asymm {a b : Nat × Nat} (h : keyLt a b = true) : ¬ keyLt b a = true := by
  rw [keyLt_iff] at *; omega

/-- The running minimum is among the keys, and no key is below it. -/
theorem foldl_min_spec (ks : List (Nat × Nat)) (k : Nat × Nat) :
    ks.foldl (fun m c => if keyLt c m then c else m) k ∈ k :: ks ∧
      ∀ c ∈ k :: ks, ¬ keyLt c (ks.foldl (fun m c => if keyLt c m then c else m) k) = true := by
  induction ks generalizing k with
  | nil =>
    refine ⟨by simp, fun c hc => ?_⟩
    obtain rfl : c = k := by simpa using hc
    intro h
    exact keyLt_asymm h h
  | cons c ks ih =>
    rw [List.foldl_cons]
    by_cases hlt : keyLt c k = true
    · rw [if_pos hlt]
      obtain ⟨hmem, hmin⟩ := ih c
      refine ⟨List.mem_cons_of_mem _ hmem, fun e he => ?_⟩
      rcases List.mem_cons.1 he with rfl | he
      · intro h
        refine hmin c (by simp) ?_
        rw [keyLt_iff] at *; omega
      · exact hmin e he
    · rw [if_neg hlt]
      obtain ⟨hmem, hmin⟩ := ih k
      refine ⟨by rcases List.mem_cons.1 hmem with h | h <;> simp [h], fun e he => ?_⟩
      rcases List.mem_cons.1 he with rfl | he
      · exact hmin e (by simp)
      · rcases List.mem_cons.1 he with rfl | he
        · have hk := hmin k (by simp)
          rw [keyLt_iff] at *; omega
        · exact hmin e (List.mem_cons_of_mem _ he)

theorem minKey_some {ks : List (Nat × Nat)} {k : Nat × Nat} (h : minKey ks = some k) :
    k ∈ ks ∧ ∀ c ∈ ks, ¬ keyLt c k = true := by
  cases ks with
  | nil => cases h
  | cons c ks =>
    injection h with h
    exact h ▸ foldl_min_spec ks c

/-- TB_XMIN takes the node of least key off the live set and changes nothing else (R134). -/
theorem tbXmin_ok {d d' : NodeStore} {i : Nat} (h : tbXmin d = .ok (i, d')) :
    LeastKey d i ∧ d' = { d with nlive := Table.set d.nlive i false } := by
  unfold tbXmin at h
  split at h
  · cases h
  · next k hk =>
    injection h with h
    injection h with hi hd
    subst hi
    refine ⟨?_, hd.symm⟩
    obtain ⟨hmem, hmin⟩ := minKey_some hk
    obtain ⟨hlive, hw⟩ := mem_liveKeys.1 hmem
    obtain ⟨hlt, hget⟩ := mem_live.1 hlive
    refine ⟨hlt, hget, fun j hj hji hjlive => ?_⟩
    have hnot := hmin (weight d j, j) (mem_liveKeys.2 ⟨mem_live.2 ⟨hj, hjlive⟩, rfl⟩)
    rw [keyLt_iff] at hnot
    have hw' : k.1 = Table.get d.nfreq k.2 0 := hw
    have hj' : weight d j = Table.get d.nfreq j 0 := rfl
    omega

/-! ### A merge -/

/-- `d'` is `d` after TB_MERGE of the live nodes `a` and `b`, the two least (R135). -/
structure Merges (d d' : NodeStore) (a b : Nat) : Prop where
  ne : a ≠ b
  left : a ∈ live d
  right : b ∈ live d
  least : ∀ j ∈ live d, weight d a ≤ weight d j
  second : ∀ j ∈ live d, j ≠ a → weight d b ≤ weight d j
  room : d.nnext < NNODE
  eq : d' = { d with nlive := Table.set (Table.set d.nlive a false) b false }.addNode a b

theorem LeastKey.mem_live {d : NodeStore} {i : Nat} (h : LeastKey d i) : i ∈ live d :=
  Safety.mem_live.2 ⟨h.1, h.2.1⟩

theorem LeastKey.weight_le {d : NodeStore} {i j : Nat} (h : LeastKey d i) (hj : j ∈ live d) :
    weight d i ≤ weight d j := by
  obtain ⟨hlt, hlive⟩ := Safety.mem_live.1 hj
  by_cases hji : j = i
  · rw [hji]
  · rcases h.2.2 j hlt hji hlive with hw | ⟨hw, -⟩
    · exact hw.le
    · exact hw.le

theorem mem_live_set_false {d : NodeStore} {a j : Nat} (ha : a < NNODE) :
    j ∈ live { d with nlive := Table.set d.nlive a false } ↔ j ∈ live d ∧ j ≠ a := by
  rw [mem_live, mem_live, Table.get_set _ _ ha]
  by_cases h : a = j
  · simp [h]
  · simp [h, Ne.symm h]

theorem tbMerge_ok {d d' : NodeStore} (h : tbMerge d = .ok d') : ∃ a b, Merges d d' a b := by
  unfold tbMerge at h
  split at h
  · cases h
  · next a d1 ha =>
    obtain ⟨hleast, rfl⟩ := tbXmin_ok ha
    have haN : a < NNODE := hleast.1
    split at h
    · cases h
    · next b d2 hb =>
      obtain ⟨hsecond, rfl⟩ := tbXmin_ok hb
      obtain ⟨hblive, hba⟩ := (mem_live_set_false haN).1 hsecond.mem_live
      split at h
      · next hroom =>
        injection h with h
        refine ⟨a, b, Ne.symm hba, hleast.mem_live, hblive, fun j hj => hleast.weight_le hj, fun j hj hja => ?_, hroom,
          h.symm⟩
        exact hsecond.weight_le ((mem_live_set_false haN).2 ⟨hj, hja⟩)
      · cases h

section
variable {d d' : NodeStore} {a b : Nat} (h : Merges d d' a b)
include h

theorem Merges.left_lt : a < NNODE := (mem_live.1 h.left).1
theorem Merges.right_lt : b < NNODE := (mem_live.1 h.right).1

theorem Merges.nnext : d'.nnext = d.nnext + 1 := by rw [h.eq]; rfl
theorem Merges.ndepth : d'.ndepth = d.ndepth := by rw [h.eq]; rfl

theorem Merges.weight_new : weight d' d.nnext = weight d a + weight d b := by
  rw [h.eq]
  exact Table.get_set_self _ _ h.room

theorem Merges.weight_old {j : Nat} (hj : j ≠ d.nnext) : weight d' j = weight d j := by
  rw [h.eq]
  exact Table.get_set_ne _ _ hj.symm

theorem Merges.nleft_get (j : Nat) :
    Table.get d'.nleft j 0 = if j = d.nnext then a else Table.get d.nleft j 0 := by
  rw [h.eq]
  refine (Table.get_set _ _ h.room).trans ?_
  simp only [eq_comm]

theorem Merges.nright_get (j : Nat) :
    Table.get d'.nright j 0 = if j = d.nnext then b else Table.get d.nright j 0 := by
  rw [h.eq]
  refine (Table.get_set _ _ h.room).trans ?_
  simp only [eq_comm]

/-- The new node takes the place of the two merged ones in the live set. -/
theorem Merges.live_eq : live d' = insert d.nnext (((live d).erase a).erase b) := by
  have ha := h.left_lt
  have hb := h.right_lt
  have hroom := h.room
  ext j
  rw [h.eq, mem_live]
  simp only [NodeStore.addNode, Finset.mem_insert, Finset.mem_erase, mem_live]
  rw [Table.get_set _ _ hroom, Table.get_set _ _ hb, Table.get_set _ _ ha]
  by_cases hn : d.nnext = j
  · subst hn; simp [hroom]
  · by_cases hbj : b = j
    · simp [hn, hbj, Ne.symm hn]
    · by_cases haj : a = j
      · simp [hn, haj, Ne.symm hn]
      · simp [hn, hbj, haj, Ne.symm hn, Ne.symm hbj, Ne.symm haj]

end

/-! ### The forest before each merge -/

/-- The total weight of the live nodes. -/
def liveWeight (d : NodeStore) : Nat := ∑ j ∈ live d, weight d j

/-- What holds of the node store before each merge of TB_BUILD, the weights of the live nodes making up `total`. -/
structure Forest (total : Nat) (d : NodeStore) : Prop where
  total_eq : liveWeight d = total
  below : ∀ j ∈ live d, j < d.nnext
  heavy : ∀ j ∈ live d, 0 < weight d j ∨ ∀ k ∈ live d, k ≠ j → 0 < weight d k
  last : (live d).card ≤ 1 → ∀ j ∈ live d, j = d.nnext - 1
  base : NODE_BASE ≤ d.nnext
  room : d.nnext ≤ NNODE

/-- The live nodes after a merge, and the sums over them. -/
theorem Merges.sum_live {d d' : NodeStore} {a b : Nat} (h : Merges d d' a b) (hbelow : ∀ j ∈ live d, j < d.nnext)
    (f : Nat → Nat) : ∑ j ∈ live d, f j = f a + f b + ∑ j ∈ ((live d).erase a).erase b, f j ∧
      ∑ j ∈ live d', f j = f d.nnext + ∑ j ∈ ((live d).erase a).erase b, f j := by
  constructor
  · rw [← Finset.add_sum_erase _ f h.left,
      ← Finset.add_sum_erase _ f (Finset.mem_erase.2 ⟨h.ne.symm, h.right⟩), add_assoc]
  · rw [h.live_eq, Finset.sum_insert]
    intro hmem
    have hlt := hbelow _ (Finset.mem_of_mem_erase (Finset.mem_of_mem_erase hmem))
    omega

theorem Forest.merge {total : Nat} {d d' : NodeStore} {a b : Nat} (hd : Forest total d) (h : Merges d d' a b) :
    Forest total d' := by
  have hold : ∀ j ∈ ((live d).erase a).erase b, j ∈ live d ∧ j ≠ d.nnext ∧ weight d' j = weight d j := by
    intro j hj
    have hj' := Finset.mem_of_mem_erase (Finset.mem_of_mem_erase hj)
    have hne := (hd.below j hj').ne
    exact ⟨hj', hne, h.weight_old hne⟩
  have hab : 0 < weight d a + weight d b := by
    rcases hd.heavy a h.left with hpos | hpos
    · omega
    · have := hpos b h.right h.ne.symm
      omega
  have hroom := h.room
  refine ⟨?_, fun j hj => ?_, fun j hj => ?_, fun hcard j hj => ?_, ?_, ?_⟩
  · obtain ⟨hsum, -⟩ := h.sum_live hd.below (weight d)
    obtain ⟨-, hsum'⟩ := h.sum_live hd.below (weight d')
    rw [← hd.total_eq, liveWeight, liveWeight, hsum, hsum', h.weight_new,
      Finset.sum_congr rfl fun j hj => (hold j hj).2.2]
  · rw [h.nnext]
    rw [h.live_eq] at hj
    rcases Finset.mem_insert.1 hj with rfl | hj
    · omega
    · have := hd.below j (hold j hj).1
      omega
  · rw [h.live_eq] at hj ⊢
    rcases Finset.mem_insert.1 hj with rfl | hj
    · left; rw [h.weight_new]; exact hab
    · rw [(hold j hj).2.2]
      refine (hd.heavy j (hold j hj).1).imp_right fun hpos k hk hkj => ?_
      rcases Finset.mem_insert.1 hk with rfl | hk
      · rw [h.weight_new]; exact hab
      · rw [(hold k hk).2.2]
        exact hpos k (hold k hk).1 hkj
  · have hnew : d.nnext ∈ live d' := by rw [h.live_eq]; exact Finset.mem_insert_self _ _
    rw [h.nnext, Nat.add_sub_cancel]
    exact Finset.card_le_one.1 hcard j hj _ hnew
  · rw [h.nnext]
    have := hd.base
    omega
  · rw [h.nnext]; omega

theorem Forest.weight_le {total : Nat} {d : NodeStore} (hd : Forest total d) {j : Nat} (hj : j ∈ live d) :
    weight d j ≤ total := by
  rw [← hd.total_eq]
  exact Finset.single_le_sum (f := weight d) (fun _ _ => Nat.zero_le _) hj

/-- What every merge keeps, the merges of TB_BUILD keep (R137). -/
theorem tbMergeLoop_invariant {P : NodeStore → Prop} (hP : ∀ d d' a b, P d → Merges d d' a b → P d') {n : Nat}
    {d e : NodeStore} (h : P d) (he : tbMergeLoop n d = .ok e) : P e := by
  induction n generalizing d with
  | zero => injection he with he; exact he ▸ h
  | succ n ih =>
    unfold tbMergeLoop at he
    split at he
    · split at he
      · next d' hd' =>
        obtain ⟨a, b, hm⟩ := tbMerge_ok hd'
        exact ih (hP d d' a b h hm) he
      · cases he
    · injection he with he; exact he ▸ h

/-- Later merges leave the children of the nodes made before. -/
theorem tbMergeLoop_children {n : Nat} {d e : NodeStore} (he : tbMergeLoop n d = .ok e) :
    d.nnext ≤ e.nnext ∧ ∀ j, j < d.nnext →
      Table.get e.nleft j 0 = Table.get d.nleft j 0 ∧ Table.get e.nright j 0 = Table.get d.nright j 0 := by
  refine tbMergeLoop_invariant (P := fun u => d.nnext ≤ u.nnext ∧ ∀ j, j < d.nnext →
      Table.get u.nleft j 0 = Table.get d.nleft j 0 ∧ Table.get u.nright j 0 = Table.get d.nright j 0)
    (fun u u' a b hu hm => ?_) ⟨le_rfl, fun _ _ => ⟨rfl, rfl⟩⟩ he
  obtain ⟨hle, hkept⟩ := hu
  refine ⟨by rw [hm.nnext]; omega, fun j hj => ?_⟩
  have hne : j ≠ u.nnext := by omega
  rw [hm.nleft_get, hm.nright_get, if_neg hne, if_neg hne]
  exact hkept j hj

/-! ### Depths, the merges taken back -/

/-- The depth of a node (R32). -/
def depth (t : Table Nat NNODE) (i : Nat) : Nat := Table.get t i 0

/-- The depths of the live nodes of a forest in the tree it grows to: a deep node is light, and the Kraft sum over the
live nodes is at most 1, in units of 2^-45 (R143, R150). -/
structure Shallow (total : Nat) (d : NodeStore) (t : Table Nat NNODE) : Prop where
  light : ∀ j ∈ live d, ∀ μ, (∀ k ∈ live d, k ≠ j → μ ≤ weight d k) →
    Nat.fib (depth t j + 1) * weight d j + Nat.fib (depth t j) * μ ≤ total
  kraft : ∑ j ∈ live d, 2 ^ L_MAX / 2 ^ depth t j ≤ 2 ^ L_MAX

/-- One edge more is at most half the code space for each of two children. -/
theorem two_mul_div_two_pow_succ (x k : Nat) : x / 2 ^ (k + 1) + x / 2 ^ (k + 1) ≤ x / 2 ^ k := by
  rw [pow_succ, ← Nat.div_div_eq_div_mul]
  omega

/-- Taking a merge back: the two children are one edge deeper than the node that joined them (R140). -/
theorem Shallow.unmerge {total : Nat} {d d' : NodeStore} {a b : Nat} {t : Table Nat NNODE} (hd : Forest total d)
    (h : Merges d d' a b) (ht : Shallow total d' t) :
    Shallow total d (Table.set (Table.set t a (depth t d.nnext + 1)) b (depth t d.nnext + 1)) := by
  have ha := h.left_lt
  have hb := h.right_lt
  have hne := h.ne
  set u := Table.set (Table.set t a (depth t d.nnext + 1)) b (depth t d.nnext + 1) with hu
  have hua : depth u a = depth t d.nnext + 1 := by
    rw [depth, hu, Table.get_set_ne _ _ hne.symm, Table.get_set_self _ _ ha]
  have hub : depth u b = depth t d.nnext + 1 := by rw [depth, hu, Table.get_set_self _ _ hb]
  have huj : ∀ j, j ≠ a → j ≠ b → depth u j = depth t j := by
    intro j hja hjb
    rw [depth, hu, Table.get_set_ne _ _ hjb.symm, Table.get_set_ne _ _ hja.symm, depth]
  have hnew : d.nnext ∈ live d' := by rw [h.live_eq]; exact Finset.mem_insert_self _ _
  have hold : ∀ k ∈ live d', k ≠ d.nnext → k ∈ live d ∧ k ≠ a ∧ k ≠ b ∧ weight d' k = weight d k := by
    intro k hk hkn
    rw [h.live_eq] at hk
    obtain ⟨hkb, hk⟩ := Finset.mem_erase.1 (Finset.mem_of_mem_insert_of_ne hk hkn)
    obtain ⟨hka, hk⟩ := Finset.mem_erase.1 hk
    exact ⟨hk, hka, hkb, h.weight_old hkn⟩
  have hleast := h.least b h.right
  -- the bound for the node the merge made, every other live node weighing at least as much as `b`
  have hjoin : Nat.fib (depth t d.nnext + 1) * (weight d a + weight d b) +
      Nat.fib (depth t d.nnext) * weight d b ≤ total := by
    rw [← h.weight_new]
    refine ht.light _ hnew _ fun k hk hkn => ?_
    obtain ⟨hk', hka, -, hw⟩ := hold k hk hkn
    rw [hw]
    exact h.second k hk' hka
  have hfib : Nat.fib (depth t d.nnext + 1 + 1) = Nat.fib (depth t d.nnext) + Nat.fib (depth t d.nnext + 1) :=
    Nat.fib_add_two
  refine ⟨fun j hj μ hμ => ?_, ?_⟩
  · by_cases hja : j = a
    · subst hja
      have hμb := hμ b h.right hne.symm
      rw [hua, hfib]
      have h1 := Nat.mul_le_mul_left (Nat.fib (depth t d.nnext)) hleast
      have h2 := Nat.mul_le_mul_left (Nat.fib (depth t d.nnext + 1)) hμb
      linarith
    · by_cases hjb : j = b
      · subst hjb
        have hμa := hμ a h.left hne
        rw [hub, hfib]
        have h2 := Nat.mul_le_mul_left (Nat.fib (depth t d.nnext + 1)) hμa
        linarith
      · have hjn : j ≠ d.nnext := (hd.below j hj).ne
        have hj' : j ∈ live d' := by
          rw [h.live_eq]
          exact Finset.mem_insert_of_mem (Finset.mem_erase.2 ⟨hjb, Finset.mem_erase.2 ⟨hja, hj⟩⟩)
        rw [huj j hja hjb, ← h.weight_old hjn]
        refine ht.light j hj' μ fun k hk hkj => ?_
        by_cases hkn : k = d.nnext
        · rw [hkn, h.weight_new]
          have := hμ a h.left (Ne.symm hja)
          omega
        · obtain ⟨hk', -, -, hw⟩ := hold k hk hkn
          rw [hw]
          exact hμ k hk' hkj
  · obtain ⟨hsum, -⟩ := h.sum_live hd.below (fun j => 2 ^ L_MAX / 2 ^ depth u j)
    obtain ⟨-, hsum'⟩ := h.sum_live hd.below (fun j => 2 ^ L_MAX / 2 ^ depth t j)
    have hrest : ∑ j ∈ ((live d).erase a).erase b, 2 ^ L_MAX / 2 ^ depth u j =
        ∑ j ∈ ((live d).erase a).erase b, 2 ^ L_MAX / 2 ^ depth t j := by
      refine Finset.sum_congr rfl fun j hj => ?_
      obtain ⟨hjb, hj⟩ := Finset.mem_erase.1 hj
      rw [huj j (Finset.ne_of_mem_erase hj) hjb]
    have hkraft := ht.kraft
    have hhalf := two_mul_div_two_pow_succ (2 ^ L_MAX) (depth t d.nnext)
    rw [hsum]
    rw [hsum'] at hkraft
    rw [hua, hub, hrest]
    omega

/-- The depth of a live node is bounded by the total weight (R150). -/
theorem Shallow.fib_le {total : Nat} {d : NodeStore} {t : Table Nat NNODE} (hd : Forest total d)
    (ht : Shallow total d t) {j : Nat} (hj : j ∈ live d) : Nat.fib (depth t j) ≤ total := by
  rcases hd.heavy j hj with hpos | hpos
  · have hlight := ht.light j hj 0 fun _ _ _ => Nat.zero_le _
    have hmono : Nat.fib (depth t j) ≤ Nat.fib (depth t j + 1) := Nat.fib_le_fib_succ
    have hmul := Nat.le_mul_of_pos_right (Nat.fib (depth t j + 1)) hpos
    omega
  · have hlight := ht.light j hj 1 hpos
    omega

/-- With a total weight of at most 2^32 no depth reaches 48. -/
theorem Shallow.depth_lt {total : Nat} {d : NodeStore} {t : Table Nat NNODE} (htotal : total ≤ 2 ^ 32)
    (hd : Forest total d) (ht : Shallow total d t) {j : Nat} (hj : j ∈ live d) : depth t j < 48 := by
  by_contra hge
  have hfib := ht.fib_le hd hj
  have hmono : Nat.fib 48 ≤ Nat.fib (depth t j) := Nat.fib_mono (by omega)
  have h48 : Nat.fib 48 = 4807526976 := by norm_num
  omega

/-- TB_DEPTH down to node `n`, from the root of the finished store `e` (R140). -/
def depthsDownTo (e : NodeStore) (n : Nat) : NodeStore :=
  (List.range' n (e.nnext - n)).reverse.foldl tbDepthNode
    { e with root := e.nnext - 1, ndepth := Table.set e.ndepth (e.nnext - 1) 0 }

theorem depthsDownTo_self (e : NodeStore) : depthsDownTo e e.nnext =
    { e with root := e.nnext - 1, ndepth := Table.set e.ndepth (e.nnext - 1) 0 } := by
  simp [depthsDownTo]

theorem depthsDownTo_of_lt {e : NodeStore} {n : Nat} (h : n < e.nnext) :
    depthsDownTo e n = tbDepthNode (depthsDownTo e (n + 1)) n := by
  rw [depthsDownTo, show e.nnext - n = (e.nnext - (n + 1)) + 1 by omega, List.range'_succ, List.reverse_cons,
    List.foldl_append]
  rfl

theorem tbDepth_eq_depthsDownTo {e : NodeStore} (h : NODE_BASE ≤ e.nnext) :
    tbDepth { e with root := e.nnext - 1 } = depthsDownTo e NODE_BASE := by
  have hpos : 1 ≤ e.nnext := le_trans (by decide) h
  simp only [tbDepth, depthsDownTo, Nat.sub_add_cancel hpos]

/-- TB_DEPTH changes the depths only. -/
theorem foldl_tbDepthNode_frame (is : List Nat) (d : NodeStore) :
    is.foldl tbDepthNode d = { d with ndepth := (is.foldl tbDepthNode d).ndepth } := by
  induction is generalizing d with
  | nil => rfl
  | cons i is ih =>
    rw [List.foldl_cons, ih]
    rfl

theorem depthsDownTo_frame (e : NodeStore) (n : Nat) :
    depthsDownTo e n = { e with root := e.nnext - 1, ndepth := (depthsDownTo e n).ndepth } :=
  foldl_tbDepthNode_frame _ _

theorem depthsDownTo_nleft (e : NodeStore) (n : Nat) : (depthsDownTo e n).nleft = e.nleft := by
  rw [depthsDownTo_frame]

theorem depthsDownTo_nright (e : NodeStore) (n : Nat) : (depthsDownTo e n).nright = e.nright := by
  rw [depthsDownTo_frame]

/-- The depths before TB_DEPTH go down further: every register is within its width, and the live nodes are shallow. -/
structure DepthsOk (total : Nat) (d : NodeStore) (t : Table Nat NNODE) : Prop where
  width : ∀ i, i < NNODE → depth t i < 2 ^ 6
  shallow : Shallow total d t

/-- A finished tree: its root has depth 0. -/
theorem DepthsOk.root {total : Nat} {e : NodeStore} (he : Forest total e) (hcard : (live e).card ≤ 1)
    (hwidth : ∀ i, i < NNODE → depth e.ndepth i < 2 ^ 6) :
    DepthsOk total e (Table.set e.ndepth (e.nnext - 1) 0) := by
  have hbase : 258 ≤ e.nnext := he.base
  have hroom : e.nnext ≤ NNODE := he.room
  have hN : e.nnext - 1 < NNODE := by omega
  have hroot : ∀ j ∈ live e, depth (Table.set e.ndepth (e.nnext - 1) 0) j = 0 := by
    intro j hj
    rw [he.last hcard j hj, depth, Table.get_set_self _ _ hN]
  refine ⟨fun i hi => ?_, ⟨fun j hj μ _ => ?_, ?_⟩⟩
  · rw [depth, Table.get_set _ _ hN]
    split
    · exact Nat.two_pow_pos 6
    · exact hwidth i hi
  · rw [hroot j hj]
    simpa using he.weight_le hj
  · rw [Finset.sum_congr rfl fun j hj => by rw [hroot j hj]]
    simpa using Nat.mul_le_mul_right (2 ^ L_MAX) hcard

theorem DepthsOk.unmerge {total : Nat} {d d' : NodeStore} {a b : Nat} {t : Table Nat NNODE} (htotal : total ≤ 2 ^ 32)
    (hd : Forest total d) (h : Merges d d' a b) (ht : DepthsOk total d' t) :
    DepthsOk total d (Table.set (Table.set t a (depth t d.nnext + 1)) b (depth t d.nnext + 1)) := by
  have hshallow := ht.shallow.unmerge hd h
  have hb := hshallow.depth_lt htotal hd h.right
  rw [depth, Table.get_set_self _ _ h.right_lt] at hb
  refine ⟨fun i hi => ?_, hshallow⟩
  rw [depth, Table.get_set _ _ h.right_lt, Table.get_set _ _ h.left_lt]
  split
  · omega
  · split
    · omega
    · exact ht.width i hi

/-- The merges of TB_BUILD taken back by TB_DEPTH (R137, R140). -/
theorem tbMergeLoop_depths {total n : Nat} {d e : NodeStore} (htotal : total ≤ 2 ^ 32) (hd : Forest total d)
    (hn : NNODE < n + d.nnext) (hwidth : ∀ i, i < NNODE → depth d.ndepth i < 2 ^ 6)
    (he : tbMergeLoop n d = .ok e) : DepthsOk total d (depthsDownTo e d.nnext).ndepth := by
  induction n generalizing d with
  | zero =>
    have hroom := hd.room
    omega
  | succ n ih =>
    unfold tbMergeLoop at he
    split at he
    · split at he
      · next d' hd' =>
        obtain ⟨a, b, hm⟩ := tbMerge_ok hd'
        have hnext := hm.nnext
        have hok := ih (hd.merge hm) (by omega) (by rwa [hm.ndepth]) he
        obtain ⟨hle, hkept⟩ := tbMergeLoop_children he
        obtain ⟨hleft, hright⟩ := hkept d.nnext (by omega)
        rw [hm.nleft_get, if_pos rfl] at hleft
        rw [hm.nright_get, if_pos rfl] at hright
        have hstep : (depthsDownTo e d.nnext).ndepth =
            Table.set (Table.set (depthsDownTo e d'.nnext).ndepth a (depth (depthsDownTo e d'.nnext).ndepth d.nnext + 1))
              b (depth (depthsDownTo e d'.nnext).ndepth d.nnext + 1) := by
          rw [depthsDownTo_of_lt (by omega), tbDepthNode, depthsDownTo_nleft, depthsDownTo_nright, hleft, hright, hnext]
          rfl
        rw [hstep]
        exact hok.unmerge htotal hd hm
      · cases he
    · next hcount =>
      injection he with he
      subst he
      rw [depthsDownTo_self]
      rw [liveCount_eq_card] at hcount
      exact DepthsOk.root hd (by omega) hwidth

end Sys2Proof.Safety
end

section
/-! PROOFS. No register of the block overflows its width (spec/10_state.md R50): O37. The bounds that need more than the
widths are kept from phase to phase: the counts of C_COUNT add up to ILEN + 1, the code lengths of C_DEPTH and of an
accepted header leave a Kraft sum of at most 1, and the decode tree of D_TREE fits its store. -/

namespace Sys2Proof.Safety

open Sys2Proof.Machine

/-! ### The counts -/

/-- FREQ holds the counts of `n` bytes, END_OF_STREAM counted once (R123). -/
structure Tallied (n : Nat) (freq : Table Nat NSYM) : Prop where
  bytes : ∑ i ∈ Finset.range 256, Table.get freq i 0 = n
  eos : Table.get freq EOS 0 = 1

theorem tallied_fcClear : Tallied 0 fcClear := by
  refine ⟨Finset.sum_eq_zero fun i hi => ?_, Table.get_set_self _ _ (by decide)⟩
  have hi : i < 256 := Finset.mem_range.1 hi
  have hne : EOS ≠ i := by show 256 ≠ i; omega
  have hlt : i < NSYM := by show i < 257; omega
  rw [fcClear, Table.get_set_ne _ _ hne, Table.get_fill _ _ hlt]

/-- Counting one more byte (R122). -/
theorem Tallied.count {n : Nat} {freq : Table Nat NSYM} (h : Tallied n freq) (b : Byte) :
    Tallied (n + 1) (Table.set freq b.toNat (Table.get freq b.toNat 0 + 1)) := by
  have hb : b.toNat < 256 := b.isLt
  have hlt : b.toNat < NSYM := by show b.toNat < 257; omega
  have hne : b.toNat ≠ EOS := by show b.toNat ≠ 256; omega
  refine ⟨?_, by rw [Table.get_set_ne _ _ hne, h.eos]⟩
  have hentry : ∀ i, Table.get (Table.set freq b.toNat (Table.get freq b.toNat 0 + 1)) i 0 =
      Table.get freq i 0 + if b.toNat = i then 1 else 0 := fun i => by
    rw [Table.get_set _ _ hlt]
    by_cases hi : b.toNat = i
    · simp [hi]
    · simp [hi]
  simp only [hentry, Finset.sum_add_distrib, h.bytes, Finset.sum_ite_eq, Finset.mem_range, hb, if_true]

theorem fcCountLoop_tallied {s : State} {n i k : Nat} {freq f : Table Nat NSYM} (h : Tallied k freq)
    (hf : fcCountLoop s n i freq = .ok f) : Tallied (k + n) f := by
  induction n generalizing i k freq with
  | zero => injection hf with hf; exact hf ▸ h
  | succ n ih =>
    unfold fcCountLoop at hf
    split at hf
    · next b _ =>
      have hrest := ih (h.count b) hf
      rwa [show k + 1 + n = k + (n + 1) by omega] at hrest
    · cases hf

/-- The sum of all counts (R123). -/
theorem Tallied.total {n : Nat} {freq : Table Nat NSYM} (h : Tallied n freq) :
    ∑ i ∈ Finset.range NSYM, Table.get freq i 0 = n + 1 := by
  rw [Finset.sum_range_succ, h.bytes]
  exact congrArg (n + ·) h.eos

theorem Tallied.get_lt {n : Nat} {freq : Table Nat NSYM} (h : Tallied n freq) (hn : n < 2 ^ 32) {i : Nat}
    (hi : i < 257) : Table.get freq i 0 < 2 ^ 32 := by
  rcases Nat.lt_succ_iff_lt_or_eq.1 hi with hi | rfl
  · have hle := Finset.single_le_sum (f := fun i => Table.get freq i 0) (fun _ _ => Nat.zero_le _)
      (Finset.mem_range.2 hi)
    rw [h.bytes] at hle
    exact hle.trans_lt hn
  · exact h.eos.trans_lt (by norm_num)

/-- TBITS is the sum of the lengths of the codes put (R215). -/
theorem payloadBits_eq (freq len : Table Nat NSYM) :
    payloadBits freq len =
      Table.get len EOS 0 + ∑ i ∈ Finset.range 256, Table.get freq i 0 * Table.get len i 0 := by
  rw [payloadBits, sum_take_toList _ (by decide)]
  refine congrArg _ (Finset.sum_congr rfl fun i hi => ?_)
  have hi : i < NSYM := (Finset.mem_range.1 hi).trans (by decide)
  exact Table.get_map2 0 0 0 hi hi

theorem payloadBits_le {n : Nat} {freq len : Table Nat NSYM} (h : Tallied n freq)
    (hlen : ∀ i, i < 257 → Table.get len i 0 < 2 ^ 6) : payloadBits freq len ≤ 63 * (n + 1) := by
  have hbytes : ∑ i ∈ Finset.range 256, Table.get freq i 0 * Table.get len i 0 ≤ n * 63 := by
    rw [← h.bytes, Finset.sum_mul]
    refine Finset.sum_le_sum fun i hi => Nat.mul_le_mul_left _ ?_
    have := hlen i (Nat.lt_succ_of_lt (Finset.mem_range.1 hi))
    omega
  have heos : Table.get len EOS 0 < 2 ^ 6 := hlen EOS (by decide)
  rw [payloadBits_eq]
  omega

/-! ### The leaves -/

theorem leafWeights_get {freq : Table Nat NSYM} {i : Nat} (hi : i < NNODE) :
    Table.get (leafWeights freq) i 0 = Table.get freq i 0 := by
  by_cases hsym : i < NSYM
  · exact Table.get_extend_lt _ _ hsym
  · rw [Table.get_of_le 0 (Nat.not_lt.1 hsym)]
    exact Table.get_extend_ge _ _ (Nat.not_lt.1 hsym) hi

/-- A symbol that occurs has its count as weight, any other node keeps the weight it has (R131). -/
theorem tbInit_weight {freq : Table Nat NSYM} {d : NodeStore} {i : Nat} (hi : i < NNODE) :
    weight (tbInit freq d) i = if 0 < Table.get freq i 0 then Table.get freq i 0 else weight d i := by
  have hget := Table.get_map2 (f := fun w old => if 0 < w then w else old) (t := leafWeights freq) (u := d.nfreq)
    0 0 0 hi hi
  rw [leafWeights_get hi] at hget
  exact hget

/-- The live nodes are the symbols that occur (R131). -/
theorem mem_live_tbInit {freq : Table Nat NSYM} {d : NodeStore} {i : Nat} :
    i ∈ live (tbInit freq d) ↔ 0 < Table.get freq i 0 := by
  have hlive : ∀ h : i < NNODE, Table.get (tbInit freq d).nlive i false = decide (0 < Table.get freq i 0) := fun h => by
    rw [← leafWeights_get h]
    exact Table.get_map 0 false h
  rw [mem_live]
  constructor
  · rintro ⟨hi, h⟩
    simpa [hlive hi] using h
  · intro h
    have hi : i < NNODE := by
      by_contra hge
      rw [Table.get_of_le 0 (le_trans (by decide) (Nat.not_lt.1 hge))] at h
      exact absurd h (lt_irrefl 0)
    exact ⟨hi, by simpa [hlive hi] using h⟩

/-- A symbol that occurs is one of the 257. -/
theorem lt_of_get_pos {freq : Table Nat NSYM} {i : Nat} (h : 0 < Table.get freq i 0) : i < NSYM := by
  by_contra hge
  rw [Table.get_of_le 0 (Nat.not_lt.1 hge)] at h
  exact absurd h (lt_irrefl 0)

theorem tbPlaceholder_of_ne {d : NodeStore} (h : (live d).card ≠ 1) : tbPlaceholder d = d := by
  rw [tbPlaceholder, liveCount_eq_card, if_neg h]

/-- The placeholder joins the live set with weight 0 (R132). -/
theorem tbPlaceholder_of_card {d : NodeStore} (h : (live d).card = 1) :
    live (tbPlaceholder d) = insert PH (live d) ∧
      ∀ i, weight (tbPlaceholder d) i = if PH = i then 0 else weight d i := by
  have hPH : PH < NNODE := by decide
  rw [tbPlaceholder, liveCount_eq_card, if_pos h]
  refine ⟨?_, fun i => Table.get_set _ _ hPH⟩
  ext i
  rw [mem_live, Finset.mem_insert, mem_live, Table.get_set _ _ hPH]
  by_cases hi : PH = i
  · subst hi; simp [hPH]
  · simp [hi, Ne.symm hi]

theorem tbPlaceholder_nnext (d : NodeStore) : (tbPlaceholder d).nnext = d.nnext := by
  unfold tbPlaceholder
  split <;> rfl

theorem live_subset_tbPlaceholder (d : NodeStore) : live d ⊆ live (tbPlaceholder d) := by
  by_cases h : (live d).card = 1
  · rw [(tbPlaceholder_of_card h).1]
    exact Finset.subset_insert _ _
  · rw [tbPlaceholder_of_ne h]

/-- The leaves TB_BUILD begins with (R131, R132). -/
def leaves (freq : Table Nat NSYM) (old : NodeStore) : NodeStore := tbPlaceholder (tbInit freq old)

theorem leaves_nnext (freq : Table Nat NSYM) (old : NodeStore) : (leaves freq old).nnext = NODE_BASE :=
  tbPlaceholder_nnext _

/-- The total weight of the symbols that occur is the sum of the counts. -/
theorem liveWeight_tbInit (freq : Table Nat NSYM) (d : NodeStore) :
    liveWeight (tbInit freq d) = ∑ i ∈ Finset.range NSYM, Table.get freq i 0 := by
  have hsub : live (tbInit freq d) ⊆ Finset.range NSYM := fun i hi =>
    Finset.mem_range.2 (lt_of_get_pos (mem_live_tbInit.1 hi))
  rw [← Finset.sum_subset hsub fun i _ hi => ?_]
  · refine Finset.sum_congr rfl fun i hi => ?_
    rw [tbInit_weight (mem_live.1 hi).1, if_pos (mem_live_tbInit.1 hi)]
  · rw [mem_live_tbInit] at hi
    omega

theorem forest_leaves (freq : Table Nat NSYM) (old : NodeStore) :
    Forest (∑ i ∈ Finset.range NSYM, Table.get freq i 0) (leaves freq old) := by
  have hsym : ∀ i ∈ live (tbInit freq old), i < NSYM ∧ 0 < weight (tbInit freq old) i := fun i hi => by
    have hpos := mem_live_tbInit.1 hi
    refine ⟨lt_of_get_pos hpos, ?_⟩
    rwa [tbInit_weight (mem_live.1 hi).1, if_pos hpos]
  have hbase : (leaves freq old).nnext = NODE_BASE := leaves_nnext freq old
  by_cases hcard : (live (tbInit freq old)).card = 1
  · obtain ⟨hlive, hweight⟩ := tbPlaceholder_of_card hcard
    have hnot : PH ∉ live (tbInit freq old) := fun h => absurd (hsym _ h).1 (by decide)
    have hne : ∀ i ∈ live (tbInit freq old), PH ≠ i := fun i hi h => hnot (h ▸ hi)
    have hold : ∀ i ∈ live (tbInit freq old), weight (leaves freq old) i = weight (tbInit freq old) i := fun i hi => by
      rw [leaves, hweight, if_neg (hne i hi)]
    refine ⟨?_, fun i hi => ?_, fun i hi => ?_, fun h => ?_, hbase.ge, ?_⟩
    · rw [← liveWeight_tbInit freq old, liveWeight, leaves, hlive, Finset.sum_insert hnot, hweight, if_pos rfl, zero_add]
      exact Finset.sum_congr rfl hold
    · rw [leaves, hlive] at hi
      rw [hbase]
      rcases Finset.mem_insert.1 hi with rfl | hi
      · decide
      · exact (hsym i hi).1.trans (by decide)
    · rw [leaves, hlive] at hi
      rcases Finset.mem_insert.1 hi with rfl | hi
      · right
        intro k hk hkPH
        rw [leaves, hlive] at hk
        have hk' := Finset.mem_of_mem_insert_of_ne hk hkPH
        rw [hold k hk']
        exact (hsym k hk').2
      · left
        rw [hold i hi]
        exact (hsym i hi).2
    · rw [leaves, hlive, Finset.card_insert_of_notMem hnot, hcard] at h
      omega
    · rw [hbase]; decide
  · have heq : leaves freq old = tbInit freq old := tbPlaceholder_of_ne hcard
    rw [heq] at hbase ⊢
    refine ⟨liveWeight_tbInit freq old, fun i hi => ?_, fun i hi => .inl (hsym i hi).2, fun h i hi => ?_, hbase.ge, ?_⟩
    · rw [hbase]
      exact (hsym i hi).1.trans (by decide)
    · have hpos := Finset.card_pos.2 ⟨i, hi⟩
      omega
    · rw [hbase]; decide

/-! ### The node store within its widths -/

/-- Every register of the node store is within its width (R32, R33). -/
structure StoreWithin (d : NodeStore) : Prop where
  nfreq : ∀ i, i < 514 → weight d i < 2 ^ 33
  nleft : ∀ i, i < 514 → Table.get d.nleft i 0 < 2 ^ 10
  nright : ∀ i, i < 514 → Table.get d.nright i 0 < 2 ^ 10
  ndepth : ∀ i, i < 514 → depth d.ndepth i < 2 ^ 6
  nnext : d.nnext < 2 ^ 10
  root : d.root < 2 ^ 10

theorem StoreWithin.tbInit {freq : Table Nat NSYM} {d : NodeStore} (hfreq : ∀ i, i < 257 → Table.get freq i 0 < 2 ^ 32)
    (h : StoreWithin d) : StoreWithin (tbInit freq d) := by
  have hbase : NODE_BASE < 2 ^ 10 := by decide
  refine ⟨fun i hi => ?_, h.nleft, h.nright, h.ndepth, hbase, h.root⟩
  rw [tbInit_weight hi]
  split
  · next hpos => exact (hfreq i (lt_of_get_pos hpos)).trans (by norm_num)
  · exact h.nfreq i hi

theorem StoreWithin.tbPlaceholder {d : NodeStore} (h : StoreWithin d) : StoreWithin (tbPlaceholder d) := by
  by_cases hcard : (live d).card = 1
  · have hweight := (tbPlaceholder_of_card hcard).2
    rw [Machine.tbPlaceholder, liveCount_eq_card, if_pos hcard] at hweight ⊢
    refine ⟨fun i hi => ?_, h.nleft, h.nright, h.ndepth, h.nnext, h.root⟩
    rw [hweight]
    split
    · exact Nat.two_pow_pos 33
    · exact h.nfreq i hi
  · rwa [tbPlaceholder_of_ne hcard]

theorem StoreWithin.leaves {freq : Table Nat NSYM} {d : NodeStore} (hfreq : ∀ i, i < 257 → Table.get freq i 0 < 2 ^ 32)
    (h : StoreWithin d) : StoreWithin (leaves freq d) := (h.tbInit hfreq).tbPlaceholder

theorem StoreWithin.merge {total : Nat} {d d' : NodeStore} {a b : Nat} (htotal : total ≤ 2 ^ 32) (hd : Forest total d)
    (hm : Merges d d' a b) (h : StoreWithin d) : StoreWithin d' := by
  have ha : a < 514 := hm.left_lt
  have hb : b < 514 := hm.right_lt
  have hroom : d.nnext < 514 := hm.room
  have hroot : d'.root = d.root := by rw [hm.eq]; rfl
  refine ⟨fun i hi => ?_, fun i hi => ?_, fun i hi => ?_, by rw [hm.ndepth]; exact h.ndepth, ?_, hroot ▸ h.root⟩
  · by_cases hin : i = d.nnext
    · have hnew : d.nnext ∈ live d' := by rw [hm.live_eq]; exact Finset.mem_insert_self _ _
      have hle := (hd.merge hm).weight_le hnew
      rw [hin]
      omega
    · rw [hm.weight_old hin]
      exact h.nfreq i hi
  · rw [hm.nleft_get]
    split
    · omega
    · exact h.nleft i hi
  · rw [hm.nright_get]
    split
    · omega
    · exact h.nright i hi
  · rw [hm.nnext]
    omega

/-- What TB_BUILD makes of the leaves (R137). -/
theorem tbMergeLoop_leaves {freq : Table Nat NSYM} {old e : NodeStore} {n : Nat} (hn : n < 2 ^ 32)
    (htally : Tallied n freq) (h : StoreWithin old) (he : tbMergeLoop NNODE (leaves freq old) = .ok e) :
    Forest (n + 1) e ∧ StoreWithin e := by
  have hleaves : Forest (n + 1) (leaves freq old) := htally.total ▸ forest_leaves freq old
  exact tbMergeLoop_invariant (P := fun d => Forest (n + 1) d ∧ StoreWithin d)
    (fun d d' a b hd hm => ⟨hd.1.merge hm, hd.2.merge hn hd.1 hm⟩)
    ⟨hleaves, h.leaves fun i hi => htally.get_lt hn hi⟩ he

/-- NODES is what TB_BUILD makes of the leaves of the counts (R137). -/
def Grown (freq : Table Nat NSYM) (d : NodeStore) : Prop :=
  ∃ old e, StoreWithin old ∧ tbMergeLoop NNODE (leaves freq old) = .ok e ∧ d = { e with root := e.nnext - 1 }

/-- What TB_DEPTH makes of the grown tree: every depth is within its width, and the leaves are shallow (R140). -/
theorem Grown.tbDepth {freq : Table Nat NSYM} {d : NodeStore} {n : Nat} (hn : n < 2 ^ 32) (htally : Tallied n freq)
    (h : Grown freq d) : StoreWithin (tbDepth d) ∧
      ∃ old, Shallow (n + 1) (leaves freq old) (Machine.tbDepth d).ndepth := by
  obtain ⟨old, e, hold, he, rfl⟩ := h
  obtain ⟨hforest, hwithin⟩ := tbMergeLoop_leaves hn htally hold he
  have hleaves : Forest (n + 1) (leaves freq old) := htally.total ▸ forest_leaves freq old
  have hroom : e.nnext ≤ 514 := hforest.room
  have hdepths := tbMergeLoop_depths hn hleaves (by rw [leaves_nnext]; decide)
    (hold.leaves fun i hi => htally.get_lt hn hi).ndepth he
  rw [leaves_nnext] at hdepths
  rw [tbDepth_eq_depthsDownTo hforest.base]
  refine ⟨?_, old, hdepths.shallow⟩
  rw [depthsDownTo_frame]
  have hwidth := hdepths.width
  generalize (depthsDownTo e NODE_BASE).ndepth = t at hwidth ⊢
  exact { hwithin with ndepth := hwidth, root := by show e.nnext - 1 < 2 ^ 10; omega }

/-! ### The code lengths of the encoder -/

theorem tbLen_get {freq : Table Nat NSYM} {t : Table Nat NNODE} {i : Nat} (hi : i < NSYM) :
    Table.get (tbLen freq t) i 0 = if 0 < Table.get freq i 0 then depth t i else 0 :=
  Table.get_map2 0 0 0 hi (hi.trans (by decide))

/-- The code space of the encoder's lengths is at most all of it (R143). -/
theorem codeSpace_tbLen_le {total : Nat} {freq : Table Nat NSYM} {old : NodeStore} {t : Table Nat NNODE}
    (h : Shallow total (leaves freq old) t) : codeSpace (canonicalOrder (tbLen freq t)) ≤ 2 ^ L_MAX := by
  rw [codeSpace_canonicalOrder]
  refine le_trans ?_ h.kraft
  have hleaf : ∀ i ∈ (Finset.range NSYM).filter
      (fun i => 0 < Table.get (tbLen freq t) i 0 ∧ Table.get (tbLen freq t) i 0 ≤ L_MAX),
      i ∈ live (leaves freq old) ∧ 2 ^ (L_MAX - Table.get (tbLen freq t) i 0) = 2 ^ L_MAX / 2 ^ depth t i := by
    intro i hi
    obtain ⟨hi, hpos, hmax⟩ := Finset.mem_filter.1 hi
    rw [tbLen_get (Finset.mem_range.1 hi)] at hpos hmax ⊢
    by_cases hfreq : 0 < Table.get freq i 0
    · rw [if_pos hfreq] at hmax ⊢
      exact ⟨live_subset_tbPlaceholder _ (mem_live_tbInit.2 hfreq), (Nat.pow_div hmax Nat.two_pos).symm⟩
    · rw [if_neg hfreq] at hpos
      exact absurd hpos (lt_irrefl 0)
  rw [Finset.sum_congr rfl fun i hi => (hleaf i hi).2]
  exact Finset.sum_le_sum_of_subset fun i hi => (hleaf i hi).1

/-! ### Every register within its width -/

/-- The parameters are legal and every register is within its width (R9, R50). -/
def Within (s : State) : Prop := s.cfg.wellFormed = true ∧ WithinWidths s

theorem sizes_lt_of_wellFormed {c : Config} (h : c.wellFormed = true) :
    c.imemSize < 2 ^ 32 ∧ c.omemSize < 2 ^ 32 := by
  simp only [Config.wellFormed, Bool.and_eq_true, decide_eq_true_eq] at h
  omega

theorem encoderKeeps_within : EncoderKeeps Within where
  emit := fun u v ⟨hcfg, h⟩ hlt => by
    have hsize := (sizes_lt_of_wellFormed hcfg).2
    exact ⟨hcfg, { h with optr := by dsimp only; omega }⟩
  acc := fun u w ⟨hcfg, h⟩ hle hne => by
    have hwcnt := h.wcnt
    exact ⟨hcfg, { h with wcnt := by dsimp only; omega }⟩
  start := fun u ⟨hcfg, h⟩ => ⟨hcfg, { h with iptr := Nat.two_pow_pos 32 }⟩
  next := fun u ⟨hcfg, h⟩ hlt => by
    have hsize := (sizes_lt_of_wellFormed hcfg).1
    exact ⟨hcfg, { h with iptr := by dsimp only; omega }⟩

/-- The Kraft sum of any length table is within the width of KRAFT (R44). -/
theorem kraftSum_lt (len : Table Nat NSYM) : kraftSum len < 2 ^ 53 := by
  have hsum : kraftSum len ≤ ∑ _i ∈ Finset.range NSYM, 2 ^ 44 := by
    rw [kraftSum_eq_sum]
    refine Finset.sum_le_sum fun i _ => ?_
    split
    · exact Nat.pow_le_pow_right Nat.two_pos (by show 45 - _ ≤ 44; omega)
    · exact Nat.zero_le _
  rw [Finset.sum_const, Finset.card_range] at hsum
  exact hsum.trans_lt (by decide)

theorem parserKeeps_within : ParserKeeps Within where
  start := encoderKeeps_within.start
  next := encoderKeeps_within.next
  norig := fun u n ⟨hcfg, h⟩ hn => ⟨hcfg, { h with norig := hn }⟩
  len := fun u i v ⟨hcfg, h⟩ hv => by
    refine ⟨hcfg, { h with len := fun j hj => ?_ }⟩
    by_cases hij : i = j
    · subst hij
      have hv' : v ≤ 45 := hv
      rw [Table.get_set_self _ _ hj]
      omega
    · rw [Table.get_set_ne _ _ hij]
      exact h.len j hj
  kraft := fun u ⟨hcfg, h⟩ => ⟨hcfg, { h with kraft := kraftSum_lt u.len }⟩
  paylen := fun u ⟨hcfg, h⟩ => by
    have hle := Nat.sub_le u.ilen.toNat HDR_LEN
    have hset : ∀ n, n < 2 ^ 35 → Within { u with paylen := n } := fun n hn => ⟨hcfg, { h with paylen := hn }⟩
    exact hset _ (hle.trans_lt (u.ilen.isLt.trans (by norm_num)))

/-- The decode tree is made of at most 301 records, and its edges lead to them (R175). -/
def TreeReady (d : DecodeStore) : Prop := Linked d ∧ d.dch.length ≤ DNODE

/-- What the decode loop keeps: with it RPOS, OCNT and OPTR stay within their widths (R198, R230). -/
def Decoding (u : State) : Prop :=
  Within u ∧ TreeReady u.dec ∧ u.rpos ≤ 8 * u.paylen ∧ u.paylen < 2 ^ 32 ∧ u.ocnt = u.optr

theorem decoderKeeps_decoding : DecoderKeeps Decoding where
  bit := fun u ⟨⟨hcfg, h⟩, htree, hrpos, hpay, hcount⟩ hne =>
    ⟨⟨hcfg, { h with rpos := by dsimp only; omega }⟩, htree, by dsimp only; omega, hpay, hcount⟩
  edge := fun u n r b m ⟨⟨hcfg, h⟩, ⟨hlinked, hlen⟩, hrest⟩ hr hm => by
    have hlt := (hlinked.edge n r b m hr hm).2
    have hlen' : u.dec.dch.length ≤ 301 := hlen
    exact ⟨⟨hcfg, { h with dcur := by dsimp only; omega }⟩, ⟨⟨hlinked.count, hlinked.edge⟩, hlen⟩, hrest⟩
  root := fun u ⟨⟨hcfg, h⟩, ⟨hlinked, hlen⟩, hrest⟩ =>
    ⟨⟨hcfg, { h with dcur := Nat.two_pow_pos 9 }⟩, ⟨⟨hlinked.count, hlinked.edge⟩, hlen⟩, hrest⟩
  emit := fun u v ⟨⟨hcfg, h⟩, htree, hrpos, hpay, hcount⟩ hlt => by
    have hsize := (sizes_lt_of_wellFormed hcfg).2
    exact ⟨⟨hcfg, { h with optr := by dsimp only; omega, ocnt := by dsimp only; omega }⟩, htree, hrpos, hpay,
      congrArg (· + 1) hcount⟩

/-! ### From phase to phase -/

/-- What a phase finds beside the widths, left by the phases before it. -/
def Ready (s : State) : Prop :=
  match s.phase with
  | .cBuild | .cSize => Tallied s.ilen.toNat s.freq
  | .cDepth => Tallied s.ilen.toNat s.freq ∧ Grown s.freq s.nodes
  | .cCanon => Tallied s.ilen.toNat s.freq ∧ codeSpace (canonicalOrder s.len) ≤ 2 ^ L_MAX
  | .dCanon => codeSpace (canonicalOrder s.len) ≤ 2 ^ L_MAX ∧ s.paylen < 2 ^ 32
  | .dTree => codeSpace (canonicalOrder s.len) ≤ 2 ^ L_MAX ∧ s.paylen < 2 ^ 32 ∧
      ∃ code, s.code = (canonOver code (canonicalOrder s.len)).1
  | .dDecode => TreeReady s.dec ∧ s.paylen < 2 ^ 32
  | .idle | .cStart | .cCount | .cHeader | .cPayload | .cFlush | .dStart | .dHeader | .dFinish => True

/-- The widths hold, and the phase finds what it needs. -/
def Sound (s : State) : Prop := Within s ∧ Ready s

theorem Within.raiseError {s : State} (h : Within s) (e : ErrCode) : Sound (raiseError e s) :=
  ⟨⟨h.1, { h.2 with }⟩, trivial⟩

theorem Within.completeOperation {s : State} (h : Within s) (n : Nat) : Sound (completeOperation n s) :=
  ⟨⟨h.1, { h.2 with }⟩, trivial⟩

theorem Within.forgetOmem {s : State} (h : Within s) : Within s.forgetOmem := ⟨h.1, { h.2 with }⟩

theorem Within.canon {s : State} (h : Within s) (hspace : codeSpace (canonicalOrder s.len) ≤ 2 ^ L_MAX) :
    Within (canon s) := by
  refine ⟨h.1, { h.2 with cacc := ?_ }⟩
  rw [canon_eq_canonOver]
  show (canonOver s.code (canonicalOrder s.len)).2 < 2 ^ 46
  rw [canonOver_snd]
  exact hspace.trans_lt (by decide)

section
variable {s : State} (h : Within s)
include h

theorem cStart_sound : Yields Sound (fun _ => Within) (cStart s) := by
  refine (cStart_yields s).imp ?_ ?_
  · rintro _ rfl
    exact ⟨⟨h.1, { h.2 with }⟩, trivial⟩
  · rintro _ _ ⟨-, rfl⟩
    exact h

theorem cCount_sound : Yields Sound (fun _ => Within) (cCount s) := by
  refine (cCount_yields _ s).mono ?_
  rintro _ ⟨f, hf, rfl⟩
  have htally : Tallied s.ilen.toNat f := Nat.zero_add s.ilen.toNat ▸ fcCountLoop_tallied tallied_fcClear hf
  exact ⟨⟨h.1, { h.2 with freq := fun i hi => htally.get_lt s.ilen.isLt hi, iptr := s.ilen.isLt }⟩, htally⟩

theorem cBuild_sound (htally : Tallied s.ilen.toNat s.freq) : Yields Sound (fun _ => Within) (cBuild s) := by
  refine (cBuild_yields _ s).mono ?_
  rintro _ ⟨e, he, rfl⟩
  have hold : StoreWithin s.nodes :=
    ⟨h.2.nfreq, h.2.nleft, h.2.nright, h.2.ndepth, h.2.nnext, h.2.root⟩
  obtain ⟨hforest, hstore⟩ := tbMergeLoop_leaves s.ilen.isLt htally hold he
  have hroom : e.nnext ≤ 514 := hforest.room
  refine ⟨⟨h.1, { h.2 with
    nfreq := hstore.nfreq, nleft := hstore.nleft, nright := hstore.nright, ndepth := hstore.ndepth
    nnext := hstore.nnext, root := ?_ }⟩, htally, s.nodes, e, hold, he, rfl⟩
  show e.nnext - 1 < 2 ^ 10
  omega

theorem cDepth_sound (htally : Tallied s.ilen.toNat s.freq) (hgrown : Grown s.freq s.nodes) :
    Yields Sound (fun _ => Within) (cDepth s) := by
  obtain ⟨hstore, old, hshallow⟩ := hgrown.tbDepth s.ilen.isLt htally
  refine ⟨⟨h.1, { h.2 with
    len := fun i hi => ?_, nfreq := hstore.nfreq, nleft := hstore.nleft, nright := hstore.nright
    ndepth := hstore.ndepth, nnext := hstore.nnext, root := hstore.root }⟩, htally, codeSpace_tbLen_le hshallow⟩
  show Table.get (tbLen s.freq (tbDepth s.nodes).ndepth) i 0 < 2 ^ 6
  rw [tbLen_get hi]
  split
  · exact hstore.ndepth i (hi.trans (by decide))
  · exact Nat.two_pow_pos 6

theorem cCanon_sound (htally : Tallied s.ilen.toNat s.freq)
    (hspace : codeSpace (canonicalOrder s.len) ≤ 2 ^ L_MAX) : Yields Sound (fun _ => Within) (cCanon s) := by
  obtain ⟨hcfg, hcanon⟩ := h.canon hspace
  exact ⟨⟨hcfg, { hcanon with }⟩, htally⟩

theorem cSize_sound (htally : Tallied s.ilen.toNat s.freq) : Yields Sound (fun _ => Within) (cSize s) := by
  have hbits := payloadBits_le htally h.2.len
  have hilen := s.ilen.isLt
  have hwidths : Within { s with
      tbits := payloadBits s.freq s.len
      paylen := (payloadBits s.freq s.len + 7) / 8
      osize := HDR_LEN + (payloadBits s.freq s.len + 7) / 8 } :=
    ⟨h.1, { h.2 with
      tbits := by dsimp only; omega
      paylen := by dsimp only; omega
      osize := by show 265 + _ < _; omega }⟩
  refine (cSize_yields s).imp ?_ ?_
  · rintro _ rfl
    exact ⟨⟨h.1, { hwidths.2 with }⟩, trivial⟩
  · rintro _ _ ⟨-, rfl⟩
    exact hwidths

theorem cHeader_sound : Yields Sound (fun _ => Within) (cHeader s) := by
  have h0 : Within { s with optr := 0 } := ⟨h.1, { h.2 with optr := Nat.two_pow_pos 32 }⟩
  refine (cHeader_yields encoderKeeps_within.toWriterKeeps h0).mono ?_
  rintro _ ⟨u, hu, rfl⟩
  exact ⟨⟨hu.1, { hu.2 with }⟩, trivial⟩

theorem cPayload_sound : Yields Sound (fun _ => Within) (cPayload s) := by
  refine (cPayload_yields encoderKeeps_within h).mono ?_
  rintro _ ⟨u, hu, rfl⟩
  exact ⟨⟨hu.1, { hu.2 with }⟩, trivial⟩

theorem cFlush_sound : Yields Sound (fun _ => Within) (cFlush s) := by
  refine (cFlush_yields encoderKeeps_within.toWriterKeeps h).mono ?_
  rintro _ ⟨u, hu, rfl⟩
  exact hu.completeOperation u.optr

theorem dStart_sound : Yields Sound (fun _ => Within) (dStart s) := by
  refine (dStart_yields s).imp ?_ ?_
  · rintro _ rfl
    exact ⟨⟨h.1, { h.2 with }⟩, trivial⟩
  · rintro _ _ ⟨-, rfl⟩
    exact h

theorem dHeader_sound : Yields Sound (fun _ => Within) (dHeader s) := by
  refine (dHeader_yields parserKeeps_within (fun _ _ _ hu => hu) h).mono ?_
  rintro _ ⟨u, hu, -, hkraft, hpay, rfl⟩
  have hilen := u.ilen.isLt
  refine ⟨⟨hu.1, { hu.2 with }⟩, (codeSpace_le_kraftSum u.len).trans hkraft, ?_⟩
  show u.paylen < 2 ^ 32
  omega

theorem dCanon_sound (hspace : codeSpace (canonicalOrder s.len) ≤ 2 ^ L_MAX) (hpay : s.paylen < 2 ^ 32) :
    Yields Sound (fun _ => Within) (dCanon s) := by
  obtain ⟨hcfg, hcanon⟩ := h.canon hspace
  exact ⟨⟨hcfg, { hcanon with }⟩, hspace, hpay, s.code, rfl⟩

theorem dTree_sound (hspace : codeSpace (canonicalOrder s.len) ≤ 2 ^ L_MAX) (hpay : s.paylen < 2 ^ 32)
    {code : Table CodeWord NSYM} (hcode : s.code = (canonOver code (canonicalOrder s.len)).1) :
    Yields Sound (fun _ => Within) (dTree s) := by
  refine (dTree_yields _ s).mono ?_
  rintro _ ⟨d, hd, rfl⟩
  obtain ⟨d', heq, hlinked, hlen, hdcur⟩ := ccTree_fits hspace hcode hd
  obtain rfl : d = d' := congrArg State.dec heq
  have hlen' : d.dch.length ≤ 301 := hlen
  have hcount := hlinked.count
  refine ⟨⟨h.1, { h.2 with records := hlen, dnext := ?_, dcur := hdcur ▸ h.2.dcur }⟩, ⟨hlinked, hlen⟩, hpay⟩
  show d.dnext < 2 ^ 9
  omega

theorem dDecode_sound (htree : TreeReady s.dec) (hpay : s.paylen < 2 ^ 32) :
    Yields Sound (fun _ => Within) (dDecode s) := by
  obtain ⟨hlinked, hlen⟩ := htree
  have h0 : Decoding { brInit s with ocnt := 0, optr := 0, dec := { s.dec with dcur := 0 } } :=
    ⟨⟨h.1, { h.2 with
      rpos := Nat.two_pow_pos 35, ocnt := Nat.two_pow_pos 32, optr := Nat.two_pow_pos 32, dcur := Nat.two_pow_pos 9 }⟩,
      ⟨⟨hlinked.count, hlinked.edge⟩, hlen⟩, Nat.zero_le _, hpay, rfl⟩
  refine (dDecode_yields decoderKeeps_decoding (fun _ _ _ hu => hu.1) h0).mono ?_
  rintro _ ⟨u, ⟨hu, -⟩, rfl⟩
  exact ⟨⟨hu.1, { hu.2 with }⟩, trivial⟩

theorem dFinish_sound : Yields Sound (fun _ => Within) (dFinish s) := by
  refine (dFinish_yields s).imp ?_ ?_
  · rintro _ ⟨-, rfl⟩
    exact h.completeOperation s.ocnt
  · rintro _ _ ⟨-, rfl⟩
    exact h

end

/-- A turn of the engine keeps every register within its width (R50). -/
theorem enginePhase_sound {s t : State} (hs : Sound s) (ht : enginePhase s = .next t) : Sound t := by
  have hc : ∀ {r : Except Stop State}, Yields Sound (fun _ => Within) r → endCompressPhase r = .next t → Sound t :=
    fun hr ht => endCompressPhase_yields hr (fun e _ hu => hu.raiseError e) ht
  have hd : ∀ {r : Except Stop State}, Yields Sound (fun _ => Within) r → endDecompressPhase r = .next t → Sound t :=
    fun hr ht => endDecompressPhase_yields hr (fun e _ hu => hu.forgetOmem.raiseError e) ht
  obtain ⟨h, hready⟩ := hs
  cases hp : s.phase <;> simp only [enginePhase, hp] at ht <;> simp only [Ready, hp] at hready
  case idle =>
    injection ht with ht
    subst ht
    exact ⟨h, by simp only [Ready, hp]⟩
  case cStart => exact hc (cStart_sound h) ht
  case cCount => exact hc (cCount_sound h) ht
  case cBuild => exact hc (cBuild_sound h hready) ht
  case cDepth => exact hc (cDepth_sound h hready.1 hready.2) ht
  case cCanon => exact hc (cCanon_sound h hready.1 hready.2) ht
  case cSize => exact hc (cSize_sound h hready) ht
  case cHeader => exact hc (cHeader_sound h) ht
  case cPayload => exact hc (cPayload_sound h) ht
  case cFlush => exact hc (cFlush_sound h) ht
  case dStart => exact hd (dStart_sound h) ht
  case dHeader => exact hd (dHeader_sound h) ht
  case dCanon => exact hd (dCanon_sound h hready.1 hready.2) ht
  case dTree =>
    obtain ⟨hspace, hpay, code, hcode⟩ := hready
    exact hd (dTree_sound h hspace hpay hcode) ht
  case dDecode => exact hd (dDecode_sound h hready.1 hready.2) ht
  case dFinish => exact hd (dFinish_sound h) ht

/-- Settles O37: the start of an operation and every turn keep the widths and what the next phase needs. -/
theorem noRegisterOverflows : Obligations.NoRegisterOverflows := by
  unfold Obligations.NoRegisterOverflows
  intro i s t hcfg hb h ht
  have hstart : ∀ p, Ready (startOperation p s) → Sound (startOperation p s) := fun p hp =>
    ⟨⟨hcfg, { h with }⟩, hp⟩
  obtain ⟨⟨-, hwidths⟩, -⟩ : Sound t := by
    cases i with
    | compress =>
      rw [exec_compress_of_idle hb] at ht
      exact runPhases_invariant (fun _ _ => enginePhase_sound) (hstart .cStart trivial) ht
    | decompress =>
      rw [exec_decompress_of_idle hb] at ht
      exact runPhases_invariant (fun _ _ => enginePhase_sound) (hstart .dStart trivial) ht
  exact hwidths

end Sys2Proof.Safety
end

section
/-! PROOFS. The host's accesses to the buffers (spec/20_memory.md R60 to R62, R68, R292, R298): O10, O12. -/

namespace Sys2Proof.Safety

open Sys2Proof.Machine

/-- A host write of IMEM, its refusals first: that for the address comes before that for BUSY = 1 (log entry 14). -/
theorem hostWriteImem_eq (a : Nat) (v : Byte) (s : State) :
    hostWriteImem a v s =
      if s.cfg.imemSize ≤ a then .refused (.hostAddress a)
      else if s.busy then .refused (.imemWriteWhileBusy a)
      else .next { s with imem := s.imem.write a v } := by
  by_cases h : a < s.cfg.imemSize
  · rw [hostWriteImem, if_pos h, if_neg (Nat.not_le.2 h)]
  · rw [hostWriteImem, if_neg h, if_pos (Nat.not_lt.1 h)]

/-- A host read of IMEM, its refusal first; BUSY plays no part in it (R292). -/
theorem hostReadImem_eq (a : Nat) (s : State) :
    hostReadImem a s =
      if s.cfg.imemSize ≤ a then .refused (.hostAddress a)
      else .next { s with rdata := (s.imem.read a).setWidth 32 } := by
  by_cases h : a < s.cfg.imemSize
  · rw [hostReadImem, if_pos h, if_neg (Nat.not_le.2 h)]
  · rw [hostReadImem, if_neg h, if_pos (Nat.not_lt.1 h)]

/-- A host read outside OMEM is refused, idle or busy (R68). -/
theorem hostReadOmem_of_le {a : Nat} {s : State} (h : s.cfg.omemSize ≤ a) :
    hostReadOmem a s = .refused (.hostAddress a) := if_neg (Nat.not_lt.2 h)

/-- Settles O10, access by access. -/
theorem hostBufferAccess : Obligations.HostBufferAccess := by
  unfold Obligations.HostBufferAccess
  intro s a v rest
  refine ⟨fun h => ?_, fun h => ?_, fun h ha => ?_, fun h => ?_⟩
  · rw [step_of_cons h]
    exact hostWriteImem_eq a v { s with agenda := rest }
  · rw [step_of_cons h]
    exact hostReadImem_eq a { s with agenda := rest }
  · rw [step_of_cons h]
    exact hostReadOmem_of_le (s := { s with agenda := rest }) ha
  · rw [step_of_cons h, event]

/-- Settles O12: neither access is refused, and the read sees the buffer as the write leaves it. -/
theorem imemReadsLastWrite : Obligations.ImemReadsLastWrite := by
  unfold Obligations.ImemReadsLastWrite
  intro s a b v rest hagenda hb ha hbs
  obtain ⟨hwrite, -⟩ := hostBufferAccess s a v (.readImem b :: rest)
  obtain ⟨-, hread, -⟩ :=
    hostBufferAccess { s with agenda := .readImem b :: rest, imem := s.imem.write a v } b v rest
  refine ⟨_, _, (hwrite hagenda).trans ?_, (hread rfl).trans (if_neg (Nat.not_le.2 hbs)), ?_⟩
  · rw [if_neg (Nat.not_le.2 ha), hb, if_neg Bool.false_ne_true]
  · rw [Buffer.read_write, apply_ite (BitVec.setWidth 32)]

end Sys2Proof.Safety
end

section
/-! PROOFS. The command bytes and the COPY of the host scripts (spec/30_encoding.md R81 to R84, R106, R108): O1, O2,
O54. -/

namespace Sys2Proof.Safety

open Sys2Proof.Machine

/-! ### The command bytes -/

/-- A row of the table matches its pattern only: both masks are 0xFF, for OP is the whole byte (R81). -/
theorem matches_iff_of_mem {row : OpcodeRow} (h : row ∈ opcodeTable) (c : Byte) :
    row.matches c = true ↔ c = row.pattern := by
  have hmask : row.mask = BitVec.allOnes 8 := (by decide : ∀ r ∈ opcodeTable, r.mask = BitVec.allOnes 8) row h
  rw [OpcodeRow.matches, hmask, BitVec.and_allOnes, beq_iff_eq]

/-- No row of the table matches a reserved byte (R84). -/
theorem opcodeTable_find?_of_reserved {c : Byte} (h1 : c ≠ 0x01) (h2 : c ≠ 0x02) :
    opcodeTable.find? (·.matches c) = none := by
  refine List.find?_eq_none.2 fun row hrow => mt (matches_iff_of_mem hrow c).1 ?_
  have hpattern : row.pattern = 0x01 ∨ row.pattern = 0x02 :=
    (by decide : ∀ r ∈ opcodeTable, r.pattern = 0x01 ∨ r.pattern = 0x02) row hrow
  rcases hpattern with h | h
  · exact h ▸ h1
  · exact h ▸ h2

/-- The decoder, byte by byte. -/
theorem decode_eq (c : Byte) :
    decode c =
      if c = 0x01 then .ok .compress else if c = 0x02 then .ok .decompress else .error (.reservedCommand c) := by
  by_cases h1 : c = 0x01
  · subst h1; decide
  · by_cases h2 : c = 0x02
    · subst h2; decide
    · rw [if_neg h1, if_neg h2, decode, opcodeTable_find?_of_reserved h1 h2]

/-- Settles O1, by the decoder's equation. -/
theorem commandBytesDecode : Obligations.CommandBytesDecode := by
  unfold Obligations.CommandBytesDecode
  refine ⟨decode_encode .compress, decode_encode .decompress, fun c h1 h2 => ?_⟩
  rw [decode_eq, if_neg h1, if_neg h2]

/-- An accepted byte is the byte of the instruction it decodes to. -/
theorem eq_encode_of_decode {c : Byte} {i : Instr} (h : decode c = .ok i) : c = encode i := by
  rw [decode_eq] at h
  split at h
  · next h1 => injection h with hi; exact hi ▸ h1
  · split at h
    · next h2 => injection h with hi; exact hi ▸ h2
    · cases h

/-- Settles O2, one direction by each lemma. -/
theorem decodeEncodeAgree : Obligations.DecodeEncodeAgree := by
  unfold Obligations.DecodeEncodeAgree
  exact ⟨decode_encode, fun _ _ => eq_encode_of_decode⟩

/-! ### The copy -/

/-- A copy past the end of OMEM is refused for its address (R68). -/
theorem hostCopy_past_omem {n : Nat} {s : State} (h : s.cfg.omemSize < n) :
    hostCopy n s = .refused (.hostAddress s.cfg.omemSize) := if_pos h

/-- A copy inside OMEM and past the end of IMEM is refused for its address (R68). -/
theorem hostCopy_past_imem {n : Nat} {s : State} (ho : n ≤ s.cfg.omemSize) (hi : s.cfg.imemSize < n) :
    hostCopy n s = .refused (.hostAddress s.cfg.imemSize) := by
  rw [hostCopy, if_neg (Nat.not_lt.2 ho), if_pos hi]

/-- A copy of no bytes makes no access, idle or busy. -/
theorem hostCopy_zero (s : State) : hostCopy 0 s = .next s := by
  rw [hostCopy, if_neg (Nat.not_lt_zero _), if_neg (Nat.not_lt_zero _), if_pos rfl]

/-- A copy of at least one byte, inside both buffers: refused while BUSY = 1 (R292), else the bytes are moved. -/
theorem hostCopy_inside {n : Nat} {s : State} (ho : n ≤ s.cfg.omemSize) (hi : n ≤ s.cfg.imemSize) (hn : 0 < n) :
    hostCopy n s =
      if s.busy then .refused (.imemWriteWhileBusy 0)
      else .next { s with imem := copyBytes s.omem n 0 s.imem, rdata := (s.omem.read (n - 1)).setWidth 32 } := by
  rw [hostCopy, if_neg (Nat.not_lt.2 ho), if_neg (Nat.not_lt.2 hi), if_neg hn.ne']

/-- An idle copy inside both buffers moves the bytes, n = 0 included; the host then holds the last byte read. -/
theorem hostCopy_of_idle {n : Nat} {s : State} (ho : n ≤ s.cfg.omemSize) (hi : n ≤ s.cfg.imemSize)
    (hb : s.busy = false) :
    hostCopy n s = .next { s with
      imem := copyBytes s.omem n 0 s.imem
      rdata := if n = 0 then s.rdata else (s.omem.read (n - 1)).setWidth 32 } := by
  cases n with
  | zero => exact hostCopy_zero s
  | succ n =>
    rw [hostCopy_inside ho hi n.succ_pos, hb, if_neg Bool.false_ne_true]
    rfl

/-- Settles O54, by the rule of each outcome; the new IMEM is read by the law of `copyBytes`. -/
theorem copyMovesOmemToImem : Obligations.CopyMovesOmemToImem := by
  unfold Obligations.CopyMovesOmemToImem
  intro s n rest hagenda
  have hstep : step s = hostCopy n { s with agenda := rest } := step_of_cons hagenda
  rw [hstep]
  refine ⟨fun ho hi hb => ⟨copyBytes s.omem n 0 s.imem, hostCopy_of_idle ho hi hb, fun a => ?_⟩,
    fun ho => hostCopy_past_omem ho, fun ho hi => hostCopy_past_imem ho hi, fun ho hi hn hb => ?_, fun hn _ => ?_⟩
  · simp [read_copyBytes]
  · exact (hostCopy_inside (s := { s with agenda := rest }) ho hi hn).trans (if_pos hb)
  · subst hn; exact hostCopy_zero _

end Sys2Proof.Safety
end

section
/-! PROOFS. The counts of FC_COUNT (spec/40_frequency_counter.md R121 to R123): O38. -/

namespace Sys2Proof.Safety

open Sys2Proof.Machine

/-- FC_CLEAR leaves every byte value's count 0 (R121). -/
theorem get_fcClear_byte (b : Byte) : Table.get fcClear b.toNat 0 = 0 :=
  Finset.sum_eq_zero_iff.1 tallied_fcClear.bytes _ (Finset.mem_range.2 b.isLt)

/-- Counting a byte raises its own entry and no other byte's (R122). -/
theorem get_set_count (freq : Table Nat NSYM) (a b : Byte) :
    Table.get (Table.set freq a.toNat (Table.get freq a.toNat 0 + 1)) b.toNat 0 =
      Table.get freq b.toNat 0 + if a = b then 1 else 0 := by
  have hlt : a.toNat < NSYM := a.isLt.trans (by decide)
  by_cases hab : a = b
  · subst hab; rw [Table.get_set_self _ _ hlt, if_pos rfl]
  · rw [Table.get_set_ne _ _ (mt BitVec.eq_of_toNat_eq hab), if_neg hab, Nat.add_zero]

/-- The loop of FC_COUNT over the `n` bytes from address `i` on, which lie in IMEM: it adds each byte value's
occurrences there to its entry (R122). -/
theorem fcCountLoop_counts {s : State} {n i : Nat} (h : i + n ≤ s.cfg.imemSize) (freq : Table Nat NSYM) :
    ∃ f, fcCountLoop s n i freq = .ok f ∧
      ∀ b : Byte, Table.get f b.toNat 0 =
        Table.get freq b.toNat 0 + ((List.range' i n).map s.imem.read).count b := by
  induction n generalizing i freq with
  | zero => exact ⟨freq, rfl, fun _ => rfl⟩
  | succ n ih =>
    obtain ⟨f, hf, hcount⟩ := ih (i := i + 1) (by omega)
      (Table.set freq (s.imem.read i).toNat (Table.get freq (s.imem.read i).toNat 0 + 1))
    refine ⟨f, ?_, fun b => ?_⟩
    · rw [fcCountLoop, memReadImem_of_lt (by omega)]
      exact hf
    · rw [hcount b, get_set_count, List.range'_succ, List.map_cons, List.count_cons]
      simp only [beq_iff_eq]
      omega

/-- C_COUNT is the loop over IMEM[0..ILEN-1] from cleared counts (R121, R122, R212). -/
theorem cCount_of_loop {s : State} {f : Table Nat NSYM}
    (h : fcCountLoop { s with freq := fcClear } s.ilen.toNat 0 fcClear = .ok f) :
    cCount s = .ok { s with freq := f, iptr := s.ilen.toNat, phase := .cBuild } := by
  rw [cCount, fcCount, h]

/-- Settles O38: the loop's counts are those of the input, and its sums are the tally of as many bytes. -/
theorem frequenciesAreCounts : Obligations.FrequenciesAreCounts := by
  unfold Obligations.FrequenciesAreCounts
  intro s hlen
  obtain ⟨f, hf, hcount⟩ :=
    fcCountLoop_counts (s := { s with freq := fcClear }) (n := s.ilen.toNat) (i := 0) (by simpa using hlen) fcClear
  have htally : Tallied s.ilen.toNat f := Nat.zero_add s.ilen.toNat ▸ fcCountLoop_tallied tallied_fcClear hf
  refine ⟨f, cCount_of_loop hf, fun b => ?_, htally.eos, htally.bytes, htally.total⟩
  rw [hcount b, get_fcClear_byte, Nat.zero_add, inputBytes, List.range_eq_range']

end Sys2Proof.Safety
end

section
/-! PROOFS. TB_XMIN, TB_MERGE and TB_BUILD (spec/41_tree_builder.md R132 to R137): O39, O40, O41. -/

namespace Sys2Proof.Safety

open Sys2Proof.Machine

/-! ### The least node -/

/-- A live node is there to extract (R134). -/
theorem tbXmin_of_mem {d : NodeStore} {j : Nat} (h : j ∈ live d) : ∃ i d', tbXmin d = .ok (i, d') := by
  have hkey : (weight d j, j) ∈ d.liveKeys := mem_liveKeys.2 ⟨h, rfl⟩
  unfold tbXmin
  cases hks : d.liveKeys with
  | nil => rw [hks] at hkey; cases hkey
  | cons k ks => exact ⟨_, _, rfl⟩

/-- Settles O39: the least key is the running minimum over the keys, and a live node has a key. -/
theorem leastNodeIsExtracted : Obligations.LeastNodeIsExtracted := by
  unfold Obligations.LeastNodeIsExtracted
  exact ⟨fun d d' i h => tbXmin_ok h, fun d j hj hlive => tbXmin_of_mem (mem_live.2 ⟨hj, hlive⟩)⟩

/-! ### A merge of the two least nodes -/

/-- The store after TB_XMIN has taken node `a` (R134). -/
def extracted (d : NodeStore) (a : Nat) : NodeStore := { d with nlive := Table.set d.nlive a false }

theorem mem_live_extracted {d : NodeStore} {a j : Nat} (ha : a < NNODE) :
    j ∈ live (extracted d a) ↔ j ∈ live d ∧ j ≠ a :=
  mem_live_set_false ha

theorem live_extracted {d : NodeStore} {a : Nat} (ha : a < NNODE) : live (extracted d a) = (live d).erase a :=
  Finset.ext fun j => by rw [mem_live_extracted ha, Finset.mem_erase, and_comm]

/-- The merge of `a` and `b` with the tie rule: `a` has the least key, `b` the least of the rest (R133, R135). -/
structure MergesLeast (d d' : NodeStore) (a b : Nat) : Prop extends Merges d d' a b where
  leastLeft : LeastKey d a
  leastRight : LeastKey (extracted d a) b

/-- With two live nodes and a free index TB_MERGE joins the two least (R135). -/
theorem tbMerge_of_two_live {d : NodeStore} (h2 : 2 ≤ (live d).card) (hroom : d.nnext < NNODE) :
    ∃ a b d', tbXmin d = .ok (a, extracted d a) ∧ tbXmin (extracted d a) = .ok (b, extracted (extracted d a) b) ∧
      tbMerge d = .ok d' ∧ MergesLeast d d' a b := by
  obtain ⟨j, hj⟩ : (live d).Nonempty := Finset.card_pos.1 (by omega)
  obtain ⟨a, d1, ha⟩ := tbXmin_of_mem hj
  obtain ⟨hleast, rfl⟩ := tbXmin_ok ha
  have haN : a < NNODE := hleast.1
  obtain ⟨k, hk, hka⟩ := Finset.exists_mem_ne (by omega : 1 < (live d).card) a
  obtain ⟨b, d2, hb⟩ := tbXmin_of_mem ((mem_live_extracted haN).2 ⟨hk, hka⟩)
  obtain ⟨hsecond, rfl⟩ := tbXmin_ok hb
  obtain ⟨hblive, hba⟩ := (mem_live_extracted haN).1 hsecond.mem_live
  refine ⟨a, b, (extracted (extracted d a) b).addNode a b, ha, hb, ?_, ⟨?_, hleast, hsecond⟩⟩
  · simp only [tbMerge, ha]
    rw [show tbXmin { d with nlive := Table.set d.nlive a false } = _ from hb]
    exact if_pos hroom
  · exact
      { ne := hba.symm, left := hleast.mem_live, right := hblive, least := fun j hj => hleast.weight_le hj
        second := fun j hj hja => hsecond.weight_le ((mem_live_extracted haN).2 ⟨hj, hja⟩)
        room := hroom, eq := rfl }

/-- Settles O40: the store after the merge, read entry by entry. -/
theorem mergeJoinsTheTwoLeast : Obligations.MergeJoinsTheTwoLeast := by
  unfold Obligations.MergeJoinsTheTwoLeast
  intro d h2 hroom
  rw [liveCount_eq_card] at h2
  obtain ⟨a, b, d', ha, hb, hmerge, hm⟩ := tbMerge_of_two_live h2 hroom
  have hnew : d.nnext ∈ live d' := by rw [hm.live_eq]; exact Finset.mem_insert_self _ _
  refine ⟨a, b, _, _, ha, hb, hm.ne, hm.leastLeft, hm.leastRight, d', hmerge, hm.nnext, hm.weight_new,
    by rw [hm.nleft_get, if_pos rfl], by rw [hm.nright_get, if_pos rfl], (mem_live.1 hnew).2, fun j hj => ?_,
    hm.ndepth, by rw [hm.eq]; rfl⟩
  refine ⟨hm.weight_old hj, by rw [hm.nleft_get, if_neg hj], by rw [hm.nright_get, if_neg hj], ?_⟩
  rw [hm.eq]
  simp only [NodeStore.addNode]
  rw [Table.get_set_ne _ _ hj.symm, Table.get_set _ _ hm.right_lt, Table.get_set _ _ hm.left_lt]
  by_cases hbj : b = j
  · simp [hbj]
  · by_cases haj : a = j
    · simp [haj]
    · simp [hbj, haj, Ne.symm hbj, Ne.symm haj]

/-! ### The merges of TB_BUILD -/

/-- A merge leaves one live node fewer. -/
theorem Merges.card_live {d d' : NodeStore} {a b : Nat} (h : Merges d d' a b) (hbelow : ∀ j ∈ live d, j < d.nnext) :
    (live d').card + 1 = (live d).card := by
  obtain ⟨hsum, hsum'⟩ := h.sum_live hbelow (fun _ => 1)
  simp only [Finset.sum_const, smul_eq_mul, mul_one] at hsum hsum'
  omega

/-- With the free indices for them, the merges end in one tree, one new node each (R137). -/
theorem tbMergeLoop_ends {total n : Nat} {d : NodeStore} (hd : Forest total d) (hpos : 0 < (live d).card)
    (hfree : d.nnext + (live d).card ≤ NNODE + 1) (hfuel : (live d).card ≤ n + 1) :
    ∃ e, tbMergeLoop n d = .ok e ∧ (live e).card = 1 ∧ e.nnext + 1 = d.nnext + (live d).card := by
  induction n generalizing d with
  | zero => exact ⟨d, rfl, by omega, by omega⟩
  | succ n ih =>
    by_cases h2 : 2 ≤ (live d).card
    · obtain ⟨a, b, d', -, -, hmerge, hm⟩ := tbMerge_of_two_live h2 (by omega)
      have hcard := hm.card_live hd.below
      have hnext := hm.nnext
      obtain ⟨e, he, hone, hcount⟩ := ih (hd.merge hm.toMerges) (by omega) (by omega) (by omega)
      refine ⟨e, ?_, hone, by omega⟩
      rw [tbMergeLoop, if_pos (by rwa [liveCount_eq_card]), hmerge]
      exact he
    · refine ⟨d, ?_, by omega, by omega⟩
      rw [tbMergeLoop, if_neg (by rwa [liveCount_eq_card])]

/-- Every created node's children have lower indices (R136). -/
def ChildrenBelow (d : NodeStore) : Prop :=
  ∀ n, NODE_BASE ≤ n → n < d.nnext → Table.get d.nleft n 0 < n ∧ Table.get d.nright n 0 < n

theorem ChildrenBelow.merge {d d' : NodeStore} {a b : Nat} (h : ChildrenBelow d) (hbelow : ∀ j ∈ live d, j < d.nnext)
    (hm : Merges d d' a b) : ChildrenBelow d' := by
  intro n hbase hn
  rw [hm.nleft_get, hm.nright_get]
  by_cases hnew : n = d.nnext
  · rw [if_pos hnew, if_pos hnew, hnew]
    exact ⟨hbelow a hm.left, hbelow b hm.right⟩
  · rw [if_neg hnew, if_neg hnew]
    rw [hm.nnext] at hn
    exact h n hbase (by omega)

/-! ### The leaves -/

/-- The live nodes after TB_INIT are the symbols that occur, in number (R131). -/
theorem card_live_tbInit (freq : Table Nat NSYM) (d : NodeStore) :
    (live (tbInit freq d)).card = (List.range NSYM).countP (fun i => decide (0 < Table.get freq i 0)) := by
  rw [← card_filter_range]
  refine congrArg Finset.card (Finset.ext fun i => ?_)
  rw [mem_live_tbInit]
  simp only [Finset.mem_filter, Finset.mem_range, decide_eq_true_eq]
  exact ⟨fun h => ⟨lt_of_get_pos h, h⟩, fun h => h.2⟩

/-- The placeholder raises one leaf to two (R132). -/
theorem card_live_leaves {freq : Table Nat NSYM} {old : NodeStore} (heos : 0 < Table.get freq EOS 0) :
    (live (leaves freq old)).card =
      max 2 ((List.range NSYM).countP (fun i => decide (0 < Table.get freq i 0))) := by
  have hpos : 0 < (live (tbInit freq old)).card := Finset.card_pos.2 ⟨EOS, mem_live_tbInit.2 heos⟩
  rw [← card_live_tbInit freq old]
  by_cases hcard : (live (tbInit freq old)).card = 1
  · have hnot : PH ∉ live (tbInit freq old) := fun h => absurd (lt_of_get_pos (mem_live_tbInit.1 h)) (by decide)
    rw [leaves, (tbPlaceholder_of_card hcard).1, Finset.card_insert_of_notMem hnot, hcard]
    rfl
  · rw [leaves, tbPlaceholder_of_ne hcard]
    omega

theorem card_live_leaves_le {freq : Table Nat NSYM} {old : NodeStore} (heos : 0 < Table.get freq EOS 0) :
    2 ≤ (live (leaves freq old)).card ∧ (live (leaves freq old)).card ≤ NSYM := by
  rw [card_live_leaves heos]
  have hle := List.countP_le_length (p := fun i => decide (0 < Table.get freq i 0)) (l := List.range NSYM)
  rw [List.length_range] at hle
  exact ⟨le_max_left _ _, max_le (by decide) hle⟩

/-- TB_BUILD makes one tree of the leaves (R137). -/
theorem tbMergeLoop_leaves_ends {freq : Table Nat NSYM} (old : NodeStore) (heos : 0 < Table.get freq EOS 0) :
    ∃ e, tbMergeLoop NNODE (leaves freq old) = .ok e ∧ (live e).card = 1 ∧
      e.nnext = 257 + (live (leaves freq old)).card := by
  obtain ⟨h2, hle⟩ := card_live_leaves_le (old := old) heos
  have hle' : (live (leaves freq old)).card ≤ 257 := hle
  have hbase : (leaves freq old).nnext = 258 := leaves_nnext freq old
  obtain ⟨e, he, hone, hcount⟩ := tbMergeLoop_ends (n := NNODE) (forest_leaves freq old) (by omega)
    (by show _ ≤ 515; omega) (by show _ ≤ 515; omega)
  exact ⟨e, he, hone, by omega⟩

/-- Settles O41: the merges of the leaves end in one tree, and they keep the total weight and the order of the nodes. -/
theorem buildEndsInOneTree : Obligations.BuildEndsInOneTree := by
  unfold Obligations.BuildEndsInOneTree
  intro s heos
  obtain ⟨e, he, hone, hnext⟩ := tbMergeLoop_leaves_ends s.nodes heos
  obtain ⟨h2, hle⟩ := card_live_leaves_le (old := s.nodes) heos
  have hle' : (live (leaves s.freq s.nodes)).card ≤ 257 := hle
  have hbase : (leaves s.freq s.nodes).nnext = 258 := leaves_nnext _ _
  obtain ⟨hforest, hchildren⟩ := tbMergeLoop_invariant
    (P := fun d => Forest (∑ i ∈ Finset.range NSYM, Table.get s.freq i 0) d ∧ ChildrenBelow d)
    (fun d d' a b hd hm => ⟨hd.1.merge hm, hd.2.merge hd.1.below hm⟩)
    ⟨forest_leaves s.freq s.nodes, fun n hn hlt => by
      have hn' : 258 ≤ n := hn
      omega⟩ he
  obtain ⟨r, hr⟩ := Finset.card_eq_one.1 hone
  obtain rfl : r = e.nnext - 1 := hforest.last hone.le r (by simp [hr])
  have hmem : ∀ j, j ∈ live e ↔ j = e.nnext - 1 := fun j => by rw [hr, Finset.mem_singleton]
  refine ⟨{ s with nodes := { e with root := e.nnext - 1 } }, _, ?_, card_live_leaves (old := s.nodes) heos ▸ rfl,
    by show e.nnext - 1 = _; omega, hnext, by show e.nnext - 1 ≤ 513; omega, fun j hj => ?_, ?_,
    fun n hn hle => ?_, rfl⟩
  · rw [tbBuild]
    rw [leaves] at he
    rw [he]
  · rw [← hmem j, mem_live]
    exact ⟨fun h => ⟨hj, h⟩, fun h => h.2⟩
  · have htotal := hforest.total_eq
    rw [liveWeight, hr, Finset.sum_singleton] at htotal
    exact htotal
  · have hle : n ≤ e.nnext - 1 := hle
    exact hchildren n hn (by omega)

end Sys2Proof.Safety
end

section
/-! PROOFS. The canonical codes in closed form and in the step form, and that none of them begins another
(spec/41_tree_builder.md R144 to R147): O45, O46. Everything rests on one number per symbol, the code space used before
it: that number is the code left-aligned in 45 bits, and along the canonical order it grows by one code of the symbol
each time. -/

namespace Sys2Proof.Safety

open Sys2Proof.Machine

/-! ### The canonical order as a strict order -/

/-- The symbols of one length are listed by ascending id (R144). -/
theorem symbolsOfLength_ascending (len : Table Nat NSYM) (l : Nat) : (symbolsOfLength len l).Pairwise (· < ·) := by
  have hsub : List.Sublist (symbolsOfLength len l) ((Table.entries len).map (·.2)) := List.filter_sublist.map _
  refine List.Pairwise.sublist hsub ?_
  rw [Table.entries, List.zipIdx_map_snd]
  exact List.pairwise_lt_range'

theorem canonicallyBefore_iff {len : Nat → Nat} {r s : Nat} : canonicallyBefore len r s = true ↔
    0 < len r ∧ len r ≤ L_MAX ∧ (len r < len s ∨ (len r = len s ∧ r < s)) := by
  simp [canonicallyBefore, and_assoc]

/-- Each entry of the canonical order comes before the later ones (R144). -/
theorem canonicalOrder_before (len : Table Nat NSYM) :
    (canonicalOrder len).Pairwise (fun e f => canonicallyBefore (lengths len) e.1 f.1 = true) := by
  have hlt : (canonicalOrder len).Pairwise (fun e f => e.2 < f.2 ∨ (e.2 = f.2 ∧ e.1 < f.1)) := by
    rw [canonicalOrder, List.pairwise_flatMap]
    constructor
    · intro l _
      exact List.pairwise_map.2 ((symbolsOfLength_ascending len l).imp fun h => .inr ⟨rfl, h⟩)
    · refine (List.pairwise_lt_range' (s := 1) (n := L_MAX)).imp fun {l k} hlk => ?_
      intro e he f hf
      obtain ⟨_, -, rfl⟩ := List.mem_map.1 he
      obtain ⟨_, -, rfl⟩ := List.mem_map.1 hf
      exact .inl hlk
  refine hlt.imp_of_mem fun {e f} he hf h => ?_
  obtain ⟨-, hel, hpos, hmax⟩ := bounds_of_mem_canonicalOrder he
  obtain ⟨-, hfl, -, -⟩ := bounds_of_mem_canonicalOrder hf
  have hl : lengths len e.1 = e.2 := hel.symm
  have hl' : lengths len f.1 = f.2 := hfl.symm
  rw [canonicallyBefore_iff, hl, hl']
  exact ⟨hpos, hmax, h⟩

theorem canonicallyBefore_asymm {len : Nat → Nat} {r s : Nat} (h : canonicallyBefore len r s = true) :
    ¬ canonicallyBefore len s r = true := by
  rw [canonicallyBefore_iff] at *; omega

/-- Two coded symbols that differ stand in canonical order one way or the other. -/
theorem canonicallyBefore_total {len : Table Nat NSYM} (h : CanonPrecondition len) {r s : Nat} (hr : r < NSYM)
    (hs : s < NSYM) (hr0 : 0 < Table.get len r 0) (hs0 : 0 < Table.get len s 0) (hne : r ≠ s) :
    canonicallyBefore (lengths len) r s = true ∨ canonicallyBefore (lengths len) s r = true := by
  have hrmax := h.1 r hr
  have hsmax := h.1 s hs
  simp only [canonicallyBefore_iff, lengths]
  omega

/-! ### The code space before a symbol -/

/-- The code space used by the symbols before `s` in canonical order, in units of 2^-45 (R146). -/
def spaceBefore (len : Table Nat NSYM) (s : Nat) : Nat :=
  ∑ r ∈ (Finset.range NSYM).filter (fun r => canonicallyBefore (lengths len) r s = true),
    2 ^ (L_MAX - Table.get len r 0)

/-- The closed form of R146 is the code space before the symbol, in codes of its length. -/
theorem canonicalValue_eq (len : Table Nat NSYM) (s : Nat) :
    canonicalValue (lengths len) s = spaceBefore len s / 2 ^ (L_MAX - Table.get len s 0) := by
  have hsum := List.sum_toFinset (fun r => 2 ^ (L_MAX - Table.get len r 0))
    ((List.nodup_range (n := NSYM)).filter (fun r => canonicallyBefore (lengths len) r s))
  rw [List.toFinset_filter, List.toFinset_range] at hsum
  rw [canonicalValue, spaceBefore, hsum]
  rfl

/-- The canonical order up to an entry takes the code space before its symbol. -/
theorem codeSpace_eq_spaceBefore {len : Table Nat NSYM} {pre post : List (Nat × Nat)} {e : Nat × Nat}
    (h : canonicalOrder len = pre ++ e :: post) : codeSpace pre = spaceBefore len e.1 := by
  have hbefore := canonicalOrder_before len
  have hnodup := canonicalOrder_nodup len
  rw [h, List.pairwise_append] at hbefore
  rw [h, List.map_append, List.nodup_append] at hnodup
  obtain ⟨-, hpost, hpre⟩ := hbefore
  have hset : (pre.map Prod.fst).toFinset =
      (Finset.range NSYM).filter (fun r => canonicallyBefore (lengths len) r e.1 = true) := by
    ext r
    simp only [List.mem_toFinset, List.mem_map, Finset.mem_filter, Finset.mem_range]
    constructor
    · rintro ⟨f, hf, rfl⟩
      have hmem : f ∈ canonicalOrder len := by rw [h]; exact List.mem_append_left _ hf
      exact ⟨(bounds_of_mem_canonicalOrder hmem).1, hpre f hf e List.mem_cons_self⟩
    · rintro ⟨hr, hre⟩
      obtain ⟨hpos, hmax, -⟩ := canonicallyBefore_iff.1 hre
      have hmem : (r, Table.get len r 0) ∈ canonicalOrder len := mem_canonicalOrder.2 ⟨hr, rfl, hpos, hmax⟩
      rw [h] at hmem
      rcases List.mem_append.1 hmem with hmem | hmem
      · exact ⟨_, hmem, rfl⟩
      · exfalso
        rcases List.mem_cons.1 hmem with rfl | hmem
        · exact canonicallyBefore_asymm hre hre
        · exact canonicallyBefore_asymm hre (List.rel_of_pairwise_cons hpost hmem)
  have hsum := List.sum_toFinset (fun r => 2 ^ (L_MAX - Table.get len r 0)) hnodup.1
  rw [hset, List.map_map] at hsum
  rw [spaceBefore, hsum, codeSpace]
  refine congrArg List.sum (List.map_congr_left fun f hf => ?_)
  have hmem : f ∈ canonicalOrder len := by rw [h]; exact List.mem_append_left _ hf
  simp [(bounds_of_mem_canonicalOrder hmem).2.1]

/-- Lengths that CANON accepts take the Kraft sum as code space (R145). -/
theorem codeSpace_eq_kraftSum {len : Table Nat NSYM} (h : ∀ i, i < NSYM → Table.get len i 0 ≤ L_MAX) :
    codeSpace (canonicalOrder len) = kraftSum len := by
  rw [codeSpace_canonicalOrder, kraftSum_eq_sum, Finset.sum_filter]
  refine Finset.sum_congr rfl fun i hi => ?_
  simp [h i (Finset.mem_range.1 hi)]

section
variable {len : Table Nat NSYM} {s : Nat}

/-- A coded symbol stands at one place of the canonical order. -/
theorem exists_canonicalOrder_split (hs : s < NSYM) (hpos : 0 < Table.get len s 0) (hmax : Table.get len s 0 ≤ L_MAX) :
    ∃ pre post, canonicalOrder len = pre ++ (s, Table.get len s 0) :: post :=
  List.append_of_mem (mem_canonicalOrder.2 ⟨hs, rfl, hpos, hmax⟩)

/-- The code space before a symbol is a whole number of codes of its length. -/
theorem dvd_spaceBefore (len : Table Nat NSYM) (s : Nat) : 2 ^ (L_MAX - Table.get len s 0) ∣ spaceBefore len s := by
  refine Finset.dvd_sum fun r hr => pow_dvd_pow 2 ?_
  obtain ⟨-, -, hle⟩ := canonicallyBefore_iff.1 (Finset.mem_filter.1 hr).2
  simp only [lengths] at hle
  omega

/-- A code of the symbol is left after the code space before it (R145). -/
theorem spaceBefore_add_le (h : CanonPrecondition len) (hs : s < NSYM) (hpos : 0 < Table.get len s 0) :
    spaceBefore len s + 2 ^ (L_MAX - Table.get len s 0) ≤ 2 ^ L_MAX := by
  obtain ⟨pre, post, hsplit⟩ := exists_canonicalOrder_split hs hpos (h.1 s hs)
  have hspace := codeSpace_eq_kraftSum h.1
  rw [hsplit, codeSpace_append, codeSpace_cons, codeSpace_eq_spaceBefore hsplit] at hspace
  have hkraft := h.2
  dsimp only at hspace
  omega

/-- The code space before a symbol has its own code in front of that of a later one (R146). -/
theorem spaceBefore_add_le_of_before {r : Nat} (hr : r < NSYM) (h : canonicallyBefore (lengths len) r s = true) :
    spaceBefore len r + 2 ^ (L_MAX - Table.get len r 0) ≤ spaceBefore len s := by
  have hnot : r ∉ (Finset.range NSYM).filter (fun q => canonicallyBefore (lengths len) q r = true) := fun hmem =>
    canonicallyBefore_asymm (Finset.mem_filter.1 hmem).2 (Finset.mem_filter.1 hmem).2
  rw [spaceBefore, add_comm, ← Finset.sum_insert (f := fun q => 2 ^ (L_MAX - Table.get len q 0)) hnot]
  refine Finset.sum_le_sum_of_subset fun q hq => ?_
  rcases Finset.mem_insert.1 hq with rfl | hq
  · exact Finset.mem_filter.2 ⟨Finset.mem_range.2 hr, h⟩
  · obtain ⟨hqN, hqr⟩ := Finset.mem_filter.1 hq
    refine Finset.mem_filter.2 ⟨hqN, ?_⟩
    rw [canonicallyBefore_iff] at *
    omega

end

/-! ### The codes in closed form -/

section
variable {s : State} {i : Nat} (h : CanonPrecondition s.len) (hi : i < NSYM) (hpos : 0 < Table.get s.len i 0)
include h hi hpos

/-- The code CANON gives a symbol, left-aligned in 45 bits, is the code space before it (R145, R146). -/
theorem canon_code_shiftLeft :
    (Table.get (canon s).code i 0).toNat * 2 ^ (L_MAX - Table.get s.len i 0) = spaceBefore s.len i := by
  obtain ⟨pre, post, hsplit⟩ := exists_canonicalOrder_split hi hpos (h.1 i hi)
  have hle := spaceBefore_add_le h hi hpos
  have hcode : Table.get (canon s).code i 0 =
      BitVec.ofNat 45 (spaceBefore s.len i / 2 ^ (L_MAX - Table.get s.len i 0)) := by
    have hget := canonOver_get (code := s.code) (hsplit ▸ canonicalOrder_nodup s.len) hi
    rw [← hsplit, codeSpace_eq_spaceBefore hsplit, Nat.shiftRight_eq_div_pow] at hget
    exact hget
  have hlt : spaceBefore s.len i / 2 ^ (L_MAX - Table.get s.len i 0) < 2 ^ 45 :=
    (Nat.div_le_self _ _).trans_lt (lt_of_lt_of_le (Nat.lt_add_of_pos_right (Nat.two_pow_pos _)) hle)
  rw [hcode, BitVec.toNat_ofNat, Nat.mod_eq_of_lt hlt, Nat.div_mul_cancel (dvd_spaceBefore s.len i)]

/-- The code CANON gives a symbol as a number (R146). -/
theorem canon_code_toNat :
    (Table.get (canon s).code i 0).toNat = spaceBefore s.len i / 2 ^ (L_MAX - Table.get s.len i 0) :=
  (Nat.div_eq_of_eq_mul_left (Nat.two_pow_pos _) (canon_code_shiftLeft h hi hpos).symm).symm

/-- CODE[s] < 2^LEN[s] (R147). -/
theorem canon_code_lt : (Table.get (canon s).code i 0).toNat < 2 ^ Table.get s.len i 0 := by
  have hle := spaceBefore_add_le h hi hpos
  have hmax := h.1 i hi
  have hpow := Nat.two_pow_pos (L_MAX - Table.get s.len i 0)
  refine Nat.lt_of_mul_lt_mul_right (a := 2 ^ (L_MAX - Table.get s.len i 0)) ?_
  rw [canon_code_shiftLeft h hi hpos, ← pow_add, Nat.add_sub_cancel' hmax]
  omega

end

/-! ### The step form -/

/-- Two neighbours of the canonical order: the code space between them is one code of the first (R146). -/
theorem spaceBefore_next {len : Table Nat NSYM} {i : Nat} {p q : Nat × Nat} (hp : (canonicalOrder len)[i]? = some p)
    (hq : (canonicalOrder len)[i + 1]? = some q) : spaceBefore len q.1 = spaceBefore len p.1 + 2 ^ (L_MAX - p.2) := by
  obtain ⟨hi, rfl⟩ := List.getElem?_eq_some_iff.1 hp
  obtain ⟨hi', rfl⟩ := List.getElem?_eq_some_iff.1 hq
  have hsplit : ∀ j (hj : j < (canonicalOrder len).length), canonicalOrder len =
      (canonicalOrder len).take j ++ (canonicalOrder len)[j] :: (canonicalOrder len).drop (j + 1) := fun j hj => by
    rw [List.getElem_cons_drop, List.take_append_drop]
  rw [← codeSpace_eq_spaceBefore (hsplit i hi), ← codeSpace_eq_spaceBefore (hsplit (i + 1) hi'),
    List.take_add_one, List.getElem?_eq_getElem hi, codeSpace_append]
  simp

/-- The first entry of the canonical order has all the code space behind it. -/
theorem spaceBefore_first {len : Table Nat NSYM} {p : Nat × Nat} (hp : (canonicalOrder len)[0]? = some p) :
    spaceBefore len p.1 = 0 := by
  cases hes : canonicalOrder len with
  | nil => rw [hes] at hp; cases hp
  | cons e es =>
    rw [hes] at hp
    injection hp with hp
    subst hp
    exact (codeSpace_eq_spaceBefore (pre := []) hes).symm

/-- Settles O45: the codes are the code space before each symbol, which starts at 0, grows by one code from neighbour to
neighbour and is the sum of the closed form. -/
theorem canonicalCodesStepForm : Obligations.CanonicalCodesStepForm := by
  unfold Obligations.CanonicalCodesStepForm
  intro s h
  refine ⟨fun i p hp => ?_, fun i hi hpos => ?_, fun i hi hzero => ?_, ?_⟩
  · obtain ⟨hpN, hpl, hp0, hpmax⟩ := bounds_of_mem_canonicalOrder (List.mem_of_getElem? hp)
    constructor
    · rintro rfl
      rw [canon_code_toNat h hpN (hpl ▸ hp0), spaceBefore_first hp, Nat.zero_div]
    · intro q hq
      obtain ⟨hqN, hql, hq0, hqmax⟩ := bounds_of_mem_canonicalOrder (List.mem_of_getElem? hq)
      have hle : p.2 ≤ q.2 := by
        obtain ⟨hi, rfl⟩ := List.getElem?_eq_some_iff.1 hp
        obtain ⟨hi', rfl⟩ := List.getElem?_eq_some_iff.1 hq
        exact List.pairwise_iff_getElem.1 (canonicalOrder_sorted s.len) i (i + 1) hi hi' (Nat.lt_succ_self i)
      have hcodep := canon_code_shiftLeft h hpN (hpl ▸ hp0)
      have hcodeq := canon_code_shiftLeft h hqN (hql ▸ hq0)
      have hnext := spaceBefore_next hp hq
      rw [← hpl] at hcodep
      rw [← hql] at hcodeq
      rw [← hcodep, ← hcodeq] at hnext
      refine Nat.eq_of_mul_eq_mul_right (Nat.two_pow_pos (L_MAX - q.2)) ?_
      rw [hnext, Nat.shiftLeft_eq, mul_assoc, ← pow_add, show q.2 - p.2 + (L_MAX - q.2) = L_MAX - p.2 by omega]
      ring
  · rw [canon_code_toNat h hi hpos, canonicalValue_eq]
  · rw [canon_eq_canonOver]
    refine foldl_canonStep_get_of_not_mem (fun hmem => ?_) _
    obtain ⟨e, he, rfl⟩ := List.mem_map.1 hmem
    obtain ⟨-, hl, h0, -⟩ := bounds_of_mem_canonicalOrder he
    omega
  · rw [← codeSpace_eq_kraftSum h.1, canon_eq_canonOver]
    exact canonOver_snd _ _

/-! ### No code begins another -/

/-- The first bits of a bit string are those of the number shifted right (R10). -/
theorem take_bitString (v n k : Nat) : (bitString v (n + k)).take n = bitString (v / 2 ^ k) n := by
  induction k generalizing v with
  | zero => rw [List.take_of_length_le (by simp), pow_zero, Nat.div_one, Nat.add_zero]
  | succ k ih =>
    rw [← Nat.add_assoc, bitString_succ, List.take_append_of_le_length (by simp), ih, Nat.div_div_eq_div_mul, pow_succ']

/-- Two numbers of n bits with the same bit string are the same. -/
theorem bitString_inj {v w n : Nat} (hv : v < 2 ^ n) (hw : w < 2 ^ n) (h : bitString v n = bitString w n) : v = w := by
  induction n generalizing v w with
  | zero => omega
  | succ n ih =>
    rw [bitString_succ, bitString_succ] at h
    obtain ⟨hhigh, hlow⟩ := List.append_inj h (by simp)
    have hdiv := ih (v := v / 2) (w := w / 2) (by omega) (by omega) hhigh
    simp only [List.cons.injEq, and_true, Nat.testBit_zero, decide_eq_decide] at hlow
    omega

/-- A bit string that begins another is that of its number shifted right. -/
theorem eq_div_of_bitString_prefix {v w n m : Nat} (hv : v < 2 ^ n) (hw : w < 2 ^ m)
    (h : bitString v n <+: bitString w m) : n ≤ m ∧ v = w / 2 ^ (m - n) := by
  have hle : n ≤ m := by simpa using h.length_le
  obtain ⟨k, rfl⟩ := Nat.exists_eq_add_of_le hle
  refine ⟨hle, ?_⟩
  rw [List.prefix_iff_eq_take, length_bitString, take_bitString] at h
  rw [Nat.add_sub_cancel_left]
  refine bitString_inj hv ?_ h
  rw [Nat.div_lt_iff_lt_mul (Nat.two_pow_pos k), ← pow_add]
  exact hw

section
variable {s : State} (h : CanonPrecondition s.len)
include h

/-- The bits of a canonical code (R30, R147). -/
theorem codeOf_canon {i : Nat} (hi : i < NSYM) :
    codeOf s.len (canon s).code i = bitString (Table.get (canon s).code i 0).toNat (Table.get s.len i 0) := by
  rw [codeOf, ← codeBits_ofNat _ (h.1 i hi), BitVec.ofNat_toNat, BitVec.setWidth_eq]

/-- No code begins another: the interval of the code space it stands for would hold that of the other (R147). -/
theorem canon_not_prefix {r q : Nat} (hr : r < NSYM) (hq : q < NSYM) (hr0 : 0 < Table.get s.len r 0)
    (hq0 : 0 < Table.get s.len q 0) (hne : r ≠ q) :
    ¬ codeOf s.len (canon s).code r <+: codeOf s.len (canon s).code q := by
  rw [codeOf_canon h hr, codeOf_canon h hq]
  intro hprefix
  obtain ⟨hle, hdiv⟩ := eq_div_of_bitString_prefix (canon_code_lt h hr hr0) (canon_code_lt h hq hq0) hprefix
  have hqmax := h.1 q hq
  have hwidth : 2 ^ (Table.get s.len q 0 - Table.get s.len r 0) * 2 ^ (L_MAX - Table.get s.len q 0) =
      2 ^ (L_MAX - Table.get s.len r 0) := by
    rw [← pow_add]; congr 1; omega
  have hlow := Nat.mul_le_mul_right (2 ^ (L_MAX - Table.get s.len q 0))
    (Nat.mul_div_le (Table.get (canon s).code q 0).toNat (2 ^ (Table.get s.len q 0 - Table.get s.len r 0)))
  have hhigh := Nat.mul_lt_mul_of_pos_right
    (Nat.lt_mul_div_succ (Table.get (canon s).code q 0).toNat
      (Nat.two_pow_pos (Table.get s.len q 0 - Table.get s.len r 0)))
    (Nat.two_pow_pos (L_MAX - Table.get s.len q 0))
  rw [← hdiv, mul_right_comm, hwidth, canon_code_shiftLeft h hq hq0, mul_comm] at hlow hhigh
  rw [canon_code_shiftLeft h hr hr0] at hlow
  rw [add_mul, one_mul, canon_code_shiftLeft h hr hr0] at hhigh
  rcases canonicallyBefore_total h hr hq hr0 hq0 hne with hrq | hqr
  · have := spaceBefore_add_le_of_before hr hrq
    omega
  · have := spaceBefore_add_le_of_before hq hqr
    have := Nat.two_pow_pos (L_MAX - Table.get s.len q 0)
    omega

end

/-- Settles O46: the codes stand for disjoint intervals of the code space, in canonical order. -/
theorem canonicalCodesArePrefixFree : Obligations.CanonicalCodesArePrefixFree := by
  unfold Obligations.CanonicalCodesArePrefixFree
  intro s h
  refine ⟨fun r q hr hq hr0 hq0 hne => canon_not_prefix h hr hq hr0 hq0 hne,
    fun i hi hpos => canon_code_lt h hi hpos, fun i j hi hj hi0 hj0 hij => ?_⟩
  rw [Nat.shiftLeft_eq, Nat.shiftLeft_eq]
  have hnext := spaceBefore_add_le_of_before hi hij
  rw [← canon_code_shiftLeft h hi hi0, ← canon_code_shiftLeft h hj hj0] at hnext
  exact lt_of_lt_of_le (Nat.lt_add_of_pos_right (Nat.two_pow_pos _)) hnext

end Sys2Proof.Safety
end

section
/-! PROOFS. The code lengths are the leaf depths of the Huffman tree (spec/41_tree_builder.md R137, R140, R141).
TB_DEPTH takes the merges of TB_BUILD back, the last one first; what it does to a property of the live nodes and their
depths is said once, and used for the tree of the reference, for the bound of R150 and for the Kraft sum of R143. -/

namespace Sys2Proof.Safety

open Sys2Proof.Machine

/-! ### The merges taken back -/

/-- The depths after TB_DEPTH's turn for node `n` with the children `a` and `b` (R140). -/
def childrenDeeper (t : Table Nat NNODE) (n a b : Nat) : Table Nat NNODE :=
  Table.set (Table.set t a (depth t n + 1)) b (depth t n + 1)

theorem depth_childrenDeeper {t : Table Nat NNODE} {n a b : Nat} (ha : a < NNODE) (hb : b < NNODE) (j : Nat) :
    depth (childrenDeeper t n a b) j = if j = a ∨ j = b then depth t n + 1 else depth t j := by
  rw [depth, childrenDeeper, Table.get_set _ _ hb, Table.get_set _ _ ha]
  by_cases hbj : b = j
  · simp [hbj]
  · by_cases haj : a = j
    · simp [haj]
    · simp [hbj, haj, Ne.symm hbj, Ne.symm haj, depth]

/-- The depths TB_DEPTH begins with: 0 at the root, the last node made (R140). -/
def rootDepths (e : NodeStore) : Table Nat NNODE := Table.set e.ndepth (e.nnext - 1) 0

theorem depth_rootDepths {total : Nat} {e : NodeStore} (he : Forest total e) (hone : (live e).card = 1) {j : Nat}
    (hj : j ∈ live e) : depth (rootDepths e) j = 0 := by
  have hbase : 258 ≤ e.nnext := he.base
  have hroom : e.nnext ≤ 514 := he.room
  rw [he.last hone.le j hj]
  exact Table.get_set_self _ _ (by show e.nnext - 1 < 514; omega)

/-- TB_DEPTH's turn for a merge, its node and children being what the later merges left (R136, R140). -/
theorem depthsDownTo_merge {n : Nat} {d d' e : NodeStore} {a b : Nat} (hm : Merges d d' a b)
    (he : tbMergeLoop n d' = .ok e) :
    (depthsDownTo e d.nnext).ndepth = childrenDeeper (depthsDownTo e d'.nnext).ndepth d.nnext a b := by
  have hnext := hm.nnext
  obtain ⟨hle, hkept⟩ := tbMergeLoop_children he
  obtain ⟨hleft, hright⟩ := hkept d.nnext (by omega)
  rw [hm.nleft_get, if_pos rfl] at hleft
  rw [hm.nright_get, if_pos rfl] at hright
  rw [depthsDownTo_of_lt (by omega), tbDepthNode, depthsDownTo_nleft, depthsDownTo_nright, hleft, hright, hnext]
  rfl

/-- A merge loop that ends has merged the two least of two or more live nodes, or found fewer (R137). -/
theorem tbMergeLoop_succ_ok {n : Nat} {d e : NodeStore} (he : tbMergeLoop (n + 1) d = .ok e) :
    (∃ a b d', MergesLeast d d' a b ∧ tbMergeLoop n d' = .ok e) ∨ (live d).card < 2 ∧ e = d := by
  unfold tbMergeLoop at he
  rw [liveCount_eq_card] at he
  split at he
  · next h2 =>
    split at he
    · next d' hd' =>
      obtain ⟨_, _, hroom⟩ := tbMerge_ok hd'
      obtain ⟨a, b, d'', -, -, hmerge, hm⟩ := tbMerge_of_two_live h2 hroom.room
      rw [hd'] at hmerge
      injection hmerge with hmerge
      exact .inl ⟨a, b, d', hmerge ▸ hm, he⟩
    · cases he
  · next hcount =>
    injection he with he
    exact .inr ⟨Nat.not_le.1 hcount, he.symm⟩

/-- What holds of a finished tree, and is kept when a merge of the two least is taken back, holds of the store before
the merges and the depths TB_DEPTH has given down to there (R137, R140). -/
theorem tbMergeLoop_unmerge {P : NodeStore → Table Nat NNODE → Prop} {total : Nat}
    (hroot : ∀ e, Forest total e → (live e).card = 1 → P e (rootDepths e))
    (hback : ∀ d d' a b t, Forest total d → MergesLeast d d' a b → P d' t → P d (childrenDeeper t d.nnext a b))
    {n : Nat} {d e : NodeStore} (hd : Forest total d) (hpos : 0 < (live d).card) (hfuel : (live d).card ≤ n + 1)
    (he : tbMergeLoop n d = .ok e) : P d (depthsDownTo e d.nnext).ndepth := by
  have hlast : ∀ d, Forest total d → (live d).card = 1 → P d (depthsDownTo d d.nnext).ndepth := fun d hd hone => by
    rw [depthsDownTo_self]
    exact hroot d hd hone
  induction n generalizing d with
  | zero =>
    injection he with he
    subst he
    exact hlast d hd (by omega)
  | succ n ih =>
    rcases tbMergeLoop_succ_ok he with ⟨a, b, d', hm, he'⟩ | ⟨hcount, rfl⟩
    · have hcard := hm.card_live hd.below
      have htwo : 2 ≤ (live d).card := Finset.one_lt_card.2 ⟨a, hm.left, b, hm.right, hm.ne⟩
      rw [depthsDownTo_merge hm.toMerges he']
      exact hback d d' a b _ hd hm (ih (hd.merge hm.toMerges) (by omega) (by omega) he')
    · exact hlast e hd (by omega)

/-- The merges of TB_BUILD taken back to the leaves, under the depths TB_DEPTH ends with (R137, R140). -/
theorem leaves_unmerge {P : NodeStore → Table Nat NNODE → Prop} {freq : Table Nat NSYM} {old e : NodeStore}
    (hroot : ∀ e, Forest (∑ i ∈ Finset.range NSYM, Table.get freq i 0) e → (live e).card = 1 → P e (rootDepths e))
    (hback : ∀ d d' a b t, Forest (∑ i ∈ Finset.range NSYM, Table.get freq i 0) d → MergesLeast d d' a b → P d' t →
      P d (childrenDeeper t d.nnext a b))
    (heos : 0 < Table.get freq EOS 0) (he : tbMergeLoop NNODE (leaves freq old) = .ok e) :
    P (leaves freq old) (depthsDownTo e NODE_BASE).ndepth := by
  obtain ⟨h2, hle⟩ := card_live_leaves_le (old := old) heos
  exact leaves_nnext freq old ▸
    tbMergeLoop_unmerge hroot hback (forest_leaves freq old) (by omega) (hle.trans (by decide)) he

/-! ### The priority structure of the reference -/

theorem before_iff {x y : HItem} :
    x.before y = true ↔ x.weight < y.weight ∨ (x.weight = y.weight ∧ x.index < y.index) := by
  simp [HItem.before]

/-- The reference takes an item that no other comes before (R134). -/
theorem extractMin_of_ne_nil {xs : List HItem} (h : xs ≠ []) :
    ∃ m ys, extractMin xs = some (m, ys) ∧ (m :: ys).Perm xs ∧ ∀ y ∈ xs, ¬ y.before m = true := by
  induction xs with
  | nil => exact absurd rfl h
  | cons x xs ih =>
    have hself : ∀ z : HItem, ¬ z.before z = true := fun z => by rw [before_iff]; omega
    by_cases hxs : xs = []
    · subst hxs
      refine ⟨x, [], rfl, .refl _, fun y hy => ?_⟩
      rw [List.mem_singleton.1 hy]
      exact hself x
    · obtain ⟨m, ys, hm, hperm, hmin⟩ := ih hxs
      by_cases hlt : x.before m = true
      · refine ⟨x, xs, by simp only [extractMin, hm, hlt, if_true], .refl _, fun y hy => ?_⟩
        rcases List.mem_cons.1 hy with rfl | hy
        · exact hself y
        · have hym := hmin y hy
          rw [before_iff] at *
          omega
      · refine ⟨m, x :: ys, by simp only [extractMin, hm, hlt, if_false, Bool.false_eq_true],
          (List.Perm.swap x m ys).trans (hperm.cons x), fun y hy => ?_⟩
        rcases List.mem_cons.1 hy with rfl | hy
        · exact hlt
        · exact hmin y hy

/-- The items of the reference are the live nodes with their weights, and no node is a leaf of two of their trees. -/
structure Simulates (d : NodeStore) (xs : List HItem) : Prop where
  nodup : (xs.map HItem.index).Nodup
  mem : ∀ j, j ∈ xs.map HItem.index ↔ j ∈ live d
  weight : ∀ x ∈ xs, x.weight = weight d x.index
  apart : xs.Pairwise (fun x y => ∀ i, depthOf x.tree i = none ∨ depthOf y.tree i = none)

theorem Simulates.perm {d : NodeStore} {xs ys : List HItem} (h : Simulates d xs) (hp : ys.Perm xs) :
    Simulates d ys where
  nodup := (hp.map _).nodup_iff.2 h.nodup
  mem := fun j => (hp.map _).mem_iff.trans (h.mem j)
  weight := fun x hx => h.weight x (hp.mem_iff.1 hx)
  apart := h.apart.perm hp.symm fun hxy i => (hxy i).symm

theorem Simulates.length_eq {d : NodeStore} {xs : List HItem} (h : Simulates d xs) : xs.length = (live d).card := by
  have hset : (xs.map HItem.index).toFinset = live d := by
    ext j
    rw [List.mem_toFinset, h.mem]
  rw [← hset, List.toFinset_card_of_nodup h.nodup, List.length_map]

/-- The item taken is the node of least key, and the rest are the items of the store without it (R133, R134). -/
theorem Simulates.extract {d : NodeStore} {xs : List HItem} {a : Nat} (h : Simulates d xs) (ha : LeastKey d a) :
    ∃ x ys, extractMin xs = some (x, ys) ∧ x.index = a ∧ (x :: ys).Perm xs ∧ Simulates (extracted d a) ys := by
  obtain ⟨y, hy, rfl⟩ := List.mem_map.1 ((h.mem a).2 ha.mem_live)
  obtain ⟨x, ys, hmin, hperm, hleast⟩ := extractMin_of_ne_nil (List.ne_nil_of_mem hy)
  have hx : x ∈ xs := hperm.mem_iff.1 List.mem_cons_self
  have hindex : x.index = y.index := by
    by_contra hne
    obtain ⟨hxN, hxlive⟩ := mem_live.1 ((h.mem x.index).1 (List.mem_map_of_mem hx))
    refine hleast y hy (before_iff.2 ?_)
    rw [h.weight x hx, h.weight y hy]
    exact ha.2.2 x.index hxN hne hxlive
  have hsim := h.perm hperm
  have hnodup := List.nodup_cons.1 hsim.nodup
  refine ⟨x, ys, hmin, hindex, hperm, hnodup.2, fun j => ?_, fun z hz => ?_, (List.pairwise_cons.1 hsim.apart).2⟩
  · rw [mem_live_extracted ha.1, ← h.mem, ← (hperm.map HItem.index).mem_iff, List.map_cons, List.mem_cons, ← hindex]
    constructor
    · exact fun hj => ⟨.inr hj, fun hjx => hnodup.1 (hjx ▸ hj)⟩
    · rintro ⟨hj | hj, hne⟩
      · exact absurd hj hne
      · exact hj
  · exact hsim.weight z (List.mem_cons_of_mem _ hz)

/-! ### The tree of two trees -/

theorem depthOf_node_left {l r : HTree} {i k : Nat} (h : depthOf l i = some k) :
    depthOf (.node l r) i = some (k + 1) := by simp [depthOf, h]

theorem depthOf_node_right {l r : HTree} {i k : Nat} (hl : depthOf l i = none) (hr : depthOf r i = some k) :
    depthOf (.node l r) i = some (k + 1) := by simp [depthOf, hl, hr]

theorem depthOf_node_eq_none {l r : HTree} {i : Nat} :
    depthOf (.node l r) i = none ↔ depthOf l i = none ∧ depthOf r i = none := by
  cases hl : depthOf l i with
  | none => simp [depthOf, hl]
  | some k => simp [depthOf, hl]

/-- The item the reference makes of two others, with the index `n` (R135). -/
def joined (n : Nat) (x y : HItem) : HItem := ⟨x.weight + y.weight, n, .node x.tree y.tree⟩

/-- A merge of the store is a merge of the reference (R135). -/
theorem Simulates.merge {d d' : NodeStore} {xs : List HItem} {a b : Nat} (h : Simulates d xs)
    (hbelow : ∀ j ∈ live d, j < d.nnext) (hm : MergesLeast d d' a b) :
    ∃ x y zs, (x :: y :: zs).Perm xs ∧ x.index = a ∧ y.index = b ∧ Simulates d' (joined d.nnext x y :: zs) ∧
      ∀ n, mergeItems (n + 1) d.nnext xs = mergeItems n d'.nnext (joined d.nnext x y :: zs) := by
  obtain ⟨x, ys, hx, hxa, hperm, hsim⟩ := h.extract hm.leastLeft
  obtain ⟨y, zs, hy, hyb, hperm', hsim'⟩ := hsim.extract hm.leastRight
  have hall : (x :: y :: zs).Perm xs := (hperm'.cons x).trans hperm
  obtain ⟨-, -, hweight, hapart⟩ := h.perm hall
  have hmem' : ∀ j, j ∈ zs.map HItem.index ↔ j ∈ ((live d).erase a).erase b := fun j => by
    rw [hsim'.mem, live_extracted hm.right_lt, live_extracted hm.left_lt]
  have hnew : d.nnext ∉ zs.map HItem.index := fun hj => by
    have := hbelow _ (Finset.mem_of_mem_erase (Finset.mem_of_mem_erase ((hmem' _).1 hj)))
    omega
  refine ⟨x, y, zs, hall, hxa, hyb, ⟨?_, fun j => ?_, fun z hz => ?_, ?_⟩, fun n => ?_⟩
  · exact List.nodup_cons.2 ⟨hnew, hsim'.nodup⟩
  · rw [hm.live_eq, Finset.mem_insert, List.map_cons, List.mem_cons, hmem']
    rfl
  · rcases List.mem_cons.1 hz with rfl | hz
    · rw [joined, hm.weight_new, hweight x (by simp), hweight y (by simp), hxa, hyb]
    · have hne : z.index ≠ d.nnext := fun hz' => hnew (hz' ▸ List.mem_map_of_mem hz)
      rw [hm.weight_old hne]
      exact hsim'.weight z hz
  · obtain ⟨hxall, hyall⟩ := List.pairwise_cons.1 hapart
    obtain ⟨hyall, hzs⟩ := List.pairwise_cons.1 hyall
    refine List.pairwise_cons.2 ⟨fun z hz i => ?_, hzs⟩
    rw [joined, depthOf_node_eq_none]
    rcases hyall z hz i with hyi | hzi
    · rcases hxall z (List.mem_cons_of_mem _ hz) i with hxi | hzi
      · exact .inl ⟨hxi, hyi⟩
      · exact .inr hzi
    · exact .inr hzi
  · rw [mergeItems, hx]
    simp only [hy, hm.nnext]
    rfl

/-- The reference makes one tree of the items, and each of their leaves is as deep in it as TB_DEPTH says: the depth of
the item's node, and the leaf's depth below that (R140). -/
def DepthsOfTree (d : NodeStore) (t : Table Nat NNODE) : Prop :=
  ∀ xs n, Simulates d xs → xs.length ≤ n + 1 → ∃ x, mergeItems n d.nnext xs = [x] ∧
    (∀ y ∈ xs, ∀ i k, depthOf y.tree i = some k → depthOf x.tree i = some (depth t y.index + k)) ∧
    ∀ i, (∀ y ∈ xs, depthOf y.tree i = none) → depthOf x.tree i = none

theorem mergeItems_singleton (n next : Nat) (x : HItem) : mergeItems n next [x] = [x] := by
  cases n <;> rfl

/-- A finished tree is the only item. -/
theorem DepthsOfTree.root {total : Nat} {e : NodeStore} (he : Forest total e) (hone : (live e).card = 1) :
    DepthsOfTree e (rootDepths e) := by
  intro xs n hsim _
  have hlen := hsim.length_eq
  rw [hone] at hlen
  obtain ⟨x, rfl⟩ := List.length_eq_one_iff.1 hlen
  refine ⟨x, mergeItems_singleton _ _ _, fun y hy i k hk => ?_, fun i hi => hi x (List.mem_singleton_self x)⟩
  obtain rfl := List.mem_singleton.1 hy
  rw [depth_rootDepths he hone ((hsim.mem _).1 (List.mem_map_of_mem hy)), Nat.zero_add, hk]

/-- Taking a merge back: the leaves of the two trees are one edge deeper in the joined one (R140). -/
theorem DepthsOfTree.unmerge {total : Nat} {d d' : NodeStore} {a b : Nat} {t : Table Nat NNODE} (hd : Forest total d)
    (hm : MergesLeast d d' a b) (ht : DepthsOfTree d' t) : DepthsOfTree d (childrenDeeper t d.nnext a b) := by
  intro xs n hsim hlen
  obtain ⟨x, y, zs, hall, rfl, rfl, hsim', hmerge⟩ := hsim.merge hd.below hm
  obtain ⟨hnodup, -, -, hapart⟩ := hsim.perm hall
  have hlen' := hall.length_eq
  rw [List.length_cons, List.length_cons] at hlen'
  obtain ⟨n, rfl⟩ : ∃ m, n = m + 1 := ⟨n - 1, by omega⟩
  obtain ⟨w, hw, hdeep, hnone⟩ := ht _ n hsim' (by rw [List.length_cons]; omega)
  have hdepth := depth_childrenDeeper (t := t) (n := d.nnext) hm.left_lt hm.right_lt
  have hjoin : ∀ i k, depthOf (joined d.nnext x y).tree i = some k → depthOf w.tree i = some (depth t d.nnext + k) :=
    hdeep _ List.mem_cons_self
  refine ⟨w, by rw [hmerge, hw], fun z hz i k hk => ?_, fun i hi => hnone i fun z hz => ?_⟩
  · rcases List.mem_cons.1 (hall.mem_iff.2 hz) with rfl | hz
    · rw [hdepth, if_pos (.inl rfl), hjoin i _ (depthOf_node_left hk)]
      congr 1; omega
    · rcases List.mem_cons.1 hz with rfl | hz
      · have hx : depthOf x.tree i = none := by
          rcases List.rel_of_pairwise_cons hapart List.mem_cons_self i with h | h
          · exact h
          · rw [h] at hk; cases hk
        rw [hdepth, if_pos (.inr rfl), hjoin i _ (depthOf_node_right hx hk)]
        congr 1; omega
      · have hnot : ∀ v : HItem, (v.index :: zs.map HItem.index).Nodup → z.index ≠ v.index := fun v hv hzv =>
          (List.nodup_cons.1 hv).1 (hzv ▸ List.mem_map_of_mem hz)
        have hy := hnot y (List.nodup_cons.1 hnodup).2
        have hx := hnot x (hnodup.sublist ((List.sublist_cons_self _ _).cons_cons _))
        rw [hdepth, if_neg (not_or.2 ⟨hx, hy⟩)]
        exact hdeep z (List.mem_cons_of_mem _ hz) i k hk
  · rcases List.mem_cons.1 hz with rfl | hz
    · exact depthOf_node_eq_none.2
        ⟨hi x (hall.mem_iff.1 List.mem_cons_self), hi y (hall.mem_iff.1 (List.mem_cons_of_mem _ List.mem_cons_self))⟩
    · exact hi z (hall.mem_iff.1 (List.mem_cons_of_mem _ (List.mem_cons_of_mem _ hz)))

/-! ### The leaves of the reference -/

/-- The leaf items of the symbols that occur (R131). -/
def symbolItems (counts : Nat → Nat) : List HItem :=
  ((List.range NSYM).filter (fun s => decide (0 < counts s))).map (fun s => ⟨counts s, s, .leaf s⟩)

/-- An item that is the leaf of its own index. -/
def HItem.IsLeaf (x : HItem) : Prop := x.tree = .leaf x.index

theorem depthOf_of_isLeaf {x : HItem} (h : x.IsLeaf) (i : Nat) :
    depthOf x.tree i = if i = x.index then some 0 else none := by rw [h]; rfl

/-- Leaves of different nodes have no leaf in common. -/
theorem pairwise_apart_of_isLeaf {xs : List HItem} (hleaf : ∀ x ∈ xs, x.IsLeaf) (hnodup : (xs.map HItem.index).Nodup) :
    xs.Pairwise (fun x y => ∀ i, depthOf x.tree i = none ∨ depthOf y.tree i = none) := by
  refine (List.pairwise_map.1 hnodup).imp_of_mem fun {x y} hx hy hne i => ?_
  rw [depthOf_of_isLeaf (hleaf x hx), depthOf_of_isLeaf (hleaf y hy)]
  by_cases hix : i = x.index
  · exact .inr (if_neg fun hiy => hne (hix.symm.trans hiy))
  · exact .inl (if_neg hix)

section
variable {freq : Table Nat NSYM} {counts : Nat → Nat} (h : ∀ i, i < NSYM → Table.get freq i 0 = counts i)
include h

theorem mem_symbolItems {x : HItem} (hx : x ∈ symbolItems counts) :
    x.IsLeaf ∧ x.index < NSYM ∧ x.weight = Table.get freq x.index 0 ∧ 0 < x.weight := by
  obtain ⟨s, hs, rfl⟩ := List.mem_map.1 hx
  obtain ⟨hs, hpos⟩ := List.mem_filter.1 hs
  exact ⟨rfl, List.mem_range.1 hs, (h s (List.mem_range.1 hs)).symm, of_decide_eq_true hpos⟩

/-- The symbols' items are the live nodes after TB_INIT (R131). -/
theorem simulates_symbolItems (old : NodeStore) : Simulates (tbInit freq old) (symbolItems counts) := by
  have hindex : (symbolItems counts).map HItem.index = (List.range NSYM).filter (fun s => decide (0 < counts s)) := by
    rw [symbolItems, List.map_map]
    exact List.map_id _
  have hnodup : ((symbolItems counts).map HItem.index).Nodup := hindex ▸ List.nodup_range.filter _
  refine ⟨hnodup, fun j => ?_, fun x hx => ?_, pairwise_apart_of_isLeaf (fun x hx => (mem_symbolItems h hx).1) hnodup⟩
  · rw [hindex, List.mem_filter, List.mem_range, decide_eq_true_eq, mem_live_tbInit]
    constructor
    · rintro ⟨hj, hpos⟩
      rwa [h j hj]
    · intro hpos
      have hj := lt_of_get_pos hpos
      exact ⟨hj, h j hj ▸ hpos⟩
  · obtain ⟨-, hxN, hw, hpos⟩ := mem_symbolItems h hx
    rw [tbInit_weight (hxN.trans (by decide)), if_pos (hw ▸ hpos), hw]

/-- The items the reference begins with are leaves: of symbols that occur, or the placeholder's (R131, R132). -/
theorem mem_leafItems {x : HItem} (hx : x ∈ leafItems counts) :
    x.IsLeaf ∧ (x.index = PH ∨ 0 < Table.get freq x.index 0) := by
  have hsym : x ∈ symbolItems counts ∨ x = ⟨0, PH, .leaf PH⟩ := by
    change x ∈ (if (symbolItems counts).length = 1 then symbolItems counts ++ [⟨0, PH, .leaf PH⟩]
      else symbolItems counts) at hx
    split at hx
    · rcases List.mem_append.1 hx with hx | hx
      · exact .inl hx
      · exact .inr (List.mem_singleton.1 hx)
    · exact .inl hx
  rcases hsym with hx | rfl
  · obtain ⟨hleaf, -, hw, hpos⟩ := mem_symbolItems h hx
    exact ⟨hleaf, .inr (hw ▸ hpos)⟩
  · exact ⟨rfl, .inl rfl⟩

/-- The reference begins with the leaves TB_BUILD begins with (R131, R132). -/
theorem simulates_leafItems (old : NodeStore) : Simulates (leaves freq old) (leafItems counts) := by
  have hsim := simulates_symbolItems h old
  have hlen := hsim.length_eq
  by_cases hcard : (live (tbInit freq old)).card = 1
  · obtain ⟨hlive, hweight⟩ := tbPlaceholder_of_card hcard
    have hitems : leafItems counts = symbolItems counts ++ [⟨0, PH, .leaf PH⟩] := if_pos (hlen.trans hcard)
    have hne : ∀ x ∈ symbolItems counts, PH ≠ x.index := fun x hx => by
      have hxN : x.index < 257 := (mem_symbolItems h hx).2.1
      show 257 ≠ x.index
      omega
    have hnodup : ((leafItems counts).map HItem.index).Nodup := by
      rw [hitems, List.map_append, List.nodup_append]
      refine ⟨hsim.nodup, List.nodup_singleton _, ?_⟩
      rintro _ hx _ hPH
      obtain ⟨x, hxs, rfl⟩ := List.mem_map.1 hx
      obtain rfl := List.mem_singleton.1 hPH
      exact (hne x hxs).symm
    refine ⟨hnodup, fun j => ?_, fun x hx => ?_,
      pairwise_apart_of_isLeaf (fun x hx => (mem_leafItems h hx).1) hnodup⟩
    · rw [hitems, leaves, hlive, List.map_append, List.mem_append, Finset.mem_insert, hsim.mem, or_comm]
      simp
    · rw [leaves, hweight]
      rw [hitems] at hx
      rcases List.mem_append.1 hx with hx | hx
      · rw [if_neg (hne x hx)]
        exact hsim.weight x hx
      · obtain rfl := List.mem_singleton.1 hx
        exact (if_pos rfl).symm
  · have hitems : leafItems counts = symbolItems counts := if_neg (hlen ▸ hcard)
    rw [leaves, tbPlaceholder_of_ne hcard, hitems]
    exact hsim

/-- The depths TB_DEPTH gives the symbols are their code lengths under the reference (R140, R141). -/
theorem tbLen_eq_huffmanLength {old e : NodeStore} (heos : 0 < Table.get freq EOS 0)
    (he : tbMergeLoop NNODE (leaves freq old) = .ok e) {i : Nat} (hi : i < NSYM) :
    Table.get (tbLen freq (depthsDownTo e NODE_BASE).ndepth) i 0 = huffmanLength counts i := by
  have hle := (card_live_leaves_le (old := old) heos).2
  have hsim := simulates_leafItems h old
  have htree := leaves_unmerge (P := DepthsOfTree) (fun _ => DepthsOfTree.root) (fun _ _ _ _ _ => DepthsOfTree.unmerge)
    heos he
  obtain ⟨x, hx, hdeep, hnone⟩ := htree (leafItems counts) NSYM hsim (hsim.length_eq ▸ hle.trans (Nat.le_succ _))
  rw [leaves_nnext] at hx
  have hlength : huffmanLength counts i = (depthOf x.tree i).getD 0 := by
    rw [huffmanLength, huffmanTree, hx]
    rfl
  rw [tbLen_get hi, hlength]
  split
  · next hpos =>
    have hlive : i ∈ live (leaves freq old) := live_subset_tbPlaceholder _ (mem_live_tbInit.2 hpos)
    obtain ⟨y, hy, rfl⟩ := List.mem_map.1 ((hsim.mem i).2 hlive)
    rw [hdeep y hy _ 0 (by rw [depthOf_of_isLeaf (mem_leafItems h hy).1, if_pos rfl]), Option.getD_some,
      Nat.add_zero]
  · next hzero =>
    rw [hnone i fun y hy => ?_]
    · rfl
    · obtain ⟨hleaf, hindex⟩ := mem_leafItems h hy
      rw [depthOf_of_isLeaf hleaf]
      refine if_neg ?_
      rintro rfl
      rcases hindex with hPH | hpos
      · rw [hPH] at hi
        exact absurd hi (by decide)
      · exact hzero hpos

end

end Sys2Proof.Safety
end

section
/-! PROOFS. COMPRESS runs to its end on every input that IMEM holds, with the code lengths of the input's counts
(spec/44_compress.md R211 to R218, spec/41_tree_builder.md R137 to R141): O42. TBITS counts the bits that C_PAYLOAD
puts, so the check of C_SIZE leaves room for every byte that goes out. -/

namespace Sys2Proof.Safety

open Sys2Proof.Machine

/-! ### The counts of an input -/

theorem countOf_byte (input : List Byte) (b : Byte) : countOf input b.toNat = input.count b := by
  have hb : b.toNat < 256 := b.isLt
  have hne : b.toNat ≠ EOS := by show b.toNat ≠ 256; omega
  rw [countOf, if_neg hne]
  refine List.countP_congr fun c _ => ?_
  simp only [beq_iff_eq, BitVec.toNat_inj]

theorem countOf_cons (b : Byte) (input : List Byte) {i : Nat} (hi : i < 256) :
    countOf (b :: input) i = countOf input i + if b.toNat = i then 1 else 0 := by
  have hne : i ≠ EOS := by show i ≠ 256; omega
  rw [countOf, countOf, if_neg hne, if_neg hne, List.countP_cons]
  simp only [beq_iff_eq]

/-- A symbol is a byte value or END_OF_STREAM. -/
theorem symbol_cases {i : Nat} (hi : i < NSYM) : i = EOS ∨ ∃ b : Byte, i = b.toNat := by
  have hi' : i < 257 := hi
  by_cases h : i = 256
  · exact .inl h
  · exact .inr ⟨BitVec.ofNat 8 i, by rw [BitVec.toNat_ofNat]; omega⟩

@[simp] theorem length_inputBytes (s : State) : (inputBytes s).length = s.ilen.toNat := by simp [inputBytes]

theorem inputBytes_eq_range' (s : State) : inputBytes s = (List.range' 0 s.ilen.toNat).map s.imem.read := by
  rw [inputBytes, List.range_eq_range']

/-- FREQ holds the counts of an input (R123). -/
structure InputCounts (input : List Byte) (freq : Table Nat NSYM) : Prop where
  tally : Tallied input.length freq
  counts : ∀ i, i < NSYM → Table.get freq i 0 = countOf input i

theorem InputCounts.eos_pos {input : List Byte} {freq : Table Nat NSYM} (h : InputCounts input freq) :
    0 < Table.get freq EOS 0 := by
  rw [h.tally.eos]; exact Nat.one_pos

/-- The number of bits the codes of some bytes have together (R215). -/
def codeBitsOf (len : Table Nat NSYM) (bytes : List Byte) : Nat := (bytes.map (fun b => Table.get len b.toNat 0)).sum

theorem codeBitsOf_eq_sum (len : Table Nat NSYM) (bytes : List Byte) :
    codeBitsOf len bytes = ∑ i ∈ Finset.range 256, countOf bytes i * Table.get len i 0 := by
  induction bytes with
  | nil =>
    refine (Finset.sum_eq_zero fun i hi => ?_).symm
    have hne : i ≠ EOS := by have := Finset.mem_range.1 hi; show i ≠ 256; omega
    rw [countOf, if_neg hne, List.countP_nil, Nat.zero_mul]
  | cons b bytes ih =>
    have hb : b.toNat ∈ Finset.range 256 := Finset.mem_range.2 b.isLt
    rw [Finset.sum_congr rfl fun i hi => by rw [countOf_cons b bytes (Finset.mem_range.1 hi)]]
    simp only [add_mul, Finset.sum_add_distrib, ite_mul, one_mul, zero_mul, Finset.sum_ite_eq, hb, if_true, ← ih]
    rw [codeBitsOf, List.map_cons, List.sum_cons, Nat.add_comm]
    rfl

/-- TBITS is the number of bits of the whole payload (R215). -/
theorem payloadBits_of_counts {input : List Byte} {freq : Table Nat NSYM} (h : InputCounts input freq)
    (len : Table Nat NSYM) : payloadBits freq len = codeBitsOf len input + Table.get len EOS 0 := by
  have hsum : ∑ i ∈ Finset.range 256, Table.get freq i 0 * Table.get len i 0 =
      ∑ i ∈ Finset.range 256, countOf input i * Table.get len i 0 :=
    Finset.sum_congr rfl fun i hi => by rw [h.counts i ((Finset.mem_range.1 hi).trans (by decide))]
  rw [payloadBits_eq, codeBitsOf_eq_sum, hsum, Nat.add_comm]

/-- C_COUNT counts the input (R212). -/
theorem cCount_inputCounts {s : State} (hlen : s.ilen.toNat ≤ s.cfg.imemSize) :
    ∃ f, InputCounts (inputBytes s) f ∧
      cCount s = .ok { s with freq := f, iptr := s.ilen.toNat, phase := .cBuild } := by
  obtain ⟨f, hf, hcount⟩ :=
    fcCountLoop_counts (s := { s with freq := fcClear }) (n := s.ilen.toNat) (i := 0) (by simpa using hlen) fcClear
  have htally : Tallied s.ilen.toNat f := Nat.zero_add s.ilen.toNat ▸ fcCountLoop_tallied tallied_fcClear hf
  refine ⟨f, ⟨by rwa [length_inputBytes], fun i hi => ?_⟩, cCount_of_loop hf⟩
  rcases symbol_cases hi with rfl | ⟨b, rfl⟩
  · exact htally.eos
  · rw [hcount b, get_fcClear_byte, Nat.zero_add, countOf_byte, inputBytes_eq_range']

/-! ### The bits that go out -/

/-- The position of the next bit of the container (R192). -/
def bitPos (s : State) : Nat := 8 * s.optr + s.bw.wcnt

/-- From `s` to `t` the writer has put so many bits and the input pointer has passed so many bytes; nothing else has
changed but OMEM. -/
structure Advanced (bits bytes : Nat) (s t : State) : Prop where
  pos : bitPos t = bitPos s + bits
  iptr : t.iptr = s.iptr + bytes
  wcnt : t.bw.wcnt < 8
  frame : ∃ m o w i, t = { s with omem := m, optr := o, bw := w, iptr := i }

theorem Advanced.trans {k k' n n' : Nat} {s t u : State} (h : Advanced k n s t) (h' : Advanced k' n' t u) :
    Advanced (k + k') (n + n') s u := by
  obtain ⟨m, o, w, i, rfl⟩ := h.frame
  obtain ⟨m', o', w', i', rfl⟩ := h'.frame
  refine ⟨?_, ?_, h'.wcnt, _, _, _, _, rfl⟩
  · rw [h'.pos, h.pos, Nat.add_assoc]
  · rw [h'.iptr, h.iptr, Nat.add_assoc]

theorem Advanced.kept {k n : Nat} {s t : State} (h : Advanced k n s t) :
    t.cfg = s.cfg ∧ t.imem = s.imem ∧ t.ilen = s.ilen ∧ t.freq = s.freq ∧ t.len = s.len ∧ t.phase = s.phase := by
  obtain ⟨_, _, _, _, rfl⟩ := h.frame
  exact ⟨rfl, rfl, rfl, rfl, rfl, rfl⟩

/-- A bit for which OMEM has room is put (R192). -/
theorem bwPutBit_advances {s : State} (hw : s.bw.wcnt < 8) (hfit : bitPos s + 1 ≤ 8 * s.cfg.omemSize) (b : Bool) :
    ∃ t, bwPutBit s b = .ok t ∧ Advanced 1 0 s t := by
  have hcount : (s.bw.accept b).wcnt = s.bw.wcnt + 1 := rfl
  rw [bitPos] at hfit
  unfold bwPutBit
  dsimp only
  split
  · next h8 =>
    rw [emitByte_of_lt _ (by omega)]
    refine ⟨_, rfl, ?_, rfl, Nat.succ_pos 7, _, _, _, _, rfl⟩
    simp only [bitPos]
    omega
  · next h8 =>
    refine ⟨_, rfl, ?_, rfl, by dsimp only; omega, _, _, _, _, rfl⟩
    simp only [bitPos]
    omega

/-- Bits for which OMEM has room are put (R192). -/
theorem bwPutBits_advances {s : State} (hw : s.bw.wcnt < 8) (bs : List Bool)
    (hfit : bitPos s + bs.length ≤ 8 * s.cfg.omemSize) : ∃ t, bwPutBits bs s = .ok t ∧ Advanced bs.length 0 s t := by
  induction bs generalizing s with
  | nil => exact ⟨s, rfl, rfl, rfl, hw, _, _, _, _, rfl⟩
  | cons b bs ih =>
    rw [List.length_cons] at hfit
    obtain ⟨t, ht, hbit⟩ := bwPutBit_advances hw (by omega) b
    have hpos := hbit.pos
    obtain ⟨hcfg, -⟩ := hbit.kept
    obtain ⟨u, hu, hbits⟩ := ih hbit.wcnt (by rw [hcfg]; omega)
    refine ⟨u, ?_, ?_⟩
    · rw [bwPutBits, ht]
      exact hu
    · rw [List.length_cons, Nat.add_comm]
      exact hbit.trans hbits

/-- The second pass over input bytes whose codes OMEM has room for (R217). -/
theorem cPayloadLoop_advances {s : State} {n : Nat} (hw : s.bw.wcnt < 8) (himem : s.iptr + n ≤ s.cfg.imemSize)
    (hfit : bitPos s + codeBitsOf s.len ((List.range' s.iptr n).map s.imem.read) ≤ 8 * s.cfg.omemSize) :
    ∃ t, cPayloadLoop n s = .ok t ∧
      Advanced (codeBitsOf s.len ((List.range' s.iptr n).map s.imem.read)) n s t := by
  induction n generalizing s with
  | zero => exact ⟨s, rfl, rfl, rfl, hw, _, _, _, _, rfl⟩
  | succ n ih =>
    have hcons : codeBitsOf s.len ((List.range' s.iptr (n + 1)).map s.imem.read) =
        Table.get s.len (s.imem.read s.iptr).toNat 0 +
          codeBitsOf s.len ((List.range' (s.iptr + 1) n).map s.imem.read) := by
      rw [List.range'_succ, codeBitsOf, List.map_cons, List.map_cons, List.sum_cons]
      rfl
    rw [hcons] at hfit
    have hput := bwPutBits_advances hw
      (codeBits (Table.get s.code (s.imem.read s.iptr).toNat 0) (Table.get s.len (s.imem.read s.iptr).toNat 0))
    rw [length_codeBits] at hput
    obtain ⟨t, ht, hcode⟩ := hput (by omega)
    obtain ⟨v, hv, hnext⟩ : ∃ v, { t with iptr := t.iptr + 1 } = v ∧
        Advanced (Table.get s.len (s.imem.read s.iptr).toNat 0) 1 s v := by
      obtain ⟨m, o, w, i, rfl⟩ := hcode.frame
      exact ⟨_, rfl, hcode.pos, congrArg (· + 1) hcode.iptr, hcode.wcnt, _, _, _, _, rfl⟩
    obtain ⟨hcfg, himem', -, -, hlen, -⟩ := hnext.kept
    have hpos := hnext.pos
    have hrest := ih hnext.wcnt
    rw [hcfg, himem', hlen, hnext.iptr] at hrest
    obtain ⟨u, hu, hbits⟩ := hrest (by omega) (by omega)
    refine ⟨u, ?_, ?_⟩
    · rw [cPayloadLoop, memReadImem_of_lt (by omega)]
      simp only [bwPut, ht, hv]
      exact hu
    · rw [hcons, Nat.add_comm n 1]
      exact hnext.trans hbits

/-- The partial byte goes out when OMEM has room for it (R194). -/
theorem bwFlush_of_room {s : State} (h : 0 < s.bw.wcnt → s.optr < s.cfg.omemSize) :
    ∃ m o w, bwFlush s = .ok { s with omem := m, optr := o, bw := w } := by
  unfold bwFlush
  split
  · next hpos =>
    rw [emitByte_of_lt _ (h hpos)]
    exact ⟨_, _, _, rfl⟩
  · exact ⟨_, _, _, rfl⟩

theorem length_headerBytes (ilen : Word32) (len : Table Nat NSYM) : (headerBytes ilen len).length = 265 := by
  simp [headerBytes, MAGIC, be32]

/-! ### The phases of COMPRESS -/

/-- LEN holds the lengths that TB_BUILD, TB_DEPTH and TB_LEN make of the counts `freq` (R137, R140, R141). -/
def BuiltLengths (freq len : Table Nat NSYM) : Prop :=
  ∃ old e, tbMergeLoop NNODE (leaves freq old) = .ok e ∧ len = tbLen freq (depthsDownTo e NODE_BASE).ndepth

/-- NODES is the tree TB_BUILD makes of the counts `freq`, with whatever it held before (R137). -/
def BuiltTree (freq : Table Nat NSYM) (d : NodeStore) : Prop :=
  ∃ old e, tbMergeLoop NNODE (leaves freq old) = .ok e ∧ d = { e with root := e.nnext - 1 }

/-- What has been made of the input once the lengths are there (R214). -/
def Lengthened (u : State) : Prop := InputCounts (inputBytes u) u.freq ∧ BuiltLengths u.freq u.len

/-- OMEM has room for the container (R215). -/
def RoomForContainer (u : State) : Prop := HDR_LEN + (payloadBits u.freq u.len + 7) / 8 ≤ u.cfg.omemSize

/-- What each phase of COMPRESS finds, from which it leads to the next without a fault. -/
def Encoding (u : State) : Prop :=
  u.ilen.toNat ≤ u.cfg.imemSize ∧
    match u.phase with
    | .cStart | .cCount => True
    | .cBuild => InputCounts (inputBytes u) u.freq
    | .cDepth => InputCounts (inputBytes u) u.freq ∧ BuiltTree u.freq u.nodes
    | .cCanon | .cSize | .idle => Lengthened u
    | .cHeader => Lengthened u ∧ RoomForContainer u
    | .cPayload => Lengthened u ∧ RoomForContainer u ∧ u.optr = HDR_LEN
    | .cFlush => Lengthened u ∧ (0 < u.bw.wcnt → u.optr < u.cfg.omemSize)
    | .dStart | .dHeader | .dCanon | .dTree | .dDecode | .dFinish => False

/-- C_BUILD leads to C_DEPTH (R213). -/
theorem cBuild_of_counts {s : State} {input : List Byte} (h : InputCounts input s.freq) :
    ∃ d, BuiltTree s.freq d ∧ cBuild s = .ok { s with nodes := d, phase := .cDepth } := by
  obtain ⟨e, he, -⟩ := tbMergeLoop_leaves_ends s.nodes h.eos_pos
  refine ⟨_, ⟨s.nodes, e, he, rfl⟩, ?_⟩
  rw [leaves] at he
  rw [cBuild, tbBuild, he]

/-- TB_DEPTH and TB_LEN make the lengths of the built tree (R214). -/
theorem BuiltTree.lengths {freq : Table Nat NSYM} {d : NodeStore} (h : BuiltTree freq d) :
    BuiltLengths freq (tbLen freq (tbDepth d).ndepth) := by
  obtain ⟨old, e, he, rfl⟩ := h
  refine ⟨old, e, he, ?_⟩
  have hforest := tbMergeLoop_invariant (fun _ _ _ _ hd hm => hd.merge hm) (forest_leaves freq old) he
  rw [tbDepth_eq_depthsDownTo hforest.base]

/-- C_PAYLOAD puts the whole payload after the header (R217). -/
theorem cPayload_of_room {s : State} (hlen : s.ilen.toNat ≤ s.cfg.imemSize)
    (hcounts : InputCounts (inputBytes s) s.freq) (hroom : RoomForContainer s) (hoptr : s.optr = HDR_LEN) :
    ∃ t, cPayload s = .ok { t with phase := .cFlush } ∧
      Advanced (payloadBits s.freq s.len) s.ilen.toNat { bwInit s with iptr := 0 } t := by
  have hoptr' : s.optr = 265 := hoptr
  have hroom' : 265 + (payloadBits s.freq s.len + 7) / 8 ≤ s.cfg.omemSize := hroom
  have hstart : bitPos { bwInit s with iptr := 0 } = 8 * 265 := by rw [← hoptr']; rfl
  have hbits := payloadBits_of_counts hcounts s.len
  rw [inputBytes_eq_range'] at hbits
  rw [hbits] at hroom' ⊢
  obtain ⟨t, ht, hbytes⟩ := cPayloadLoop_advances (s := { bwInit s with iptr := 0 }) (n := s.ilen.toNat)
    (Nat.succ_pos 7) (by dsimp only [bwInit]; omega) (by rw [hstart]; dsimp only [bwInit]; omega)
  obtain ⟨hcfg, -, -, -, hlent, -⟩ := hbytes.kept
  have hput := bwPutBits_advances hbytes.wcnt (codeBits (Table.get t.code EOS 0) (Table.get t.len EOS 0))
  rw [length_codeBits, hbytes.pos, hstart, hcfg, hlent] at hput
  obtain ⟨u, hu, heos⟩ := hput (by dsimp only [bwInit]; omega)
  refine ⟨u, ?_, hbytes.trans heos⟩
  rw [cPayload, ht]
  simp only [bwPut, hlent, hu]

/-- Every turn of COMPRESS leads on, with what the next phase needs (R211 to R218). -/
theorem enginePhase_encoding {s : State} (h : Encoding s) : ∃ t, enginePhase s = .next t ∧ Encoding t := by
  obtain ⟨hlen, hphase⟩ := h
  cases hp : s.phase <;> simp only [hp] at hphase <;> simp only [enginePhase, hp]
  case idle => exact ⟨s, rfl, hlen, by simpa only [hp] using hphase⟩
  case cStart =>
    rw [cStart, if_neg (by omega)]
    exact ⟨_, rfl, hlen, trivial⟩
  case cCount =>
    obtain ⟨f, hf, hcount⟩ := cCount_inputCounts hlen
    rw [hcount]
    exact ⟨_, rfl, hlen, hf⟩
  case cBuild =>
    obtain ⟨d, hd, hbuild⟩ := cBuild_of_counts hphase
    rw [hbuild]
    exact ⟨_, rfl, hlen, hphase, hd⟩
  case cDepth =>
    obtain ⟨hcounts, htree⟩ := hphase
    exact ⟨_, rfl, hlen, hcounts, htree.lengths⟩
  case cCanon => exact ⟨_, rfl, hlen, hphase⟩
  case cSize =>
    rw [cSize]
    dsimp only
    split
    · exact ⟨_, rfl, hlen, hphase⟩
    · next hroom => exact ⟨_, rfl, hlen, hphase, Nat.not_lt.1 hroom⟩
  case cHeader =>
    obtain ⟨hlengths, hroom⟩ := hphase
    have hfit : 265 ≤ s.cfg.omemSize := (Nat.le_add_right _ _).trans hroom
    rw [cHeader, ccEmit, emitBytes_of_le (by rw [length_headerBytes]; dsimp only; omega), length_headerBytes]
    exact ⟨_, rfl, hlen, hlengths, hroom, rfl⟩
  case cPayload =>
    obtain ⟨hlengths, hroom, hoptr⟩ := hphase
    obtain ⟨t, ht, hput⟩ := cPayload_of_room hlen hlengths.1 hroom hoptr
    have hpos := hput.pos
    have hroom' : 265 + (payloadBits s.freq s.len + 7) / 8 ≤ s.cfg.omemSize := hroom
    have hoptr' : s.optr = 265 := hoptr
    obtain ⟨m, o, w, i, rfl⟩ := hput.frame
    simp only [bitPos, bwInit] at hpos
    rw [ht]
    exact ⟨_, rfl, hlen, hlengths, fun hw => by
      dsimp only [bwInit] at hw ⊢
      omega⟩
  case cFlush =>
    obtain ⟨hlengths, hroom⟩ := hphase
    obtain ⟨m, o, w, hflush⟩ := bwFlush_of_room hroom
    rw [cFlush, hflush]
    exact ⟨_, rfl, hlen, hlengths⟩

/-- Turns that always lead on make a run that does. -/
theorem runPhases_progress {P : State → Prop} (hP : ∀ s, P s → ∃ t, enginePhase s = .next t ∧ P t) {s : State} (h : P s)
    (n : Nat) : ∃ t, runPhases n s = .next t ∧ P t := by
  induction n generalizing s with
  | zero => exact ⟨s, rfl, h⟩
  | succ n ih =>
    by_cases hp : s.phase = .idle
    · exact ⟨s, runPhases_idle hp, h⟩
    · obtain ⟨t, ht, hPt⟩ := hP s h
      rw [runPhases_succ hp ht]
      exact ih hPt

/-- COMPRESS of an input that IMEM holds ends, with the lengths of its counts in LEN, whether the container fits OMEM or
not (R211 to R218). -/
theorem exec_compress_lengths {s : State} (hb : s.busy = false) (hlen : s.ilen.toNat ≤ s.cfg.imemSize) :
    ∃ t, exec .compress s = .next t ∧ InputCounts (inputBytes s) t.freq ∧ BuiltLengths t.freq t.len := by
  obtain ⟨t, ht, -, hphase⟩ := runPhases_progress (fun _ => enginePhase_encoding)
    (s := startOperation .cStart s) ⟨hlen, trivial⟩ 9
  have hidle : t.phase = .idle := runPhases_ends (s := startOperation .cStart s) le_rfl ht
  simp only [hidle] at hphase
  rw [← exec_compress_of_idle hb] at ht
  have hkeep := exec_keeps ht
  have hinput : inputBytes t = inputBytes s := by rw [inputBytes, inputBytes, hkeep.ilen, hkeep.imem]
  obtain ⟨hcounts, hlengths⟩ := hphase
  exact ⟨t, ht, hinput ▸ hcounts, hlengths⟩

/-- Settles O42: COMPRESS ends with the lengths of the built tree, which are those of the reference. -/
theorem codeLengthsAreTreeDepths : Obligations.CodeLengthsAreTreeDepths := by
  unfold Obligations.CodeLengthsAreTreeDepths
  intro s hb hlen
  obtain ⟨t, ht, hcounts, old, e, he, hlengths⟩ := exec_compress_lengths hb hlen
  refine ⟨t, ht, fun i hi => ?_⟩
  rw [hlengths]
  exact tbLen_eq_huffmanLength hcounts.counts hcounts.eos_pos he hi

end Sys2Proof.Safety
end

section
/-! PROOFS. The longest code and the Kraft sum of the encoder's lengths (spec/41_tree_builder.md R143, R150): O43, O44.
Taking the merges back from the root keeps the code space of the live nodes whole; the weights bound the depths. -/

namespace Sys2Proof.Safety

open Sys2Proof.Machine

/-! ### The code space of the live nodes -/

/-- A finished tree is shallow: its root has depth 0. -/
theorem Shallow.root {total : Nat} {e : NodeStore} (he : Forest total e) (hone : (live e).card = 1) :
    Shallow total e (rootDepths e) := by
  refine ⟨fun j hj μ _ => ?_, ?_⟩
  · rw [depth_rootDepths he hone hj]
    simpa using he.weight_le hj
  · rw [Finset.sum_congr rfl fun j hj => by rw [depth_rootDepths he hone hj]]
    simp [hone]

/-- The live nodes take the whole code space, in units fine enough for their depths (R143). -/
def Complete (d : NodeStore) (t : Table Nat NNODE) : Prop :=
  ∀ m, (∀ j ∈ live d, depth t j ≤ m) → ∑ j ∈ live d, 2 ^ (m - depth t j) = 2 ^ m

theorem Complete.root {total : Nat} {e : NodeStore} (he : Forest total e) (hone : (live e).card = 1) :
    Complete e (rootDepths e) := by
  intro m _
  rw [Finset.sum_congr rfl fun j hj => by rw [depth_rootDepths he hone hj]]
  simp [hone]

/-- Taking a merge back: the two children share the code space of the node that joined them (R140, R143). -/
theorem Complete.unmerge {total : Nat} {d d' : NodeStore} {a b : Nat} {t : Table Nat NNODE} (hd : Forest total d)
    (hm : Merges d d' a b) (ht : Complete d' t) : Complete d (childrenDeeper t d.nnext a b) := by
  intro m hbound
  have hdepth := depth_childrenDeeper (t := t) (n := d.nnext) hm.left_lt hm.right_lt
  have hrest : ∀ j ∈ ((live d).erase a).erase b, j ∈ live d ∧ depth (childrenDeeper t d.nnext a b) j = depth t j := by
    intro j hj
    obtain ⟨hjb, hj⟩ := Finset.mem_erase.1 hj
    obtain ⟨hja, hj⟩ := Finset.mem_erase.1 hj
    exact ⟨hj, by rw [hdepth, if_neg (not_or.2 ⟨hja, hjb⟩)]⟩
  have hnew : depth t d.nnext + 1 ≤ m := by
    have ha := hbound a hm.left
    rwa [hdepth, if_pos (.inl rfl)] at ha
  obtain ⟨hsum, -⟩ := hm.sum_live hd.below (fun j => 2 ^ (m - depth (childrenDeeper t d.nnext a b) j))
  obtain ⟨-, hsum'⟩ := hm.sum_live hd.below (fun j => 2 ^ (m - depth t j))
  have hhalf : 2 ^ (m - (depth t d.nnext + 1)) + 2 ^ (m - (depth t d.nnext + 1)) = 2 ^ (m - depth t d.nnext) := by
    rw [show m - depth t d.nnext = m - (depth t d.nnext + 1) + 1 by omega, pow_succ, mul_two]
  have hwhole := ht m fun j hj => by
    rw [hm.live_eq] at hj
    rcases Finset.mem_insert.1 hj with rfl | hj
    · exact Nat.le_of_succ_le hnew
    · obtain ⟨hjd, hkept⟩ := hrest j hj
      exact hkept ▸ hbound j hjd
  rw [hsum, hdepth, hdepth, if_pos (.inl rfl), if_pos (.inr rfl), hhalf,
    Finset.sum_congr rfl fun j hj => by rw [(hrest j hj).2], ← hsum', hwhole]

/-- With two live nodes none is the root. -/
theorem Complete.depth_pos {d : NodeStore} {t : Table Nat NNODE} (h : Complete d t) (h2 : 2 ≤ (live d).card) {m j : Nat}
    (hbound : ∀ j ∈ live d, depth t j ≤ m) (hj : j ∈ live d) : 0 < depth t j := by
  by_contra hzero
  obtain ⟨k, hk, hkj⟩ := Finset.exists_mem_ne (by omega : 1 < (live d).card) j
  have hwhole := h m hbound
  have hle := Finset.single_le_sum (f := fun i => 2 ^ (m - depth t i)) (fun _ _ => Nat.zero_le _)
    (Finset.mem_erase.2 ⟨hkj, hk⟩)
  rw [← Finset.add_sum_erase _ _ hj, Nat.eq_zero_of_not_pos hzero, Nat.sub_zero] at hwhole
  have hpos := Nat.two_pow_pos (m - depth t k)
  omega

/-! ### The depths of the leaves -/

theorem live_tbInit_eq_singleton {freq : Table Nat NSYM} {d : NodeStore} (heos : 0 < Table.get freq EOS 0)
    (h : ∀ i, i < 256 → Table.get freq i 0 = 0) : live (tbInit freq d) = {EOS} := by
  ext i
  rw [mem_live_tbInit, Finset.mem_singleton]
  constructor
  · intro hpos
    have hi : i < 257 := lt_of_get_pos hpos
    by_contra hne
    have hne : i ≠ 256 := hne
    rw [h i (by omega)] at hpos
    omega
  · rintro rfl
    exact heos

/-- END_OF_STREAM is alone exactly when the input is empty (R132). -/
theorem card_live_tbInit_eq_one_iff {n : Nat} {freq : Table Nat NSYM} (h : Tallied n freq) (d : NodeStore) :
    (live (tbInit freq d)).card = 1 ↔ n = 0 := by
  have heos : 0 < Table.get freq EOS 0 := by rw [h.eos]; exact Nat.one_pos
  rw [← h.bytes, Finset.sum_eq_zero_iff]
  constructor
  · intro hcard i hi
    have hi := Finset.mem_range.1 hi
    by_contra hne
    have heq := Finset.card_le_one.1 hcard.le i (mem_live_tbInit.2 (Nat.pos_of_ne_zero hne)) EOS
      (mem_live_tbInit.2 heos)
    have heq : i = 256 := heq
    omega
  · intro hzero
    rw [live_tbInit_eq_singleton heos fun i hi => hzero i (Finset.mem_range.2 hi), Finset.card_singleton]

/-- No leaf of an input's tree is deeper than 45: a deeper one would make a total weight of at least F(48) (R150). -/
theorem Shallow.depth_le_max {n : Nat} {freq : Table Nat NSYM} {old : NodeStore} {t : Table Nat NNODE} (hn : n < 2 ^ 32)
    (htally : Tallied n freq) (ht : Shallow (n + 1) (leaves freq old) t) {j : Nat} (hj : j ∈ live (leaves freq old)) :
    depth t j ≤ L_MAX := by
  have hforest : Forest (n + 1) (leaves freq old) := htally.total ▸ forest_leaves freq old
  by_contra hge
  have hge : 46 ≤ depth t j := Nat.not_le.1 hge
  by_cases hempty : n = 0
  · have hfib := ht.fib_le hforest hj
    have hmono : Nat.fib 46 ≤ Nat.fib (depth t j) := Nat.fib_mono hge
    have h46 : Nat.fib 46 = 1836311903 := by norm_num
    omega
  · have hleaves : leaves freq old = tbInit freq old :=
      tbPlaceholder_of_ne (mt (card_live_tbInit_eq_one_iff htally old).1 hempty)
    have hpos : ∀ k ∈ live (leaves freq old), 1 ≤ weight (leaves freq old) k := fun k hk => by
      rw [hleaves] at hk ⊢
      rw [tbInit_weight (mem_live.1 hk).1, if_pos (mem_live_tbInit.1 hk)]
      exact mem_live_tbInit.1 hk
    have hlight := ht.light j hj 1 fun k hk _ => hpos k hk
    have hmul := Nat.le_mul_of_pos_right (Nat.fib (depth t j + 1)) (hpos j hj)
    have hmono : Nat.fib 48 ≤ Nat.fib (depth t j + 2) := Nat.fib_mono (by omega)
    have hadd : Nat.fib (depth t j + 2) = Nat.fib (depth t j) + Nat.fib (depth t j + 1) := Nat.fib_add_two
    have h48 : Nat.fib 48 = 4807526976 := by norm_num
    omega

/-- The depths of the leaves of an input's tree, no deeper than 45 and taking the whole code space (R143, R150). -/
structure LeafDepths (freq : Table Nat NSYM) (old : NodeStore) (t : Table Nat NNODE) : Prop where
  le_max : ∀ j ∈ live (leaves freq old), depth t j ≤ L_MAX
  pos : ∀ j ∈ live (leaves freq old), 0 < depth t j
  complete : ∑ j ∈ live (leaves freq old), 2 ^ (L_MAX - depth t j) = 2 ^ L_MAX

theorem leafDepths_of_built {n : Nat} {freq : Table Nat NSYM} {old e : NodeStore} (hn : n < 2 ^ 32)
    (htally : Tallied n freq) (he : tbMergeLoop NNODE (leaves freq old) = .ok e) :
    LeafDepths freq old (depthsDownTo e NODE_BASE).ndepth := by
  have heos : 0 < Table.get freq EOS 0 := by rw [htally.eos]; exact Nat.one_pos
  have hshallow := leaves_unmerge (fun _ => Shallow.root) (fun _ _ _ _ _ hd hm ht => ht.unmerge hd hm.toMerges) heos he
  have hcomplete := leaves_unmerge (fun _ => Complete.root) (fun _ _ _ _ _ hd hm ht => ht.unmerge hd hm.toMerges)
    heos he
  rw [htally.total] at hshallow
  have hmax := fun j => hshallow.depth_le_max (j := j) hn htally
  exact ⟨hmax, fun j hj => hcomplete.depth_pos (card_live_leaves_le heos).1 hmax hj, hcomplete L_MAX hmax⟩

/-! ### The longest code -/

/-- A frequency table that reaches the bound (R150, vector V9 of spec/95_test_vectors.md). -/
def longestCounts (i : Nat) : Nat :=
  if i = EOS then 1
  else [1, 1, 3, 4, 7, 11, 18, 29, 47, 76, 123, 199, 322, 521, 843, 1364, 2207, 3571, 5778, 9349, 15127, 24476, 39603,
    64079, 103682, 167761, 271443, 439204, 710647, 1149851, 1860498, 3010349, 4870847, 7881196, 12752043, 20633239,
    33385282, 54018521, 87403803, 141422324, 228826127, 370248451, 599074578, 969323029, 1568397607].getD i 0

theorem sum_longestCounts : ((List.range NSYM).map longestCounts).sum = 4106118242 := by decide +kernel

theorem huffmanLength_longestCounts : huffmanLength longestCounts 0 = 45 := by decide +kernel

/-- Settles O43: the weights bound the depths of every built tree, and one frequency table reaches the bound. -/
theorem longestCodeIsFortyFiveBits : Obligations.LongestCodeIsFortyFiveBits := by
  unfold Obligations.LongestCodeIsFortyFiveBits
  refine ⟨fun s hb hlen => ?_, longestCounts, rfl, sum_longestCounts, huffmanLength_longestCounts⟩
  obtain ⟨t, ht, hcounts, old, e, he, hlengths⟩ := exec_compress_lengths hb hlen
  have hdepths := leafDepths_of_built (length_inputBytes s ▸ s.ilen.isLt) hcounts.tally he
  refine ⟨t, ht, fun i hi => ?_⟩
  rw [hlengths, tbLen_get hi]
  split
  · next hpos => exact hdepths.le_max i (live_subset_tbPlaceholder _ (mem_live_tbInit.2 hpos))
  · exact Nat.zero_le _

/-! ### The Kraft sum -/

/-- The Kraft sum of the encoder's lengths is the code space of the leaves of symbols (R143). -/
theorem kraftSum_tbLen {freq : Table Nat NSYM} {old : NodeStore} {t : Table Nat NNODE} (h : LeafDepths freq old t) :
    kraftSum (tbLen freq t) = ∑ j ∈ live (tbInit freq old), 2 ^ (L_MAX - depth t j) := by
  have hsub : live (tbInit freq old) ⊆ Finset.range NSYM := fun i hi =>
    Finset.mem_range.2 (lt_of_get_pos (mem_live_tbInit.1 hi))
  rw [kraftSum_eq_sum, ← Finset.sum_subset hsub fun i hi hnot => ?_]
  · refine Finset.sum_congr rfl fun i hi => ?_
    have hpos := h.pos i (live_subset_tbPlaceholder _ hi)
    rw [tbLen_get (Finset.mem_range.1 (hsub hi)), if_pos (mem_live_tbInit.1 hi), if_pos hpos]
  · rw [mem_live_tbInit] at hnot
    rw [tbLen_get (Finset.mem_range.1 hi), if_neg hnot, if_neg (lt_irrefl 0)]

/-- The code of a non-empty input is complete; that of the empty one leaves the placeholder's half free (R143). -/
theorem kraftSum_of_leafDepths {n : Nat} {freq : Table Nat NSYM} {old : NodeStore} {t : Table Nat NNODE}
    (htally : Tallied n freq) (h : LeafDepths freq old t) :
    kraftSum (tbLen freq t) = if n = 0 then 2 ^ 44 else 2 ^ 45 := by
  rw [kraftSum_tbLen h]
  have hwhole := h.complete
  by_cases hempty : n = 0
  · rw [if_pos hempty]
    have hcard := (card_live_tbInit_eq_one_iff htally old).2 hempty
    have hnot : PH ∉ live (tbInit freq old) := fun hPH => absurd (lt_of_get_pos (mem_live_tbInit.1 hPH)) (by decide)
    have hlive : live (leaves freq old) = insert PH (live (tbInit freq old)) := (tbPlaceholder_of_card hcard).1
    obtain ⟨r, hr⟩ := Finset.card_eq_one.1 hcard
    have hhalf : ∀ j ∈ live (leaves freq old), 2 ^ (L_MAX - depth t j) ≤ 2 ^ 44 := fun j hj => by
      have hpos := h.pos j hj
      exact Nat.pow_le_pow_right Nat.two_pos (by show 45 - _ ≤ 44; omega)
    have hPH := hhalf PH (by rw [hlive]; exact Finset.mem_insert_self _ _)
    have hsym := hhalf r (by rw [hlive, hr]; simp)
    rw [hlive, Finset.sum_insert hnot, hr, Finset.sum_singleton] at hwhole
    rw [hr, Finset.sum_singleton]
    have hmax : 2 ^ L_MAX = 2 ^ 44 + 2 ^ 44 := by decide
    omega
  · rw [if_neg hempty]
    rwa [leaves, tbPlaceholder_of_ne (mt (card_live_tbInit_eq_one_iff htally old).1 hempty)] at hwhole

/-- Settles O44: the leaves take the whole code space, of which only the placeholder's part is not coded. -/
theorem encoderKraftSum : Obligations.EncoderKraftSum := by
  unfold Obligations.EncoderKraftSum
  intro s hb hlen
  obtain ⟨t, ht, hcounts, old, e, he, hlengths⟩ := exec_compress_lengths hb hlen
  refine ⟨t, ht, ?_⟩
  rw [hlengths, ← length_inputBytes]
  exact kraftSum_of_leafDepths hcounts.tally (leafDepths_of_built (length_inputBytes s ▸ s.ilen.isLt) hcounts.tally he)

end Sys2Proof.Safety
end

section
/-! PROOFS. Walks in the decode-tree store, and what CC_TREE's elementary step does to them
(spec/42_container_codec.md R172, R173): it fills one free entry of a record with a leaf, or with an edge to a new
record. In a store without sharing this adds one walk and leaves all others as they are. -/

namespace Sys2Proof.Safety

open Sys2Proof.Machine

/-! ### Walking the store -/

/-- DCH[n][b] (R34), where there is a record n. -/
def childAt (d : DecodeStore) (n : Nat) (b : Bool) : Option DEntry := (d.dch[n]?).map (fun r => r.child b)

/-- The record the edge of bit `b` leads to. -/
def follow (d : DecodeStore) (n : Option Nat) (b : Bool) : Option Nat :=
  match n.bind (fun k => childAt d k b) with
  | some (.node m) => some m
  | _ => none

/-- The record the bits lead to from the root (R173). -/
def recordAt (d : DecodeStore) (p : List Bool) : Option Nat := p.foldl (follow d) (some 0)

theorem follow_eq_some {d : DecodeStore} {n : Option Nat} {b : Bool} {m : Nat} :
    follow d n b = some m ↔ n.bind (fun k => childAt d k b) = some (.node m) := by
  unfold follow
  split
  · next m' h => simp [h]
  · next h => simpa using fun hm => h m hm

@[simp] theorem follow_none (d : DecodeStore) (b : Bool) : follow d none b = none := rfl

theorem foldl_follow_none (d : DecodeStore) (p : List Bool) : p.foldl (follow d) none = none := by
  induction p with
  | nil => rfl
  | cons b p ih => exact ih

@[simp] theorem recordAt_nil (d : DecodeStore) : recordAt d [] = some 0 := rfl

theorem recordAt_snoc {d : DecodeStore} {p : List Bool} {b : Bool} {m : Nat} :
    recordAt d (p ++ [b]) = some m ↔ ∃ n, recordAt d p = some n ∧ childAt d n b = some (.node m) := by
  rw [recordAt, List.foldl_append, List.foldl_cons, List.foldl_nil, follow_eq_some, Option.bind_eq_some_iff]
  rfl

/-- The last bit of a walk reads the entry of the record the others lead to. -/
theorem treeEntry_append_singleton (d : DecodeStore) (n : Nat) (p : List Bool) (b : Bool) :
    treeEntry d n (p ++ [b]) = (p.foldl (follow d) (some n)).bind (fun k => childAt d k b) := by
  induction p generalizing n with
  | nil => rfl
  | cons c p ih =>
    obtain ⟨c', q, hq⟩ : ∃ c' q, p ++ [b] = c' :: q := by cases p <;> simp
    have hstep : treeEntry d n (c :: p ++ [b]) =
        (follow d (some n) c).bind (fun m => treeEntry d m (p ++ [b])) := by
      rw [List.cons_append, hq, treeEntry, follow, Option.bind_some, childAt]
      cases d.dch[n]? with
      | none => rfl
      | some r => cases hr : r.child c <;> simp [hr]
    rw [hstep, List.foldl_cons]
    cases follow d (some n) c with
    | none => rw [foldl_follow_none]; rfl
    | some m => exact ih m

theorem treeEntry_snoc {d : DecodeStore} {p : List Bool} {b : Bool} {e : DEntry} :
    treeEntry d 0 (p ++ [b]) = some e ↔ ∃ n, recordAt d p = some n ∧ childAt d n b = some e := by
  rw [treeEntry_append_singleton, Option.bind_eq_some_iff]
  rfl

/-- A walk of a bit or more leads to a record when its entry is a node. -/
theorem treeEntry_eq_node {d : DecodeStore} {p : List Bool} (hp : p ≠ []) {m : Nat} :
    treeEntry d 0 p = some (.node m) ↔ recordAt d p = some m := by
  rw [← List.dropLast_concat_getLast hp, treeEntry_snoc, recordAt_snoc]

/-! ### A store that is a tree -/

/-- The store is a tree: no record is reached in two ways (R172). -/
structure TreeShaped (d : DecodeStore) : Prop where
  linked : Linked d
  root : 0 < d.dch.length
  unshared : ∀ p q n, recordAt d p = some n → recordAt d q = some n → p = q

theorem childAt_isSome {d : DecodeStore} {n : Nat} (hn : n < d.dch.length) (b : Bool) :
    ∃ e, childAt d n b = some e := by simp [childAt, hn]

theorem lt_of_childAt {d : DecodeStore} {n : Nat} {b : Bool} {e : DEntry} (h : childAt d n b = some e) :
    n < d.dch.length := by
  obtain ⟨r, hr, -⟩ := Option.map_eq_some_iff.1 h
  exact (List.getElem?_eq_some_iff.1 hr).1

theorem TreeShaped.recordAt_lt {d : DecodeStore} (h : TreeShaped d) {p : List Bool} {n : Nat}
    (hp : recordAt d p = some n) : n < d.dch.length := by
  rcases List.eq_nil_or_concat' p with rfl | ⟨p, b, rfl⟩
  · injection hp with hp
    exact hp ▸ h.root
  · obtain ⟨k, -, hk⟩ := recordAt_snoc.1 hp
    obtain ⟨r, hr, hm⟩ := Option.map_eq_some_iff.1 hk
    exact (h.linked.edge k r b n hr hm).2

theorem childAt_root {c n : Nat} {b : Bool} {e : DEntry} (h : childAt ⟨[⟨.none, .none⟩], 1, c⟩ n b = some e) :
    e = .none := by
  obtain ⟨r, hr, rfl⟩ := Option.map_eq_some_iff.1 h
  obtain rfl : r = ⟨.none, .none⟩ := by simpa using List.mem_of_getElem? hr
  cases b <;> rfl

theorem recordAt_root {c n : Nat} {p : List Bool} (h : recordAt ⟨[⟨.none, .none⟩], 1, c⟩ p = some n) : p = [] := by
  rcases List.eq_nil_or_concat' p with rfl | ⟨y, b, rfl⟩
  · rfl
  · obtain ⟨k, -, hk⟩ := recordAt_snoc.1 h
    cases childAt_root hk

/-- The root alone is a tree. -/
theorem treeShaped_root (c : Nat) : TreeShaped ⟨[⟨.none, .none⟩], 1, c⟩ :=
  ⟨linked_root c, Nat.one_pos, fun _ _ _ hp hq => (recordAt_root hp).trans (recordAt_root hq).symm⟩

/-- `d'` is `d` with the free entry `b` of record `n` filled by `e`; a record that is new has no children. -/
structure Filled (d d' : DecodeStore) (n : Nat) (b : Bool) (e : DEntry) : Prop where
  linked : Linked d'
  grown : d.dch.length ≤ d'.dch.length
  free : childAt d n b = some .none
  here : childAt d' n b = some e
  old : ∀ k c, k < d.dch.length → ¬ (k = n ∧ c = b) → childAt d' k c = childAt d k c
  new : ∀ k c f, d.dch.length ≤ k → childAt d' k c = some f → f = .none
  target : ∀ m, e = .node m → d.dch.length ≤ m

section
variable {d d' : DecodeStore} {n : Nat} {b : Bool} {e : DEntry} {x : List Bool}

theorem childAt_setChild (hn : n < d.dch.length) (k : Nat) (c : Bool) :
    childAt (d.setChild n b e) k c = if k = n ∧ c = b then some e else childAt d k c := by
  by_cases hk : n = k
  · subst hk
    have hr := List.getElem?_eq_getElem hn
    rw [childAt, getElem?_setChild_self b e hr, childAt, hr]
    by_cases hc : b = c
    · subst hc; simp
    · simp [DRecord.child_setChild_ne _ _ hc, Ne.symm hc]
  · rw [childAt, getElem?_setChild_ne b e hk, if_neg (fun h => hk h.1.symm), childAt]

theorem childAt_alloc_of_lt (hd : Linked d) {k : Nat} (hk : k < d.dch.length) (c : Bool) :
    childAt d.alloc k c = childAt d k c := by rw [childAt, hd.getElem?_alloc hk, childAt]

theorem childAt_alloc_of_le (hd : Linked d) {k : Nat} (hk : d.dch.length ≤ k) {c : Bool} {f : DEntry}
    (h : childAt d.alloc k c = some f) : f = .none := by
  obtain ⟨r, hr, rfl⟩ := Option.map_eq_some_iff.1 h
  rw [hd.dch_alloc, List.getElem?_append_right hk] at hr
  obtain rfl : r = ⟨.none, .none⟩ := by simpa using List.mem_of_getElem? hr
  cases c <;> rfl

/-- The last step of CC_TREE's walk: the free entry becomes a leaf (R172). -/
theorem filled_leaf (hd : Linked d) (hfree : childAt d n b = some .none) (sym : Nat) :
    Filled d (d.setChild n b (.leaf sym)) n b (.leaf sym) := by
  have hn := lt_of_childAt hfree
  refine ⟨hd.setChild nofun, (length_setChild ..).ge, hfree, ?_, fun k c _ hkc => ?_,
    fun k c f hk hf => ?_, nofun⟩
  · simp [childAt_setChild hn]
  · rw [childAt_setChild hn, if_neg hkc]
  · have := lt_of_childAt hf
    rw [length_setChild] at this
    omega

/-- The step of CC_TREE's walk where an edge is missing: the free entry becomes an edge to a new record (R172). -/
theorem filled_node (hd : Linked d) (hfree : childAt d n b = some .none) :
    Filled d (d.alloc.setChild n b (.node d.dnext)) n b (.node d.dnext) := by
  have hn := lt_of_childAt hfree
  have hn' : n < d.alloc.dch.length := by rw [hd.length_alloc]; omega
  refine ⟨hd.grow b hn, ?_, hfree, ?_, fun k c hk hkc => ?_, fun k c f hk hf => ?_, fun m hm => ?_⟩
  · rw [length_setChild, hd.length_alloc]; omega
  · simp [childAt_setChild hn']
  · rw [childAt_setChild hn', if_neg hkc, childAt_alloc_of_lt hd hk]
  · rw [childAt_setChild hn', if_neg (fun h => by omega)] at hf
    exact childAt_alloc_of_le hd hk hf
  · injection hm with hm
    exact hm ▸ hd.count.ge

variable (hd : TreeShaped d) (h : Filled d d' n b e) (hx : recordAt d x = some n)
include hd h hx

/-- The entries of a reached record, before and after an entry is filled. -/
theorem Filled.childAt_iff {y : List Bool} {k : Nat} (hy : recordAt d y = some k) (c : Bool) {f : DEntry}
    (hf : f ≠ .none) :
    childAt d' k c = some f ↔ childAt d k c = some f ∨ (y ++ [c] = x ++ [b] ∧ e = f) := by
  by_cases hkc : k = n ∧ c = b
  · obtain ⟨rfl, rfl⟩ := hkc
    have hyx : y = x := hd.unshared _ _ _ hy hx
    simp [h.free, h.here, hyx, hf.symm]
  · have hne : y ++ [c] ≠ x ++ [b] := fun heq => by
      obtain ⟨rfl, hcb⟩ := List.append_inj' heq rfl
      rw [hx] at hy
      exact hkc ⟨by injection hy with hy; exact hy.symm, by simpa using hcb⟩
    simp [h.old k c (hd.recordAt_lt hy) hkc, hne]

/-- The entries the bits lead to by a last step from the record behind the others, after an entry is filled. -/
theorem Filled.treeEntry_snoc_iff {y : List Bool} {c : Bool} {f : DEntry} (hf : f ≠ .none)
    (hrec : ∀ k, recordAt d' y = some k ↔ recordAt d y = some k ∨ (y = x ++ [b] ∧ e = .node k)) :
    treeEntry d' 0 (y ++ [c]) = some f ↔ treeEntry d 0 (y ++ [c]) = some f ∨ (y ++ [c] = x ++ [b] ∧ e = f) := by
  rw [treeEntry_snoc, treeEntry_snoc]
  constructor
  · rintro ⟨k, hk, hm⟩
    rcases (hrec k).1 hk with hk | ⟨-, he⟩
    · exact ((h.childAt_iff hd hx hk c hf).1 hm).imp_left fun hm => ⟨k, hk, hm⟩
    · exact absurd (h.new k c f (h.target k he) hm) hf
  · rintro (⟨k, hk, hm⟩ | ⟨hp, he⟩)
    · exact ⟨k, (hrec k).2 (.inl hk), (h.childAt_iff hd hx hk c hf).2 (.inl hm)⟩
    · obtain ⟨rfl, -⟩ := List.append_inj' hp rfl
      exact ⟨n, (hrec n).2 (.inl hx), (h.childAt_iff hd hx hx c hf).2 (.inr ⟨hp, he⟩)⟩

/-- The records the bits lead to, after an entry is filled. -/
theorem Filled.recordAt_iff (p : List Bool) (m : Nat) :
    recordAt d' p = some m ↔ recordAt d p = some m ∨ (p = x ++ [b] ∧ e = .node m) := by
  induction p using List.reverseRecOn generalizing m with
  | nil => simp
  | append_singleton y c ih =>
    rw [← treeEntry_eq_node (by simp), ← treeEntry_eq_node (by simp)]
    exact h.treeEntry_snoc_iff hd hx nofun ih

/-- The leaves the bits lead to, after an entry is filled. -/
theorem Filled.leaf_iff (p : List Bool) (i : Nat) :
    treeEntry d' 0 p = some (.leaf i) ↔ treeEntry d 0 p = some (.leaf i) ∨ (p = x ++ [b] ∧ e = .leaf i) := by
  rcases List.eq_nil_or_concat' p with rfl | ⟨y, c, rfl⟩
  · simp [treeEntry]
  · exact h.treeEntry_snoc_iff hd hx nofun (h.recordAt_iff hd hx y)

/-- Filling a free entry keeps the tree: the record behind it, if there is one, is new. -/
theorem Filled.treeShaped : TreeShaped d' := by
  refine ⟨h.linked, hd.root.trans_le h.grown, fun p q k hp hq => ?_⟩
  rcases (h.recordAt_iff hd hx p k).1 hp with hp | ⟨hp, he⟩ <;>
    rcases (h.recordAt_iff hd hx q k).1 hq with hq | ⟨hq, he'⟩
  · exact hd.unshared p q k hp hq
  · exact absurd (hd.recordAt_lt hp) (h.target k he').not_gt
  · exact absurd (hd.recordAt_lt hq) (h.target k he).not_gt
  · rw [hp, hq]

end

end Sys2Proof.Safety
end

section
/-! PROOFS. CC_TREE on canonical codes (spec/42_container_codec.md R172, R173, R175): O50. As long as no code begins
another, each insertion finds its last entry free; the tree then has its leaves at the codes and its records at their
proper beginnings. -/

namespace Sys2Proof.Safety

open Sys2Proof.Machine

/-! ### The codes a tree holds -/

/-- The tree holds the codes `cs` while CC_TREE's walk stands behind the bits `x` of a further one (R172, R173): the
leaves stand at the codes, and the records at the root, along the walk and at the proper prefixes of the codes. -/
structure Holds (d : DecodeStore) (x : List Bool) (cs : List (Nat × List Bool)) : Prop where
  tree : TreeShaped d
  records : ∀ p, (∃ n, recordAt d p = some n) ↔ p <+: x ∨ ∃ e ∈ cs, p <+: e.2 ∧ p ≠ e.2
  leaves : ∀ p i, treeEntry d 0 p = some (.leaf i) ↔ (i, p) ∈ cs

/-- The root alone holds no code. -/
theorem holds_root (c : Nat) : Holds ⟨[⟨.none, .none⟩], 1, c⟩ [] [] := by
  refine ⟨treeShaped_root c, fun p => ?_, fun p i => ?_⟩
  · constructor
    · rintro ⟨n, hn⟩
      simp [recordAt_root hn]
    · intro hp
      obtain rfl : p = [] := by simpa using hp
      exact ⟨0, rfl⟩
  · rcases List.eq_nil_or_concat' p with rfl | ⟨y, b, rfl⟩
    · simp [treeEntry]
    · rw [treeEntry_snoc]
      refine ⟨fun ⟨n, _, hi⟩ => ?_, nofun⟩
      cases childAt_root hi

theorem prefix_iff_proper_prefix_concat {p x : List Bool} {b : Bool} : p <+: x ↔ p <+: x ++ [b] ∧ p ≠ x ++ [b] := by
  rw [List.prefix_concat_iff]
  constructor
  · intro hp
    refine ⟨.inr hp, ?_⟩
    rintro rfl
    simpa using hp.length_le
  · exact fun ⟨hp, hne⟩ => hp.resolve_left hne

section
variable {d : DecodeStore} {x : List Bool} {cs : List (Nat × List Bool)} {n : Nat} {b : Bool} (h : Holds d x cs)
  (hx : recordAt d x = some n)
include h hx

/-- The walk goes on along an edge. -/
theorem Holds.along {m : Nat} (hm : childAt d n b = some (.node m)) : Holds d (x ++ [b]) cs := by
  refine ⟨h.tree, fun p => (h.records p).trans ?_, h.leaves⟩
  constructor
  · exact Or.imp_left fun hp => hp.trans (List.prefix_append x [b])
  · rintro (hp | hp)
    · rcases List.prefix_concat_iff.1 hp with rfl | hp
      · exact (h.records _).1 ⟨m, recordAt_snoc.2 ⟨n, hx, hm⟩⟩
      · exact .inl hp
    · exact .inr hp

/-- The walk goes on along an edge made for it. -/
theorem Holds.grow (hfree : childAt d n b = some .none) :
    Holds (d.alloc.setChild n b (.node d.dnext)) (x ++ [b]) cs := by
  have hfill := filled_node h.tree.linked hfree
  refine ⟨hfill.treeShaped h.tree hx, fun p => ?_, fun p i => ?_⟩
  · have hrec : (∃ m, recordAt (d.alloc.setChild n b (.node d.dnext)) p = some m) ↔
        (∃ m, recordAt d p = some m) ∨ p = x ++ [b] := by
      simp [hfill.recordAt_iff h.tree hx, exists_or]
    rw [hrec, h.records p, List.prefix_concat_iff, or_right_comm, or_comm (a := p <+: x)]
  · rw [hfill.leaf_iff h.tree hx, h.leaves]
    simp

/-- The walk ends in a leaf made for the code (R172). -/
theorem Holds.leaf (hfree : childAt d n b = some .none) (sym : Nat) :
    Holds (d.setChild n b (.leaf sym)) [] (cs ++ [(sym, x ++ [b])]) := by
  have hfill := filled_leaf h.tree.linked hfree sym
  refine ⟨hfill.treeShaped h.tree hx, fun p => ?_, fun p i => ?_⟩
  · have hrec : (∃ m, recordAt (d.setChild n b (.leaf sym)) p = some m) ↔ ∃ m, recordAt d p = some m := by
      simp [hfill.recordAt_iff h.tree hx]
    have hnil : p <+: [] → p <+: x := fun hp => hp.trans List.nil_prefix
    simp only [hrec, h.records p, List.mem_append, List.mem_singleton, or_and_right, exists_or, exists_eq_left,
      ← prefix_iff_proper_prefix_concat, or_comm (a := p <+: x)]
    exact (or_iff_right_of_imp fun hp => .inr (hnil hp)).symm
  · rw [hfill.leaf_iff h.tree hx, h.leaves]
    simp [eq_comm, and_comm]

end

/-- Neither of two codes begins the other (R147). -/
def Apart (p q : List Bool) : Prop := ¬ p <+: q ∧ ¬ q <+: p

/-- The insertion of a code that is apart from those held succeeds, and the tree then holds it too (R172, R173). -/
theorem ccInsert_holds {sym : Nat} {bits x : List Bool} {cs : List (Nat × List Bool)} {n : Nat} {d : DecodeStore}
    (h : Holds d x cs) (hx : recordAt d x = some n) (hbits : bits ≠ []) (hap : ∀ e ∈ cs, Apart e.2 (x ++ bits)) :
    ∃ d', ccInsert sym bits n d = .ok d' ∧ Holds d' [] (cs ++ [(sym, x ++ bits)]) := by
  induction bits generalizing x n d with
  | nil => exact absurd rfl hbits
  | cons b bs ih =>
    have hn := h.tree.recordAt_lt hx
    have hleaf : ∀ i, childAt d n b ≠ some (.leaf i) := fun i hi => by
      have hmem := (h.leaves (x ++ [b]) i).1 (treeEntry_snoc.2 ⟨n, hx, hi⟩)
      exact (hap _ hmem).1 ⟨bs, by simp⟩
    obtain ⟨e, he⟩ := childAt_isSome hn b
    cases bs with
    | nil =>
      have hfree : childAt d n b = some .none := by
        cases e with
        | none => exact he
        | leaf i => exact absurd he (hleaf i)
        | node m =>
          exfalso
          rcases (h.records (x ++ [b])).1 ⟨m, recordAt_snoc.2 ⟨n, hx, he⟩⟩ with hp | ⟨e, hmem, hp, -⟩
          · simpa using hp.length_le
          · exact (hap e hmem).2 hp
      exact ⟨_, by simp [ccInsert, hn], h.leaf hx hfree sym⟩
    | cons b' bs =>
      rw [List.append_cons x] at hap ⊢
      obtain ⟨r, hr, hchild⟩ := Option.map_eq_some_iff.1 he
      cases e with
      | none =>
        have hstep := (filled_node h.tree.linked he).recordAt_iff h.tree hx (x ++ [b]) d.dnext
        obtain ⟨d', hd', hholds⟩ := ih (h.grow hx he) (hstep.2 (.inr ⟨rfl, rfl⟩)) (by simp) hap
        exact ⟨d', by simpa [ccInsert, hr, hchild] using hd', hholds⟩
      | leaf i => exact absurd he (hleaf i)
      | node m =>
        obtain ⟨d', hd', hholds⟩ := ih (h.along hx he) (recordAt_snoc.2 ⟨n, hx, he⟩) (by simp) hap
        exact ⟨d', by simpa [ccInsert, hr, hchild] using hd', hholds⟩

/-! ### CC_TREE on the canonical codes -/

/-- The code of each entry under a code table. -/
def codesOf (code : Table CodeWord NSYM) (es : List (Nat × Nat)) : List (Nat × List Bool) :=
  es.map (fun e => (e.1, codeBits (Table.get code e.1 0) e.2))

/-- Insertions of codes that are apart from each other succeed, and the tree then holds them all. -/
theorem ccInsertAll_holds {code : Table CodeWord NSYM} {es : List (Nat × Nat)} {cs : List (Nat × List Bool)}
    {d : DecodeStore} (h : Holds d [] cs) (hpos : ∀ e ∈ es, 0 < e.2)
    (hap : (cs ++ codesOf code es).Pairwise (fun e f => Apart e.2 f.2)) :
    ∃ d', ccInsertAll code es d = .ok d' ∧ Holds d' [] (cs ++ codesOf code es) := by
  induction es generalizing cs d with
  | nil => exact ⟨d, rfl, by simpa [codesOf] using h⟩
  | cons e es ih =>
    rw [codesOf, List.map_cons, ← codesOf] at hap ⊢
    have hbits : codeBits (Table.get code e.1 0) e.2 ≠ [] := by
      rw [← List.length_pos_iff, length_codeBits]
      exact hpos e List.mem_cons_self
    obtain ⟨-, -, hheld⟩ := List.pairwise_append.1 hap
    obtain ⟨d', hd', h'⟩ := ccInsert_holds (sym := e.1) h (recordAt_nil d) hbits
      fun f hf => hheld f hf _ List.mem_cons_self
    rw [List.nil_append] at h'
    rw [List.append_cons] at hap ⊢
    obtain ⟨d'', hd'', h''⟩ := ih h' (fun f hf => hpos f (List.mem_cons_of_mem _ hf)) hap
    exact ⟨d'', by rw [ccInsertAll, hd']; exact hd'', h''⟩

section
variable {s : State} (h : CanonPrecondition s.len)
include h

theorem codeOf_canon_eq_canonicalCode {i : Nat} (hi : i < NSYM) (hpos : 0 < Table.get s.len i 0) :
    codeOf s.len (canon s).code i = canonicalCode (lengths s.len) i := by
  rw [codeOf_canon h hi, canon_code_toNat h hi hpos, ← canonicalValue_eq]
  rfl

/-- The codes CC_TREE inserts are the canonical codes of the coded symbols. -/
theorem mem_codesOf_canon {i : Nat} {p : List Bool} :
    (i, p) ∈ codesOf (canon s).code (canonicalOrder s.len) ↔
      i < NSYM ∧ 0 < lengths s.len i ∧ canonicalCode (lengths s.len) i = p := by
  simp only [codesOf, List.mem_map, Prod.mk.injEq, Prod.exists, mem_canonicalOrder]
  constructor
  · rintro ⟨i, l, ⟨hi, rfl, hpos, -⟩, rfl, rfl⟩
    exact ⟨hi, hpos, (codeOf_canon_eq_canonicalCode h hi hpos).symm⟩
  · rintro ⟨hi, hpos, rfl⟩
    exact ⟨i, _, ⟨hi, rfl, hpos, h.1 i hi⟩, rfl, codeOf_canon_eq_canonicalCode h hi hpos⟩

theorem codesOf_canon_apart :
    (codesOf (canon s).code (canonicalOrder s.len)).Pairwise (fun e f => Apart e.2 f.2) := by
  refine List.pairwise_map.2 ((List.pairwise_map.1 (canonicalOrder_nodup s.len)).imp_of_mem fun {e f} he hf hne => ?_)
  obtain ⟨he, hel, he0, -⟩ := bounds_of_mem_canonicalOrder he
  obtain ⟨hf, hfl, hf0, -⟩ := bounds_of_mem_canonicalOrder hf
  rw [hel] at he0 ⊢
  rw [hfl] at hf0 ⊢
  exact ⟨canon_not_prefix h he hf he0 hf0 hne, canon_not_prefix h hf he hf0 he0 hne.symm⟩

/-- CC_TREE on canonical codes succeeds, and its tree holds those codes (R172, R173). -/
theorem ccTree_canon : ∃ d, ccTree (canon s) = .ok { canon s with dec := d } ∧
    Holds d [] (codesOf (canon s).code (canonicalOrder s.len)) := by
  have hpos : ∀ e ∈ canonicalOrder s.len, 0 < e.2 := fun e he => by
    obtain ⟨-, -, hpos, -⟩ := bounds_of_mem_canonicalOrder he
    exact hpos
  obtain ⟨d, hd, hholds⟩ := ccInsertAll_holds (code := (canon s).code) (cs := []) (holds_root s.dec.dcur) hpos
    (codesOf_canon_apart h)
  refine ⟨d, ?_, hholds⟩
  have hd' : ccInsertAll (canon s).code (canonicalOrder (canon s).len)
      { (canon s).dec with dch := [⟨.none, .none⟩], dnext := 1 } = .ok d := hd
  rw [ccTree, hd']

end

/-- Settles O50: the insertions succeed, the codes following each other keep the tree small. -/
theorem decodeTreeFitsItsStore : Obligations.DecodeTreeFitsItsStore := by
  unfold Obligations.DecodeTreeFitsItsStore
  intro s h
  obtain ⟨d, hd, -⟩ := ccTree_canon h
  have hspace : codeSpace (canonicalOrder s.len) ≤ 2 ^ L_MAX := (codeSpace_le_kraftSum s.len).trans h.2
  obtain ⟨d', heq, hlinked, hsize, -⟩ := ccTree_fits (s := canon s) (code := s.code) hspace rfl hd
  rw [heq] at hd
  exact ⟨_, hd, hlinked.count ▸ hsize, hlinked.count.symm⟩

end Sys2Proof.Safety
end

section
/-! PROOFS. The decode tree answers the three-way test (spec/42_container_codec.md R173, R176): O49. Both sides are
said in terms of the canonical codes: the test by what a code is or begins with, the tree by where its leaves and
records stand. -/

namespace Sys2Proof.Safety

open Sys2Proof.Machine

/-! ### The three-way test -/

@[simp] theorem length_canonicalCode (len : Nat → Nat) (i : Nat) : (canonicalCode len i).length = len i :=
  length_bitString _ _

/-- The bits `p` begin `q` and are not all of it, as the test asks for it (R176). -/
theorem length_lt_and_take_eq {p q : List Bool} : p.length < q.length ∧ q.take p.length = p ↔ p <+: q ∧ p ≠ q := by
  rw [List.prefix_iff_eq_take, eq_comm (a := p), and_comm]
  refine and_congr_right fun htake => ?_
  constructor
  · rintro hlt rfl
    exact lt_irrefl _ hlt
  · refine fun hne => lt_of_not_ge fun hle => hne ?_
    rw [← htake, List.take_of_length_le hle]

theorem length_pos_of_proper_prefix {p q : List Bool} (h : p <+: q ∧ p ≠ q) : 0 < q.length :=
  (Nat.zero_le _).trans_lt (length_lt_and_take_eq.2 h).1

section
variable {len : Nat → Nat} (hfree : PrefixFree len (canonicalCode len)) (p : List Bool)
include hfree

/-- The test answers a symbol exactly for the symbol's code (R176). -/
theorem readingOf_eq_symbol (i : Nat) :
    readingOf len p = .symbol i ↔ i < NSYM ∧ 0 < len i ∧ canonicalCode len i = p := by
  unfold readingOf
  split
  · next r hr =>
    have hmem := List.mem_range.1 (List.mem_of_find?_eq_some hr)
    obtain ⟨hr0, hrp⟩ : 0 < len r ∧ canonicalCode len r = p := by simpa using List.find?_some hr
    rw [Reading.symbol.injEq]
    constructor
    · rintro rfl
      exact ⟨hmem, hr0, hrp⟩
    · rintro ⟨hi, hi0, hip⟩
      by_contra hne
      exact hfree r i hmem hi hr0 hi0 hne (by rw [hrp, hip])
  · next hnone =>
    have hno : ¬ (i < NSYM ∧ 0 < len i ∧ canonicalCode len i = p) := fun ⟨hi, hi0, hip⟩ => by
      simpa [hi0, hip] using List.find?_eq_none.1 hnone i (List.mem_range.2 hi)
    simp only [hno, iff_false]
    split <;> nofun

/-- The test answers `within` exactly for the proper prefixes of codes (R176). -/
theorem readingOf_eq_within :
    readingOf len p = .within ↔ ∃ i, i < NSYM ∧ 0 < len i ∧ p <+: canonicalCode len i ∧ p ≠ canonicalCode len i := by
  have hany : (List.range NSYM).any (fun s => decide (p.length < len s) && (canonicalCode len s).take p.length == p) =
      true ↔ ∃ i, i < NSYM ∧ 0 < len i ∧ p <+: canonicalCode len i ∧ p ≠ canonicalCode len i := by
    simp only [List.any_eq_true, List.mem_range, Bool.and_eq_true, decide_eq_true_eq, beq_iff_eq,
      ← length_canonicalCode len, length_lt_and_take_eq]
    exact exists_congr fun i => and_congr_right fun _ => (and_iff_right_of_imp length_pos_of_proper_prefix).symm
  unfold readingOf
  split
  · next r hr =>
    have hmem := List.mem_range.1 (List.mem_of_find?_eq_some hr)
    obtain ⟨hr0, hrp⟩ : 0 < len r ∧ canonicalCode len r = p := by simpa using List.find?_some hr
    refine ⟨nofun, fun ⟨i, hi, hi0, hip, hne⟩ => ?_⟩
    obtain rfl | hri := eq_or_ne r i
    · exact absurd hrp.symm hne
    · exact absurd (hrp ▸ hip) (hfree r i hmem hi hr0 hi0 hri)
  · next hnone =>
    rw [← hany]
    split
    · next hin => simp [hin]
    · next hout => simp [hout]

end

section
variable {s : State} (h : CanonPrecondition s.len)
include h

theorem canonicalCode_prefixFree : PrefixFree (lengths s.len) (canonicalCode (lengths s.len)) := by
  intro r q hr hq hr0 hq0 hne
  rw [← codeOf_canon_eq_canonicalCode h hr hr0, ← codeOf_canon_eq_canonicalCode h hq hq0]
  exact canon_not_prefix h hr hq hr0 hq0 hne

variable {d : DecodeStore} (hd : Holds d [] (codesOf (canon s).code (canonicalOrder s.len))) (p : List Bool)
include hd

/-- The leaves of the canonical codes' tree stand at the codes (R173). -/
theorem treeEntry_eq_leaf_iff (i : Nat) :
    treeEntry d 0 p = some (.leaf i) ↔ readingOf (lengths s.len) p = .symbol i := by
  rw [hd.leaves, mem_codesOf_canon h, readingOf_eq_symbol (canonicalCode_prefixFree h)]

/-- The records of the canonical codes' tree are the root and those at the proper prefixes of codes (R173). -/
theorem exists_recordAt_iff :
    (∃ n, recordAt d p = some n) ↔ p = [] ∨ readingOf (lengths s.len) p = .within := by
  rw [hd.records, readingOf_eq_within (canonicalCode_prefixFree h), List.prefix_nil]
  simp only [Prod.exists, mem_codesOf_canon h]
  refine or_congr_right (exists_congr fun i => ?_)
  constructor
  · rintro ⟨c, ⟨hi, hpos, rfl⟩, hp⟩
    exact ⟨hi, hpos, hp⟩
  · rintro ⟨hi, hpos, hp⟩
    exact ⟨_, ⟨hi, hpos, rfl⟩, hp⟩

theorem exists_treeEntry_node_iff (hp : p ≠ []) :
    (∃ m, treeEntry d 0 p = some (.node m)) ↔ readingOf (lengths s.len) p = .within := by
  simp only [treeEntry_eq_node hp, exists_recordAt_iff h hd, hp, false_or]

/-- Where all the proper prefixes of a bit string are proper prefixes of codes, its walk reads an entry (R176). -/
theorem exists_treeEntry (hp : p ≠ [])
    (hwithin : ∀ q, q <+: p → q ≠ [] → q ≠ p → readingOf (lengths s.len) q = .within) :
    ∃ e, treeEntry d 0 p = some e := by
  obtain ⟨y, b, rfl⟩ := (List.eq_nil_or_concat' p).resolve_left hp
  have hy : y = [] ∨ readingOf (lengths s.len) y = .within := by
    by_cases hy : y = []
    · exact .inl hy
    · exact .inr (hwithin y (List.prefix_append _ _) hy (by simp))
  obtain ⟨n, hn⟩ := (exists_recordAt_iff h hd y).2 hy
  obtain ⟨e, he⟩ := childAt_isSome (hd.tree.recordAt_lt hn) b
  exact ⟨e, treeEntry_snoc.2 ⟨n, hn, he⟩⟩

end

/-- Settles O49: after the proper prefixes of codes the walk stands on a record, whose entry tells the leaves at the
codes, the records at their proper prefixes, and the rest. -/
theorem decodeTreeAnswersTheCode : Obligations.DecodeTreeAnswersTheCode := by
  unfold Obligations.DecodeTreeAnswersTheCode
  intro s h
  obtain ⟨d, hd, hholds⟩ := ccTree_canon h
  refine ⟨_, hd, fun p hp hprefixes => ?_⟩
  have hleaf := treeEntry_eq_leaf_iff h hholds p
  have hnode := exists_treeEntry_node_iff h hholds p hp
  refine ⟨fun i => (hleaf i).symm, ?_, hnode.symm⟩
  obtain ⟨e, he⟩ := exists_treeEntry h hholds p hp hprefixes
  simp only [he, Option.some.injEq] at hleaf hnode ⊢
  cases e with
  | none =>
    cases hr : readingOf (lengths s.len) p with
    | symbol i => cases (hleaf i).2 hr
    | within => obtain ⟨m, hm⟩ := hnode.2 hr; cases hm
    | outside => simp
  | node m => simp [hnode.1 ⟨m, rfl⟩]
  | leaf i => simp [(hleaf i).1 rfl]

end Sys2Proof.Safety
end

section
/-! PROOFS. The header, written and read (spec/42_container_codec.md R161 to R170): O47, O48. Each part of
CC_PARSE succeeds exactly under its own check and then answers one state, so the parse succeeds exactly under all of
them. -/

namespace Sys2Proof.Safety

open Sys2Proof.Machine

/-! ### Header emission -/

theorem getElem?_headerBytes_len (ilen : Word32) (len : Table Nat NSYM) {i : Nat} (hi : i < NSYM) :
    (headerBytes ilen len)[8 + i]? = some (BitVec.ofNat 8 (Table.get len i 0)) := by
  have hlen : (MAGIC ++ be32 ilen).length = 8 := rfl
  rw [headerBytes, List.getElem?_append_right (by rw [hlen]; omega), hlen, Nat.add_sub_cancel_left, List.getElem?_map,
    List.getElem?_eq_getElem (by simpa using hi), Table.list_getElem len hi 0]
  rfl

theorem getElem?_headerBytes_fields (ilen : Word32) (len : Table Nat NSYM) {k : Nat} (hk : k < 8) :
    (headerBytes ilen len)[k]? = (MAGIC ++ be32 ilen)[k]? :=
  List.getElem?_append_left hk

/-- A byte of the header, read back from OMEM. -/
theorem read_header {m : Buffer} {ilen : Word32} {len : Table Nat NSYM} {k : Nat} {v : Byte}
    (h : (headerBytes ilen len)[k]? = some v) : (m.writeAll 0 (headerBytes ilen len)).read k = v := by
  obtain ⟨hk, rfl⟩ := List.getElem?_eq_some_iff.1 h
  rw [Buffer.read_writeAll, dif_pos ⟨Nat.zero_le k, by omega⟩]
  rfl

theorem ccEmit_of_room {s : State} (h : HDR_LEN ≤ s.cfg.omemSize) :
    ccEmit s = .ok { s with omem := s.omem.writeAll 0 (headerBytes s.ilen s.len), optr := 265 } := by
  rw [ccEmit, emitBytes_of_le (by rw [length_headerBytes, Nat.zero_add]; exact h), length_headerBytes, Nat.zero_add]

/-- Settles O47: the bytes of the header go to the addresses from 0 on, and to no others. -/
theorem headerEmission : Obligations.HeaderEmission := by
  unfold Obligations.HeaderEmission
  intro s h
  have hfield : ∀ {k v}, k < 8 → (MAGIC ++ be32 s.ilen)[k]? = some v →
      (s.omem.writeAll 0 (headerBytes s.ilen s.len)).read k = v := fun hk hv =>
    read_header ((getElem?_headerBytes_fields s.ilen s.len hk).trans hv)
  refine ⟨_, ccEmit_of_room h, hfield (by decide) rfl, hfield (by decide) rfl, hfield (by decide) rfl,
    hfield (by decide) rfl, hfield (by decide) rfl, hfield (by decide) rfl, hfield (by decide) rfl,
    hfield (by decide) rfl, fun i hi => read_header (getElem?_headerBytes_len _ _ hi), fun a ha => ?_⟩
  have ha' : 265 ≤ a := ha
  rw [Buffer.read_writeAll, dif_neg (by rw [length_headerBytes]; omega)]

/-! ### Header parse -/

/-- The tag check succeeds exactly on the bytes asked for, and then IPTR stands behind them (R164). -/
theorem ccTag_eq_ok {vs : List Byte} {s t : State} (h : s.iptr + vs.length ≤ s.cfg.imemSize) :
    ccTag vs s = .ok t ↔
      (List.range' s.iptr vs.length).map s.imem.read = vs ∧ t = { s with iptr := s.iptr + vs.length } := by
  induction vs generalizing s with
  | nil => simp [ccTag, eq_comm]
  | cons v vs ih =>
    rw [List.length_cons] at h ⊢
    rw [ccTag, memReadImem_of_lt (by omega)]
    dsimp only
    by_cases hv : s.imem.read s.iptr = v
    · rw [if_pos hv, ih (by dsimp only; omega)]
      simp [List.range'_succ, hv, Nat.add_assoc, Nat.add_comm 1]
    · simp [hv, List.range'_succ]

/-- NORIG after `n` bytes from address `a` on have been shifted in (R165). -/
def shiftedIn (m : Buffer) (a n norig : Nat) : Nat :=
  ((List.range' a n).map m.read).foldl be32Shift norig

theorem ccOrigLen_of_le {n : Nat} {s : State} (h : s.iptr + n ≤ s.cfg.imemSize) :
    ccOrigLen n s = .ok { s with norig := shiftedIn s.imem s.iptr n s.norig, iptr := s.iptr + n } := by
  induction n generalizing s with
  | zero => rfl
  | succ n ih =>
    rw [ccOrigLen, memReadImem_of_lt (by omega)]
    dsimp only
    rw [ih (by dsimp only; omega)]
    simp [shiftedIn, List.range'_succ, Nat.add_assoc, Nat.add_comm 1]

theorem shiftedIn_eq_origLen (m : Buffer) : shiftedIn m 4 4 0 = origLen m.read := by
  simp only [shiftedIn, List.range'_succ, List.range'_zero, List.map_cons, List.map_nil, List.foldl_cons,
    List.foldl_nil, be32Shift, Nat.shiftLeft_eq, origLen]
  ring

/-- LEN after the entries from `sym` on, `n` of them, have been read from the table in the header (R165). -/
def lenTabRead (m : Buffer) (sym n : Nat) (len : Table Nat NSYM) : Table Nat NSYM :=
  (List.range' sym n).foldl (fun l i => Table.set l i (m.read (8 + i)).toNat) len

theorem lenTabRead_succ (m : Buffer) (sym n : Nat) (len : Table Nat NSYM) :
    lenTabRead m sym (n + 1) len = lenTabRead m (sym + 1) n (Table.set len sym (m.read (8 + sym)).toNat) := by
  simp [lenTabRead, List.range'_succ]

theorem get_lenTabRead {m : Buffer} {sym n : Nat} {len : Table Nat NSYM} (h : sym + n ≤ NSYM) (i : Nat) :
    Table.get (lenTabRead m sym n len) i 0 =
      if sym ≤ i ∧ i < sym + n then (m.read (8 + i)).toNat else Table.get len i 0 := by
  induction n generalizing sym len with
  | zero => rw [if_neg (by omega)]; rfl
  | succ n ih =>
    rw [lenTabRead_succ, ih (by omega), Table.get_set _ _ (by omega)]
    by_cases hi : sym = i
    · subst hi; simp
    · have hiff : sym + 1 ≤ i ∧ i < sym + 1 + n ↔ sym ≤ i ∧ i < sym + (n + 1) := by omega
      simp only [hiff, if_neg hi]

/-- The table is read exactly when no byte of it is above 45 (R165, R166). -/
theorem ccLenTab_eq_ok {n sym : Nat} {s t : State} (hptr : s.iptr = 8 + sym) (h : s.iptr + n ≤ s.cfg.imemSize) :
    ccLenTab n sym s = .ok t ↔
      (∀ i ∈ List.range' sym n, (s.imem.read (8 + i)).toNat ≤ L_MAX) ∧
        t = { s with len := lenTabRead s.imem sym n s.len, iptr := s.iptr + n } := by
  induction n generalizing sym s with
  | zero => simp [ccLenTab, lenTabRead, eq_comm]
  | succ n ih =>
    rw [ccLenTab, memReadImem_of_lt (by omega)]
    dsimp only
    by_cases hbyte : L_MAX < (s.imem.read s.iptr).toNat
    · rw [if_pos hbyte]
      refine ⟨nofun, fun ⟨hall, _⟩ => ?_⟩
      have := hall sym (by simp)
      rw [← hptr] at this
      omega
    · rw [if_neg hbyte, ih (by dsimp only; omega) (by dsimp only; omega), hptr, lenTabRead_succ, List.range'_succ,
        List.forall_mem_cons, ← hptr]
      simp [Nat.not_lt.1 hbyte, Nat.add_assoc, Nat.add_comm 1]

/-- The checks succeed exactly on a table that codes END_OF_STREAM within the code space and an ORIG_LEN that fits
(R167, R168, R169), and then set KRAFT and PAYLEN (R168, R170). -/
theorem ccChecks_eq_ok {s t : State} :
    ccChecks s = .ok t ↔ Table.get s.len EOS 0 ≠ 0 ∧ kraftSum s.len ≤ 2 ^ L_MAX ∧ s.norig ≤ s.cfg.omemSize ∧
      t = { s with kraft := kraftSum s.len, paylen := s.ilen.toNat - HDR_LEN } := by
  unfold ccChecks
  dsimp only
  split
  · next h => simp [h]
  · next heos =>
    split
    · next h => simp [Nat.not_le.2 h]
    · next hkraft =>
      split
      · next h => simp [Nat.not_le.2 h]
      · next hfit => simp [heos, Nat.not_lt.1 hkraft, Nat.not_lt.1 hfit, eq_comm]

/-- CC_PARSE succeeds when each of its parts does, in their order (R163). -/
theorem ccParse_eq_ok_iff_parts {s t : State} :
    ccParse s = .ok t ↔ HDR_LEN ≤ s.ilen.toNat ∧ ∃ s1, ccTag MAGIC { s with iptr := 0 } = .ok s1 ∧
      ∃ s2, ccOrigLen 4 { s1 with norig := 0 } = .ok s2 ∧ ∃ s3, ccLenTab NSYM 0 s2 = .ok s3 ∧ ccChecks s3 = .ok t := by
  unfold ccParse
  split
  · next h => simp [Nat.not_le.2 h]
  · next h =>
    rw [and_iff_right (Nat.not_lt.1 h)]
    split
    · next h1 => simp [h1]
    · next s1 h1 =>
      simp only [h1, Except.ok.injEq, exists_eq_left']
      split
      · next h2 => simp [h2]
      · next s2 h2 =>
        simp only [h2, Except.ok.injEq, exists_eq_left']
        split
        · next h3 => simp [h3]
        · next s3 h3 => simp [h3]

/-- LEN as CC_PARSE reads it (R165). -/
theorem get_lenTabRead_all (m : Buffer) (len : Table Nat NSYM) {i : Nat} (hi : i < NSYM) :
    Table.get (lenTabRead m 0 NSYM len) i 0 = (m.read (8 + i)).toNat := by
  rw [get_lenTabRead (by omega), if_pos ⟨Nat.zero_le i, by omega⟩]

theorem kraftOf_eq_sum (len : Nat → Nat) :
    kraftOf len = ∑ i ∈ Finset.range NSYM, if 0 < len i then 2 ^ (L_MAX - len i) else 0 := rfl

/-- KRAFT as CC_PARSE computes it (R168). -/
theorem kraftSum_lenTabRead (m : Buffer) (len : Table Nat NSYM) :
    kraftSum (lenTabRead m 0 NSYM len) = kraftOf (fun i => (m.read (8 + i)).toNat) := by
  rw [kraftSum_eq_sum, kraftOf_eq_sum]
  refine Finset.sum_congr rfl fun i hi => ?_
  rw [get_lenTabRead_all m len (Finset.mem_range.1 hi)]

/-- CC_PARSE succeeds exactly on accepted headers whose ORIG_LEN fits, and what it then sets (R163 to R170). -/
theorem ccParse_eq_ok {s t : State} (h : s.ilen.toNat ≤ s.cfg.imemSize) :
    ccParse s = .ok t ↔ HeaderAccepted s.ilen.toNat s.imem.read ∧ origLen s.imem.read ≤ s.cfg.omemSize ∧
      t = { s with
        iptr := 265, norig := origLen s.imem.read, len := lenTabRead s.imem 0 NSYM s.len
        kraft := kraftSum (lenTabRead s.imem 0 NSYM s.len), paylen := s.ilen.toNat - 265 } := by
  rw [ccParse_eq_ok_iff_parts, HeaderAccepted, and_assoc]
  refine and_congr_right fun hlen => ?_
  have hsize : 265 ≤ s.cfg.imemSize := hlen.trans h
  have htag : ∀ t, ccTag MAGIC { s with iptr := 0 } = .ok t ↔
      (List.range 4).map s.imem.read = MAGIC ∧ t = { s with iptr := 4 } :=
    fun _ => ccTag_eq_ok (show 0 + 4 ≤ s.cfg.imemSize by omega)
  have horig : ccOrigLen 4 { s with iptr := 4, norig := 0 } =
      .ok { s with iptr := 8, norig := origLen s.imem.read } := by
    rw [ccOrigLen_of_le (show 4 + 4 ≤ s.cfg.imemSize by omega), ← shiftedIn_eq_origLen]
  have htab : ∀ t, ccLenTab NSYM 0 { s with iptr := 8, norig := origLen s.imem.read } = .ok t ↔
      (∀ i ∈ List.range' 0 NSYM, (s.imem.read (8 + i)).toNat ≤ L_MAX) ∧
        t = { s with iptr := 265, norig := origLen s.imem.read, len := lenTabRead s.imem 0 NSYM s.len } :=
    fun _ => ccLenTab_eq_ok rfl (show 8 + 257 ≤ s.cfg.imemSize by omega)
  have heos : Table.get (lenTabRead s.imem 0 NSYM s.len) EOS 0 = (s.imem.read 264).toNat :=
    get_lenTabRead_all _ _ (by decide)
  simp only [htag, horig, htab, ccChecks_eq_ok, heos, kraftSum_lenTabRead, and_assoc, exists_and_left, exists_eq_left,
    Except.ok.injEq, exists_eq_left', List.mem_range'_1, Nat.zero_le, true_and, Nat.zero_add]

/-- Settles O48: the table the parse reads is that of the header, byte by byte. -/
theorem headerParseResult : Obligations.HeaderParseResult := by
  unfold Obligations.HeaderParseResult
  intro s h
  refine ⟨fun haccepted hfit => ⟨_, (ccParse_eq_ok h).2 ⟨haccepted, hfit, rfl⟩,
    fun i hi => get_lenTabRead_all _ _ hi, ?_, ?_⟩, fun t ht => ?_⟩
  · obtain ⟨-, -, hmax, -, hkraft⟩ := haccepted
    refine ⟨fun i hi => ?_, kraftSum_lenTabRead s.imem s.len ▸ hkraft⟩
    rw [get_lenTabRead_all _ _ hi]
    exact hmax i hi
  · obtain ⟨-, -, -, heos, -⟩ := haccepted
    rw [get_lenTabRead_all _ _ (by decide)]
    exact heos
  · obtain ⟨haccepted, hfit, -⟩ := (ccParse_eq_ok h).1 ht
    exact ⟨haccepted, hfit⟩

end Sys2Proof.Safety
end

section
/-! PROOFS. The bit stream (spec/43_bitstream.md R191 to R199): O51, O52, O53. A packed byte is known by its bits, so
one bit accepted by the writer is one more bit in the string packed; the bytes of OMEM follow by appending. -/

namespace Sys2Proof.Safety

open Sys2Proof.Machine

/-! ### A packed byte, bit by bit -/

/-- The number whose binary digits are `f 0, …, f (n - 1)`, most significant first. -/
theorem sum_digits_eq_ofBits (f : Nat → Bool) (n : Nat) :
    ((List.range n).map (fun k => if f k then 2 ^ (n - 1 - k) else 0)).sum =
      Nat.ofBits (fun i : Fin n => f i.rev) := by
  induction n with
  | zero => rfl
  | succ n ih =>
    have hdouble : (List.range n).map (fun k => if f k then 2 ^ (n + 1 - 1 - k) else 0) =
        (List.range n).map (fun k => 2 * if f k then 2 ^ (n - 1 - k) else 0) := by
      refine List.map_congr_left fun k hk => ?_
      have hk : k < n := List.mem_range.1 hk
      rw [show n + 1 - 1 - k = n - 1 - k + 1 by omega, pow_succ', mul_ite, mul_zero]
    have hlast : (if f n then 2 ^ (n + 1 - 1 - n) else 0) = (f n).toNat := by cases f n <;> simp
    rw [List.range_succ, List.map_append, List.sum_append, hdouble, List.sum_map_mul_left, ih, Nat.ofBits_succ,
      List.map_singleton, List.sum_singleton, hlast]
    simp [Function.comp_def]

/-- The byte's bits, the first of the string on top (R63, R97). -/
theorem packedByte_eq_ofFnBE (bits : List Bool) (j : Nat) :
    packedByte bits j = BitVec.ofFnBE (fun k : Fin 8 => bits.getD (8 * j + k) false) := by
  apply BitVec.eq_of_toNat_eq
  have hsum := sum_digits_eq_ofBits (fun k => bits.getD (8 * j + k) false) 8
  rw [BitVec.toNat_ofFnBE, packedByte, BitVec.toNat_ofNat, hsum]
  exact Nat.mod_eq_of_lt (Nat.ofBits_lt_two_pow _)

/-- Bit 7 - k of the byte is bit 8j + k of the string (R193). -/
theorem getMsbD_packedByte (bits : List Bool) (j k : Nat) :
    (packedByte bits j).getMsbD k = (decide (k < 8) && bits.getD (8 * j + k) false) := by
  rw [packedByte_eq_ofFnBE, BitVec.getMsbD_ofFnBE]
  by_cases hk : k < 8 <;> simp [hk]

theorem msbFirstBit_packedByte (bits : List Bool) (k : Nat) :
    msbFirstBit (packedByte bits (k / 8)) k = bits.getD k false := by
  have hmod : k % 8 < 8 := Nat.mod_lt k (by decide)
  have hmsb : msbFirstBit (packedByte bits (k / 8)) k = (packedByte bits (k / 8)).getMsbD (k % 8) := by
    simp [msbFirstBit, BitVec.getMsbD, hmod]
  rw [hmsb, getMsbD_packedByte, decide_eq_true hmod, Bool.true_and, Nat.div_add_mod]

@[simp] theorem length_packBits (bits : List Bool) : (packBits bits).length = (bits.length + 7) / 8 := by
  simp [packBits]

theorem getD_packBits {bits : List Bool} {j : Nat} (h : j < (bits.length + 7) / 8) :
    (packBits bits).getD j 0 = packedByte bits j := by
  simp [packBits, h]

/-- A whole byte is not changed by the bits that follow it (R193). -/
theorem packedByte_append_of_le {bits : List Bool} {j : Nat} (h : 8 * j + 8 ≤ bits.length) (more : List Bool) :
    packedByte (bits ++ more) j = packedByte bits j := by
  refine BitVec.eq_of_getMsbD_eq fun k hk => ?_
  rw [getMsbD_packedByte, getMsbD_packedByte, List.getD_append _ _ _ _ (by omega)]

/-- Past the end of the string there are only zeros (R97). -/
theorem packedByte_of_length_le {bits : List Bool} {j : Nat} (h : bits.length ≤ 8 * j) : packedByte bits j = 0 := by
  refine BitVec.eq_of_getMsbD_eq fun k hk => ?_
  rw [getMsbD_packedByte, List.getD_eq_default _ _ (by omega)]
  simp

theorem getD_concat (bits : List Bool) (b : Bool) (n : Nat) :
    (bits ++ [b]).getD n false = if n = bits.length then b else bits.getD n false := by
  rcases lt_trichotomy n bits.length with hn | rfl | hn
  · rw [List.getD_append _ _ _ _ hn, if_neg hn.ne]
  · simp
  · rw [List.getD_eq_default _ _ (by rw [List.length_append]; exact hn), List.getD_eq_default _ _ hn.le, if_neg hn.ne']

/-- A bit moved to the free position behind `w` others (R192). -/
theorem getMsbD_bit_shiftLeft (b : Bool) {w k : Nat} (hw : w < 8) (hk : k < 8) :
    ((BitVec.ofBool b).setWidth 8 <<< (7 - w)).getMsbD k = (decide (k = w) && b) := by
  rw [BitVec.getMsbD_eq_getLsbD, BitVec.getLsbD_shiftLeft, BitVec.getLsbD_setWidth, BitVec.getLsbD_ofBool]
  cases b with
  | false => simp
  | true =>
    rw [Bool.eq_iff_iff]
    simp only [Bool.and_true, Bool.and_eq_true, Bool.not_eq_true', decide_eq_true_eq, decide_eq_false_iff_not]
    omega

/-- The writer's new bit is the next bit of the byte it is filling (R192, R193). -/
theorem accept_packedByte (bits : List Bool) (b : Bool) :
    (BitWriter.mk (packedByte bits (bits.length / 8)) (bits.length % 8)).accept b =
      ⟨packedByte (bits ++ [b]) (bits.length / 8), bits.length % 8 + 1⟩ := by
  rw [BitWriter.accept]
  congr 1
  refine BitVec.eq_of_getMsbD_eq fun k hk => ?_
  rw [BitVec.getMsbD_or, getMsbD_packedByte, getMsbD_packedByte,
    getMsbD_bit_shiftLeft b (Nat.mod_lt _ (by decide)) hk, decide_eq_true hk, Bool.true_and, Bool.true_and, getD_concat]
  by_cases hlast : k = bits.length % 8
  · have hpos : 8 * (bits.length / 8) + k = bits.length := hlast ▸ Nat.div_add_mod bits.length 8
    rw [hpos, List.getD_eq_default _ _ le_rfl, if_pos rfl, decide_eq_true hlast, Bool.false_or, Bool.true_and]
  · rw [if_neg (by omega), decide_eq_false hlast, Bool.false_and, Bool.or_false]

/-! ### What the writer's steps answer -/

/-- A bit that does not complete its byte stays in the writer (R192). -/
theorem bwPutBit_of_lt {s : State} (b : Bool) (h : s.bw.wcnt + 1 < 8) :
    bwPutBit s b = .ok { s with bw := s.bw.accept b } :=
  if_neg (show (s.bw.accept b).wcnt ≠ 8 from h.ne)

/-- The eighth bit of a byte sends it out (R192). -/
theorem bwPutBit_of_full {s : State} (b : Bool) (h : s.bw.wcnt + 1 = 8) (hroom : s.optr < s.cfg.omemSize) :
    bwPutBit s b = .ok { s with
      omem := s.omem.write s.optr (s.bw.accept b).wacc, optr := s.optr + 1, bw := ⟨0, 0⟩ } := by
  have hfull : (s.bw.accept b).wcnt = 8 := h
  simp only [bwPutBit, hfull, if_true, emitByte_of_lt _ hroom]

theorem bwFlush_of_partial {s : State} (h : 0 < s.bw.wcnt) (hroom : s.optr < s.cfg.omemSize) :
    bwFlush s = .ok { s with omem := s.omem.write s.optr s.bw.wacc, optr := s.optr + 1, bw := ⟨0, 0⟩ } := by
  rw [bwFlush, if_pos h, emitByte_of_lt _ hroom]

theorem bwFlush_of_empty {s : State} (h : s.bw.wcnt = 0) : bwFlush s = .ok s :=
  if_neg (by rw [h]; exact lt_irrefl 0)

theorem bwPutBits_append {xs : List Bool} {s t : State} (h : bwPutBits xs s = .ok t) (ys : List Bool) :
    bwPutBits (xs ++ ys) s = bwPutBits ys t := by
  induction xs generalizing s with
  | nil => cases h; rfl
  | cons x xs ih =>
    rw [bwPutBits] at h
    split at h
    · next u hu =>
      rw [List.cons_append, bwPutBits, hu]
      exact ih h
    · cases h

theorem writeAll_concat (m : Buffer) (a : Nat) (vs : List Byte) (v : Byte) :
    m.writeAll a (vs ++ [v]) = (m.writeAll a vs).write (a + vs.length) v := by
  induction vs generalizing m a with
  | nil => rfl
  | cons w vs ih =>
    rw [List.cons_append, Buffer.writeAll, Buffer.writeAll, ih, List.length_cons, Nat.add_right_comm, Nat.add_assoc]

/-! ### The bits put from BW_INIT on -/

/-- The bytes the bits have filled (R193). -/
def filledBytes (bits : List Bool) : List Byte := (List.range (bits.length / 8)).map (packedByte bits)

@[simp] theorem length_filledBytes (bits : List Bool) : (filledBytes bits).length = bits.length / 8 := by
  simp [filledBytes]

/-- One bit more leaves the bytes already filled as they are (R193). -/
theorem map_packedByte_concat (bits : List Bool) (b : Bool) :
    (List.range (bits.length / 8)).map (packedByte (bits ++ [b])) = filledBytes bits := by
  refine List.map_congr_left fun j hj => packedByte_append_of_le ?_ [b]
  have hj : j < bits.length / 8 := List.mem_range.1 hj
  omega

/-- The state `s` with the bits put from BW_INIT on (R193). -/
def written (s : State) (bits : List Bool) : State :=
  { s with
    omem := s.omem.writeAll 265 (filledBytes bits), optr := 265 + bits.length / 8
    bw := ⟨packedByte bits (bits.length / 8), bits.length % 8⟩ }

theorem written_nil {s : State} (h : s.optr = 265) : written s [] = bwInit s := by
  have hempty : packedByte [] 0 = 0 := packedByte_of_length_le (Nat.zero_le _)
  simp only [written, bwInit, List.length_nil, Nat.zero_div, Nat.zero_mod, hempty, ← h]
  rfl

/-- One bit put is one bit more written (R192). -/
theorem bwPutBit_written {s : State} {bits : List Bool} {b : Bool}
    (h : 265 + (bits.length + 1) / 8 ≤ s.cfg.omemSize) :
    bwPutBit (written s bits) b = .ok (written s (bits ++ [b])) := by
  have haccept : (written s bits).bw.accept b =
      ⟨packedByte (bits ++ [b]) (bits.length / 8), bits.length % 8 + 1⟩ := accept_packedByte bits b
  have hlen : (bits ++ [b]).length = bits.length + 1 := List.length_append
  by_cases hfull : bits.length % 8 + 1 = 8
  · have hdiv : (bits ++ [b]).length / 8 = bits.length / 8 + 1 := by omega
    have hmod : (bits ++ [b]).length % 8 = 0 := by omega
    have hroom : 265 + bits.length / 8 < s.cfg.omemSize := by omega
    have hfilled : filledBytes (bits ++ [b]) = filledBytes bits ++ [packedByte (bits ++ [b]) (bits.length / 8)] := by
      rw [filledBytes, hdiv, List.range_succ, List.map_append, map_packedByte_concat]
      rfl
    have hempty : packedByte (bits ++ [b]) (bits.length / 8 + 1) = 0 := packedByte_of_length_le (by omega)
    rw [bwPutBit_of_full b hfull hroom, haccept, written, written, hfilled, writeAll_concat, length_filledBytes, hdiv,
      hmod, hempty]
    rfl
  · have hdiv : (bits ++ [b]).length / 8 = bits.length / 8 := by omega
    have hmod : (bits ++ [b]).length % 8 = bits.length % 8 + 1 := by omega
    have hlt : bits.length % 8 + 1 < 8 := by omega
    have hfilled : filledBytes (bits ++ [b]) = filledBytes bits := by
      rw [filledBytes, hdiv, map_packedByte_concat]
    rw [bwPutBit_of_lt b hlt, haccept, written, written, hfilled, hdiv, hmod]

/-- The writer's invariant (R193), by induction on the bits from the last one. -/
theorem bwPutBits_eq_written {s : State} {bits : List Bool} (hptr : s.optr = 265)
    (h : 265 + bits.length / 8 ≤ s.cfg.omemSize) : bwPutBits bits (bwInit s) = .ok (written s bits) := by
  induction bits using List.reverseRecOn with
  | nil => rw [written_nil hptr, bwPutBits]
  | append_singleton bits b ih =>
    rw [List.length_append, List.length_singleton] at h
    rw [bwPutBits_append (ih (by omega))]
    simp only [bwPutBits, bwPutBit_written h]

theorem read_filledBytes {m : Buffer} {bits : List Bool} {j : Nat} (hj : j < bits.length / 8) :
    (m.writeAll 265 (filledBytes bits)).read (265 + j) = packedByte bits j := by
  rw [Buffer.read_writeAll, dif_pos (by rw [length_filledBytes]; omega)]
  simp [filledBytes]

/-- Settles O51, from the state the bits lead to. -/
theorem writerPacksBits : Obligations.WriterPacksBits := by
  unfold Obligations.WriterPacksBits
  intro s bits hptr h
  refine ⟨_, bwPutBits_eq_written hptr h, fun j hj => read_filledBytes hj, fun a ha => ?_⟩
  rw [Buffer.read_writeAll, dif_neg (by rw [length_filledBytes]; omega)]

/-- BW_FLUSH leaves the bytes filled and the partial byte, if there is one: the whole packing (R194). -/
theorem bwFlush_written {s : State} {bits : List Bool} (h : 265 + (bits.length + 7) / 8 ≤ s.cfg.omemSize) :
    bwFlush (written s bits) = .ok { s with
      omem := s.omem.writeAll 265 (packBits bits), optr := 265 + (bits.length + 7) / 8, bw := ⟨0, 0⟩ } := by
  by_cases hpart : 0 < bits.length % 8
  · have hdiv : (bits.length + 7) / 8 = bits.length / 8 + 1 := by omega
    have hroom : 265 + bits.length / 8 < s.cfg.omemSize := by omega
    have hpack : packBits bits = filledBytes bits ++ [packedByte bits (bits.length / 8)] := by
      rw [packBits, hdiv, List.range_succ, List.map_append]
      rfl
    rw [bwFlush_of_partial hpart hroom, hpack, writeAll_concat, length_filledBytes, hdiv]
    rfl
  · have hdiv : (bits.length + 7) / 8 = bits.length / 8 := by omega
    have hmod : bits.length % 8 = 0 := by omega
    rw [bwFlush_of_empty hmod, written, packBits, hdiv, hmod, packedByte_of_length_le (by omega)]
    rfl

/-- Settles O52: the flush leaves the bytes of the packing at the addresses from 265 on, and no others. -/
theorem flushCompletesThePacking : Obligations.FlushCompletesThePacking := by
  unfold Obligations.FlushCompletesThePacking
  intro s bits hptr h
  refine ⟨_, _, bwPutBits_eq_written hptr (by omega), bwFlush_written h, fun j hj => ?_, fun a ha => ?_⟩
  · rw [Buffer.read_writeAll, dif_pos (by omega), List.getD_eq_getElem _ _ hj]
    simp
  · rw [Buffer.read_writeAll, dif_neg (by rw [length_packBits]; omega)]

/-! ### The reader -/

theorem brGetBit_of_lt {s : State} (h : s.rpos < 8 * s.paylen) (hsize : 265 + s.paylen ≤ s.cfg.imemSize) :
    brGetBit s = .ok (some (msbFirstBit (s.imem.read (265 + s.rpos / 8)) s.rpos), { s with rpos := s.rpos + 1 }) := by
  have haddr : HDR_LEN + s.rpos / 8 < s.cfg.imemSize := show 265 + s.rpos / 8 < s.cfg.imemSize by omega
  rw [brGetBit, if_neg h.ne, memReadImem_of_lt haddr]

theorem brGetBit_exhausted {s : State} (h : s.rpos = 8 * s.paylen) : brGetBit s = .ok (none, s) := if_pos h

/-- Settles O53: the bit at position k of a packing is bit k of the string, or a zero behind its end. -/
theorem readerReturnsPackedBits : Obligations.ReaderReturnsPackedBits := by
  unfold Obligations.ReaderReturnsPackedBits
  intro s bits hpay hsize hread
  refine ⟨fun k hk => ?_, ?_⟩
  · have hbyte : s.imem.read (265 + k / 8) = packedByte bits (k / 8) := by
      rw [hread _ (by omega), getD_packBits (by omega)]
    have hget : brGetBit { s with rpos := k } =
        .ok (some (msbFirstBit (s.imem.read (265 + k / 8)) k), { s with rpos := k + 1 }) := brGetBit_of_lt hk hsize
    rw [hget, hbyte, msbFirstBit_packedByte]
  · exact brGetBit_exhausted rfl

end Sys2Proof.Safety
end

section
/-! PROOFS. The commands run by the step and by the phases (spec/10_state.md R40, spec/44_compress.md R220,
spec/45_decompress.md R233): O3, O20. -/

namespace Sys2Proof.Safety

open Sys2Proof.Machine

/-- Settles O3: the event is the command, and the command is its instruction. -/
theorem stepRunsDecodedCommand : Obligations.StepRunsDecodedCommand := by
  unfold Obligations.StepRunsDecodedCommand
  intro s c rest i hagenda hdecode
  rw [step_of_cons hagenda]
  exact command_of_decode hdecode _

/-! ### The phased run -/

/-- The host has no move left, and the block is busy exactly while PHASE is not IDLE (R40). -/
structure Unattended (s : State) : Prop where
  agenda : s.agenda = []
  busy : s.busy = decide (s.phase ≠ .idle)

theorem unattended_startOperation {s : State} {p : Phase} (hagenda : s.agenda = []) (hp : p ≠ .idle) :
    Unattended (startOperation p s) :=
  ⟨hagenda, by rw [State.startOperation_busy, State.startOperation_phase, decide_eq_true hp]⟩

theorem Unattended.step_idle {s : State} (h : Unattended s) (hp : s.phase = .idle) : step s = .next s := by
  rw [step_of_nil h.agenda, engineTurn_of_idle (by rw [h.busy, hp]; rfl)]

theorem Unattended.step_running {s : State} (h : Unattended s) (hp : s.phase ≠ .idle) : step s = enginePhase s := by
  rw [step_of_nil h.agenda, engineTurn_of_busy (by rw [h.busy, decide_eq_true hp])]

/-- A turn of the engine ends the operation with BUSY = 0 or leaves it running with STATUS as it was (R40). -/
theorem Unattended.after_turn {s t : State} (h : Unattended s) (hp : s.phase ≠ .idle)
    (ht : enginePhase s = .next t) : Unattended t := by
  obtain ⟨-, hended, hrunning⟩ := enginePhase_inOrder hp ht
  refine ⟨(enginePhase_keeps ht).agenda.trans h.agenda, ?_⟩
  by_cases hpt : t.phase = .idle
  · obtain ⟨e, he⟩ := hended hpt
    rw [State.busy_eq he, hpt]
    rfl
  · rw [State.busy, hrunning hpt, ← State.busy, h.busy, decide_eq_true hp, decide_eq_true hpt]

theorem core_run_succ {s t : State} (h : step s = .next t) (n : Nat) :
    Host.Core.run core (n + 1) s = Host.Core.run core n t := by
  have h' : core.step s = .next t := h
  simp only [Host.Core.run, h']

/-- With no host move left the machine's steps are the engine's turns, also to a fault. -/
theorem Unattended.core_run {s : State} (h : Unattended s) (n : Nat) : Host.Core.run core n s = runPhases n s := by
  induction n generalizing s with
  | zero => rfl
  | succ n ih =>
    by_cases hp : s.phase = .idle
    · rw [core_run_succ (h.step_idle hp), ih h, runPhases_idle hp, runPhases_idle hp]
    · have hstep : core.step s = enginePhase s := h.step_running hp
      simp only [Host.Core.run, runPhases, hp, if_false, hstep]
      cases ht : enginePhase s with
      | next t => exact ih (h.after_turn hp ht)
      | fault f => rfl
      | refused r => rfl

/-- The number of phases of an instruction's operation (R40). -/
def phaseCount (i : Instr) : Nat := turnsLeft (firstPhase i)

theorem exec_of_idle {s : State} (i : Instr) (hb : s.busy = false) :
    exec i s = runPhases (phaseCount i) (startOperation (firstPhase i) s) := by
  cases i with
  | compress => exact exec_compress_of_idle hb
  | decompress => exact exec_decompress_of_idle hb

/-- A CMD write of an instruction's byte to an idle block starts its operation (R210, R225). -/
theorem writeRegister_cmd_of_idle {s : State} (i : Instr) (hb : s.busy = false) :
    writeRegister 0 ((encode i).setWidth 32) s = startOperation (firstPhase i) s := by
  have hbyte : ((encode i).setWidth 32).setWidth 8 = encode i := by cases i <;> rfl
  rw [writeRegister, hbyte, writeCmd, hb, decode_encode]
  rfl

/-- Settles O20: after the CMD write the machine's steps are the turns the instruction's meaning is made of. -/
theorem phasedRunReachesAtomicResult : Obligations.PhasedRunReachesAtomicResult := by
  unfold Obligations.PhasedRunReachesAtomicResult
  intro i s hb hagenda
  have hstart : Unattended (startOperation (firstPhase i) s) :=
    unattended_startOperation hagenda (by cases i <;> decide)
  refine ⟨phaseCount i + 1, by cases i <;> decide, ?_⟩
  have hs : ({ s with agenda := [] } : State) = s := by rw [← hagenda]
  have hwrite : step { s with agenda := [.writeReg 0 ((encode i).setWidth 32)] } =
      .next (startOperation (firstPhase i) s) := by
    rw [step_of_cons rfl]
    refine (congrArg Host.Outcome.next (writeRegister_cmd_of_idle (s := { s with agenda := [] }) i hb)).trans ?_
    rw [hs]
  rw [core_run_succ hwrite, hstart.core_run, exec_of_idle i hb]

end Sys2Proof.Safety
end

section
/-! PROOFS. COMPRESS as a whole: from C_HEADER on the phases write the header and the packed payload, one byte string
from address 0 on (spec/44_compress.md R216 to R218); so the state an operation ends in is known field by field: O22. -/

namespace Sys2Proof.Safety

open Sys2Proof.Machine

/-! ### The payload -/

theorem writeAll_append (m : Buffer) (a : Nat) (vs ws : List Byte) :
    m.writeAll a (vs ++ ws) = (m.writeAll a vs).writeAll (a + vs.length) ws := by
  induction vs generalizing m a with
  | nil => rfl
  | cons v vs ih =>
    rw [List.cons_append, Buffer.writeAll, Buffer.writeAll, ih, List.length_cons, Nat.add_right_comm, Nat.add_assoc]

/-- The codes of some input bytes, one behind the other (R217). -/
def codesFor (u : State) (bytes : List Byte) : List Bool := bytes.flatMap (fun b => codeOf u.len u.code b.toNat)

/-- The payload bits under the tables of `u`: the input's codes, then END_OF_STREAM's (R217). -/
def payloadCodes (u : State) : List Bool := codesFor u (inputBytes u) ++ codeOf u.len u.code EOS

theorem length_codesFor (u : State) (bytes : List Byte) : (codesFor u bytes).length = codeBitsOf u.len bytes := by
  simp only [codesFor, codeBitsOf, codeOf, List.length_flatMap, length_codeBits]

/-- TBITS counts the payload bits (R215). -/
theorem length_payloadCodes {u : State} (h : InputCounts (inputBytes u) u.freq) :
    (payloadCodes u).length = payloadBits u.freq u.len := by
  rw [payloadCodes, List.length_append, length_codesFor, codeOf, length_codeBits, payloadBits_of_counts h]

/-- More bits put behind others (R192). -/
theorem bwPutBits_written {s : State} {bits more : List Bool}
    (h : 265 + (bits ++ more).length / 8 ≤ s.cfg.omemSize) :
    bwPutBits more (written s bits) = .ok (written s (bits ++ more)) := by
  have hbits : 265 + bits.length / 8 ≤ s.cfg.omemSize := by
    rw [List.length_append] at h
    omega
  have happend := bwPutBits_append (bwPutBits_eq_written (s := { s with optr := 265 }) rfl hbits) more
  exact happend.symm.trans (bwPutBits_eq_written (s := { s with optr := 265 }) rfl h)

/-- One turn of the second pass (R217). -/
theorem cPayloadLoop_succ {s t : State} {b : Byte} (hread : memReadImem s s.iptr = .ok b)
    (hput : bwPutBits (codeOf s.len s.code b.toNat) s = .ok t) (n : Nat) :
    cPayloadLoop (n + 1) s = cPayloadLoop n { t with iptr := t.iptr + 1 } := by
  rw [codeOf] at hput
  simp only [cPayloadLoop, hread, bwPut, hput]

/-- The second pass puts the codes of the bytes it passes (R217). -/
theorem cPayloadLoop_written {s : State} {n : Nat} {bits : List Bool} (himem : s.iptr + n ≤ s.cfg.imemSize)
    (hroom : 265 + (bits ++ codesFor s ((List.range' s.iptr n).map s.imem.read)).length / 8 ≤ s.cfg.omemSize) :
    cPayloadLoop n (written s bits) =
      .ok (written { s with iptr := s.iptr + n } (bits ++ codesFor s ((List.range' s.iptr n).map s.imem.read))) := by
  induction n generalizing s bits with
  | zero =>
    rw [List.range'_zero, List.map_nil, codesFor, List.flatMap_nil, List.append_nil]
    rfl
  | succ n ih =>
    have hcons : codesFor s ((List.range' s.iptr (n + 1)).map s.imem.read) =
        codeOf s.len s.code (s.imem.read s.iptr).toNat ++
          codesFor s ((List.range' (s.iptr + 1) n).map s.imem.read) := rfl
    rw [hcons, ← List.append_assoc] at hroom ⊢
    have hroom' : 265 + (bits ++ codeOf s.len s.code (s.imem.read s.iptr).toNat).length / 8 ≤ s.cfg.omemSize := by
      rw [List.length_append] at hroom
      omega
    have hread : memReadImem (written s bits) (written s bits).iptr = .ok (s.imem.read s.iptr) :=
      memReadImem_of_lt (show s.iptr < s.cfg.imemSize by omega)
    have hrest := ih (s := { s with iptr := s.iptr + 1 }) (by dsimp only; omega) hroom
    rw [Nat.add_right_comm s.iptr 1 n, Nat.add_assoc] at hrest
    exact (cPayloadLoop_succ hread (bwPutBits_written hroom') n).trans hrest

/-- C_PAYLOAD, the input's codes and END_OF_STREAM's having been put (R217). -/
theorem cPayload_of_put {s t u : State} (hbytes : cPayloadLoop s.ilen.toNat { bwInit s with iptr := 0 } = .ok t)
    (heos : bwPutBits (codeOf t.len t.code EOS) t = .ok u) : cPayload s = .ok { u with phase := .cFlush } := by
  rw [codeOf] at heos
  simp only [cPayload, hbytes, bwPut, heos]

/-- `s` after C_PAYLOAD, with OPTR behind the header before it (R217). -/
def payloadPut (s : State) : State :=
  { written { s with iptr := s.ilen.toNat } (payloadCodes s) with phase := .cFlush }

/-- C_PAYLOAD puts the payload bits behind the header (R217). -/
theorem cPayload_eq_payloadPut {s : State} (hoptr : s.optr = 265) (hlen : s.ilen.toNat ≤ s.cfg.imemSize)
    (hroom : 265 + (payloadCodes s).length / 8 ≤ s.cfg.omemSize) : cPayload s = .ok (payloadPut s) := by
  have hstart : written { s with iptr := 0 } [] = { bwInit s with iptr := 0 } :=
    written_nil (s := { s with iptr := 0 }) hoptr
  have hsplit : payloadCodes s =
      ([] ++ codesFor s ((List.range' 0 s.ilen.toNat).map s.imem.read)) ++ codeOf s.len s.code EOS := by
    rw [payloadCodes, inputBytes_eq_range', List.nil_append]
  have hroom' : 265 + ([] ++ codesFor s ((List.range' 0 s.ilen.toNat).map s.imem.read)).length / 8 ≤
      s.cfg.omemSize := by
    rw [hsplit, List.length_append] at hroom
    omega
  have hbytes := cPayloadLoop_written (s := { s with iptr := 0 }) (n := s.ilen.toNat) (bits := [])
    (show 0 + s.ilen.toNat ≤ s.cfg.imemSize by omega) hroom'
  have heos := bwPutBits_written (s := { s with iptr := s.ilen.toNat }) (hsplit ▸ hroom)
  rw [hstart, Nat.zero_add] at hbytes
  rw [payloadPut, hsplit]
  exact cPayload_of_put hbytes heos

/-! ### The phases that write -/

/-- The container under the tables of `u` (R216 to R218). -/
def codedContainer (u : State) : List Byte := headerBytes u.ilen u.len ++ packBits (payloadCodes u)

theorem length_codedContainer (u : State) : (codedContainer u).length = 265 + ((payloadCodes u).length + 7) / 8 := by
  rw [codedContainer, List.length_append, length_headerBytes, length_packBits]

/-- `u` after the phases that write its container: in OMEM from address 0 on, OLEN its length (R218). -/
def containerWritten (u : State) : State :=
  completeOperation (codedContainer u).length { u with
    iptr := u.ilen.toNat, omem := u.omem.writeAll 0 (codedContainer u), optr := (codedContainer u).length
    bw := ⟨0, 0⟩ }

/-- `u` after C_HEADER (R216). -/
def headerPut (u : State) : State :=
  { u with omem := u.omem.writeAll 0 (headerBytes u.ilen u.len), optr := 265, phase := .cPayload }

theorem cHeader_eq_headerPut {u : State} (h : 265 ≤ u.cfg.omemSize) : cHeader u = .ok (headerPut u) := by
  rw [cHeader, ccEmit_of_room h]
  rfl

theorem cFlush_of_flush {s t : State} (h : bwFlush s = .ok t) : cFlush s = .ok (completeOperation t.optr t) := by
  rw [cFlush, h]

/-- C_FLUSH completes the container (R218). -/
theorem cFlush_eq_containerWritten {u : State} (hroom : (codedContainer u).length ≤ u.cfg.omemSize) :
    cFlush (payloadPut (headerPut u)) = .ok (containerWritten u) := by
  have hflush := bwFlush_written (s := { headerPut u with iptr := u.ilen.toNat, phase := .cFlush })
    (bits := payloadCodes u) (length_codedContainer u ▸ hroom)
  have hwrite : u.omem.writeAll 0 (codedContainer u) =
      (headerPut u).omem.writeAll 265 (packBits (payloadCodes u)) := by
    rw [codedContainer, writeAll_append, length_headerBytes]
    rfl
  rw [containerWritten, hwrite, length_codedContainer]
  exact (cFlush_of_flush hflush).trans rfl

/-- C_HEADER, C_PAYLOAD and C_FLUSH, with room for the container (R216 to R218). -/
theorem runPhases_containerWritten {u : State} (hp : u.phase = .cHeader) (hlen : u.ilen.toNat ≤ u.cfg.imemSize)
    (hroom : (codedContainer u).length ≤ u.cfg.omemSize) : runPhases 3 u = .next (containerWritten u) := by
  have hlength := length_codedContainer u
  have hheader : enginePhase u = .next (headerPut u) := by
    simp only [enginePhase, hp, cHeader_eq_headerPut (show 265 ≤ u.cfg.omemSize by omega)]
    rfl
  have hpayload : cPayload (headerPut u) = .ok (payloadPut (headerPut u)) :=
    cPayload_eq_payloadPut rfl hlen (show 265 + (payloadCodes u).length / 8 ≤ u.cfg.omemSize by omega)
  calc runPhases 3 u
      = runPhases 2 (headerPut u) := runPhases_succ (by rw [hp]; decide) hheader
    _ = runPhases 1 (payloadPut (headerPut u)) :=
      runPhases_succ (show Phase.cPayload ≠ .idle by decide) (congrArg endCompressPhase hpayload)
    _ = runPhases 0 (containerWritten u) :=
      runPhases_succ (show Phase.cFlush ≠ .idle by decide)
        (congrArg endCompressPhase (cFlush_eq_containerWritten hroom))
    _ = .next (containerWritten u) := rfl

/-! ### The phases that compute -/

/-- What COMPRESS has made of the input when C_CANON begins: the counts `f`, the built tree `d`, the lengths
(R212 to R214). -/
def lengthened (s : State) (f : Table Nat NSYM) (d : NodeStore) : State :=
  { s with
    freq := f, iptr := s.ilen.toNat, nodes := tbDepth d, len := tbLen f (tbDepth d).ndepth, phase := .cCanon }

/-- What COMPRESS has made of the input when C_SIZE begins: the codes too (R214). -/
def coded (s : State) (f : Table Nat NSYM) (d : NodeStore) : State :=
  { canon (lengthened s f d) with phase := .cSize }

/-- `u` with the sizes of its container (R215). -/
def sized (u : State) : State :=
  { u with
    tbits := payloadBits u.freq u.len, paylen := (payloadBits u.freq u.len + 7) / 8
    osize := HDR_LEN + (payloadBits u.freq u.len + 7) / 8 }

theorem codedContainer_sized (u : State) : codedContainer (sized u) = codedContainer u := rfl

/-- The state COMPRESS ends in, from the tables of `u` (R215 to R218). -/
def compressed (u : State) : State :=
  if u.cfg.omemSize < (sized u).osize then raiseError .ioFailure (sized u) else containerWritten (sized u)

theorem compressed_of_room {u : State} (h : (sized u).osize ≤ u.cfg.omemSize) :
    compressed u = containerWritten (sized u) := if_neg (Nat.not_lt.2 h)

theorem compressed_of_full {u : State} (h : u.cfg.omemSize < (sized u).osize) :
    compressed u = raiseError .ioFailure (sized u) := if_pos h

theorem compressed_phase (u : State) : (compressed u).phase = .idle := by
  unfold compressed
  split <;> rfl

theorem compressed_tbits (u : State) : (compressed u).tbits = (sized u).tbits := by
  unfold compressed
  split <;> rfl

theorem compressed_osize (u : State) : (compressed u).osize = (sized u).osize := by
  unfold compressed
  split <;> rfl

/-- The error of COMPRESS is that of C_SIZE (R215, R218). -/
theorem compressed_status (u : State) :
    (compressed u).status = packStatus false true (if u.cfg.omemSize < (sized u).osize then .ioFailure else .ok) := by
  unfold compressed
  split <;> rfl

/-- The phases up to C_CANON lead from the input to its tables (R211 to R214). -/
theorem runPhases_coded {s : State} (hp : s.phase = .cStart) (hlen : s.ilen.toNat ≤ s.cfg.imemSize) (n : Nat) :
    ∃ f d, InputCounts (inputBytes s) f ∧ BuiltTree f d ∧ runPhases (n + 5) s = runPhases n (coded s f d) := by
  have hstart : enginePhase s = .next { s with phase := .cCount } := by
    simp only [enginePhase, hp, cStart, if_neg (Nat.not_lt.2 hlen), endCompressPhase]
  obtain ⟨f, hf, hcount⟩ := cCount_inputCounts (s := { s with phase := .cCount }) hlen
  obtain ⟨d, hd, hbuild⟩ := cBuild_of_counts
    (s := { s with freq := f, iptr := s.ilen.toNat, phase := .cBuild }) hf
  refine ⟨f, d, hf, hd, ?_⟩
  calc runPhases (n + 5) s
      = runPhases (n + 4) { s with phase := .cCount } := runPhases_succ (by rw [hp]; decide) hstart
    _ = runPhases (n + 3) { s with freq := f, iptr := s.ilen.toNat, phase := .cBuild } :=
      runPhases_succ (show Phase.cCount ≠ .idle by decide) (congrArg endCompressPhase hcount)
    _ = runPhases (n + 2) { s with freq := f, iptr := s.ilen.toNat, nodes := d, phase := .cDepth } :=
      runPhases_succ (show Phase.cBuild ≠ .idle by decide) (congrArg endCompressPhase hbuild)
    _ = runPhases (n + 1) (lengthened s f d) := runPhases_succ (show Phase.cDepth ≠ .idle by decide) rfl
    _ = runPhases n (coded s f d) := runPhases_succ (show Phase.cCanon ≠ .idle by decide) rfl

/-- OSIZE is the length of the container (R215, R220). -/
theorem length_codedContainer_eq_osize {u : State} (h : InputCounts (inputBytes u) u.freq) :
    (codedContainer u).length = (sized u).osize := by
  rw [length_codedContainer, length_payloadCodes h]
  rfl

/-- C_SIZE decides how COMPRESS ends (R215). -/
theorem runPhases_compressed {u : State} (hp : u.phase = .cSize) (hlen : u.ilen.toNat ≤ u.cfg.imemSize)
    (h : InputCounts (inputBytes u) u.freq) : runPhases 4 u = .next (compressed u) := by
  unfold compressed
  split
  · next hfull =>
    have hsize : enginePhase u = .next (raiseError .ioFailure (sized u)) := by
      rw [enginePhase, hp]
      exact congrArg endCompressPhase (if_pos hfull)
    rw [runPhases_succ (by rw [hp]; decide) hsize, runPhases_idle rfl]
  · next hroom =>
    have hsize : enginePhase u = .next { sized u with phase := .cHeader } := by
      rw [enginePhase, hp]
      exact congrArg endCompressPhase (if_neg hroom)
    rw [runPhases_succ (by rw [hp]; decide) hsize]
    exact runPhases_containerWritten (u := { sized u with phase := .cHeader }) rfl hlen
      ((length_codedContainer_eq_osize h).trans_le (Nat.not_lt.1 hroom))

/-- COMPRESS of an input that IMEM holds ends, in the state its counts and their tree lead to (R211 to R218). -/
theorem exec_compress_of_le {s : State} (hb : s.busy = false) (hlen : s.ilen.toNat ≤ s.cfg.imemSize) :
    ∃ f d, InputCounts (inputBytes s) f ∧ BuiltTree f d ∧
      exec .compress s = .next (compressed (coded (startOperation .cStart s) f d)) := by
  obtain ⟨f, d, hf, hd, hrun⟩ := runPhases_coded (s := startOperation .cStart s) rfl hlen 4
  refine ⟨f, d, hf, hd, ?_⟩
  rw [exec_compress_of_idle hb, hrun]
  exact runPhases_compressed rfl hlen hf

/-- COMPRESS of an input that IMEM does not hold ends at C_START (R211). -/
theorem exec_compress_of_gt {s : State} (hb : s.busy = false) (hlen : s.cfg.imemSize < s.ilen.toNat) :
    exec .compress s = .next (raiseError .ioFailure (startOperation .cStart s)) := by
  have hstart : enginePhase (startOperation .cStart s) = .next (raiseError .ioFailure (startOperation .cStart s)) :=
    congrArg endCompressPhase (if_pos hlen)
  rw [exec_compress_of_idle hb, runPhases_succ (show Phase.cStart ≠ .idle by decide) hstart, runPhases_idle rfl]

/-- Settles O22: the operation ends at C_START, at C_SIZE, or with the container written. -/
theorem compressCompletes : Obligations.CompressCompletes := by
  unfold Obligations.CompressCompletes
  intro s hb
  by_cases hlen : s.cfg.imemSize < s.ilen.toNat
  · exact ⟨_, exec_compress_of_gt hb hlen, rfl, fun _ => rfl, fun h => absurd hlen (Nat.not_lt.2 h)⟩
  · obtain ⟨f, d, -, -, hexec⟩ := exec_compress_of_le hb (Nat.not_lt.1 hlen)
    refine ⟨_, hexec, compressed_phase _, fun h => absurd h hlen, fun _ => ?_⟩
    rw [compressed_osize, compressed_tbits]
    exact ⟨rfl, compressed_status _⟩

end Sys2Proof.Safety
end

section
/-! PROOFS. The result of COMPRESS (spec/44_compress.md R220, R222, R223): the bytes its phases write are the container
of the reference, which depends on the input only; O23, O24, O25. -/

namespace Sys2Proof.Safety

open Sys2Proof.Machine

/-! ### The container under the encoder's tables -/

/-- The lengths of an input's tree meet CANON's precondition (R143, R145, R150). -/
theorem BuiltLengths.canonPrecondition {n : Nat} {freq len : Table Nat NSYM} (h : BuiltLengths freq len)
    (hn : n < 2 ^ 32) (htally : Tallied n freq) : CanonPrecondition len := by
  obtain ⟨old, e, he, rfl⟩ := h
  have hdepths := leafDepths_of_built hn htally he
  refine ⟨fun i hi => ?_, ?_⟩
  · rw [tbLen_get hi]
    split
    · next hpos => exact hdepths.le_max i (live_subset_tbPlaceholder _ (mem_live_tbInit.2 hpos))
    · exact Nat.zero_le _
  · rw [kraftSum_of_leafDepths htally hdepths]
    split <;> decide

/-- The lengths of an input's tree are those of the reference (R141). -/
theorem BuiltLengths.get_eq {input : List Byte} {freq len : Table Nat NSYM} (h : BuiltLengths freq len)
    (hcounts : InputCounts input freq) {i : Nat} (hi : i < NSYM) :
    Table.get len i 0 = huffmanLength (countOf input) i := by
  obtain ⟨old, e, he, rfl⟩ := h
  exact tbLen_eq_huffmanLength hcounts.counts hcounts.eos_pos he hi

/-- The closed form of a code rests on the lengths of the symbols only (R146). -/
theorem canonicalValue_congr {len len' : Nat → Nat} (h : ∀ i, i < NSYM → len i = len' i) {i : Nat} (hi : i < NSYM) :
    canonicalValue len i = canonicalValue len' i := by
  have hbefore : (List.range NSYM).filter (fun r => canonicallyBefore len r i) =
      (List.range NSYM).filter (fun r => canonicallyBefore len' r i) :=
    List.filter_congr fun r hr => by simp only [canonicallyBefore, h r (List.mem_range.1 hr), h i hi]
  have hspace : ∀ r ∈ (List.range NSYM).filter (fun r => canonicallyBefore len' r i),
      2 ^ (L_MAX - len r) = 2 ^ (L_MAX - len' r) := fun r hr => by
    rw [h r (List.mem_range.1 (List.mem_filter.1 hr).1)]
  rw [canonicalValue, canonicalValue, hbefore, List.map_congr_left hspace, h i hi]

theorem canonicalCode_congr {len len' : Nat → Nat} (h : ∀ i, i < NSYM → len i = len' i) {i : Nat} (hi : i < NSYM) :
    canonicalCode len i = canonicalCode len' i := by
  rw [canonicalCode, canonicalCode, canonicalValue_congr h hi, h i hi]

/-- The code CANON gives a symbol is its canonical code, also when it has none (R145, R146). -/
theorem codeOf_canon_eq {s : State} (h : CanonPrecondition s.len) {i : Nat} (hi : i < NSYM) :
    codeOf s.len (canon s).code i = canonicalCode (lengths s.len) i := by
  by_cases hpos : 0 < Table.get s.len i 0
  · exact codeOf_canon_eq_canonicalCode h hi hpos
  · have hzero : Table.get s.len i 0 = 0 := Nat.eq_zero_of_not_pos hpos
    rw [codeOf, canonicalCode, lengths, hzero]
    rfl

theorem bigEndian32_toNat (v : Word32) : bigEndian32 v.toNat = be32 v := by
  simp [bigEndian32, be32, BitVec.extractLsb', Nat.shiftRight_eq_div_pow]

theorem toList_eq_map_get (len : Table Nat NSYM) :
    len.toArray.toList = (List.range NSYM).map (fun i => Table.get len i 0) := by
  refine List.ext_getElem (by simp) fun i hi _ => ?_
  rw [Table.list_getElem len (by simpa using hi) 0]
  simp

section
variable {u : State} {len : Nat → Nat} (hlen : ∀ i, i < NSYM → Table.get u.len i 0 = len i)
include hlen

/-- The header under a length table (R90, R161). -/
theorem headerBytes_eq : headerBytes u.ilen u.len =
    MAGIC ++ bigEndian32 (inputBytes u).length ++ (List.range NSYM).map (fun i => BitVec.ofNat 8 (len i)) := by
  have hmap : (List.range NSYM).map (fun i => BitVec.ofNat 8 (Table.get u.len i 0)) =
      (List.range NSYM).map (fun i => BitVec.ofNat 8 (len i)) :=
    List.map_congr_left fun i hi => by rw [hlen i (List.mem_range.1 hi)]
  rw [headerBytes, length_inputBytes, bigEndian32_toNat, toList_eq_map_get, List.map_map, ← hmap]
  rfl

/-- The payload bits under canonical codes (R96). -/
theorem payloadCodes_eq (hcode : ∀ i, i < NSYM → codeOf u.len u.code i = canonicalCode (lengths u.len) i) :
    payloadCodes u = payloadString len (inputBytes u) := by
  have hsymbol : ∀ i, i < NSYM → codeOf u.len u.code i = canonicalCode len i := fun i hi =>
    (hcode i hi).trans (canonicalCode_congr hlen hi)
  rw [payloadCodes, payloadString, codesFor, hsymbol EOS (by decide),
    List.flatMap_congr fun b _ => hsymbol b.toNat (b.isLt.trans (by decide))]

end

/-- What COMPRESS writes is the container of its input (R220). -/
theorem codedContainer_eq_containerOf {s : State} {f : Table Nat NSYM} {d : NodeStore}
    (hf : InputCounts (inputBytes s) f) (hd : BuiltTree f d) :
    codedContainer (coded s f d) = containerOf (inputBytes s) := by
  have hlen : ∀ i, i < NSYM → Table.get (coded s f d).len i 0 = huffmanLength (countOf (inputBytes s)) i :=
    fun i hi => hd.lengths.get_eq hf hi
  have hcanon : CanonPrecondition (coded s f d).len :=
    hd.lengths.canonPrecondition (length_inputBytes s ▸ s.ilen.isLt) hf.tally
  have hcode : ∀ i, i < NSYM →
      codeOf (coded s f d).len (coded s f d).code i = canonicalCode (lengths (coded s f d).len) i :=
    fun i hi => codeOf_canon_eq (s := lengthened s f d) hcanon hi
  rw [codedContainer, headerBytes_eq hlen, payloadCodes_eq hlen hcode]
  rfl

/-! ### The result as a function of the input -/

/-- A container in OMEM, read back. -/
theorem read_writeAll_zero (m : Buffer) (vs : List Byte) (a : Nat) :
    (m.writeAll 0 vs).read a = if a < vs.length then vs.getD a 0 else m.read a := by
  rw [Buffer.read_writeAll]
  by_cases ha : a < vs.length
  · rw [dif_pos (by omega), if_pos ha, List.getD_eq_getElem _ _ ha]
    rfl
  · rw [dif_neg (by omega), if_neg ha]

/-- COMPRESS ends with the container in OMEM when it fits, and with IOFailure else (R220). -/
theorem exec_compress_containerOf {s : State} (hb : s.busy = false) (hlen : s.ilen.toNat ≤ s.cfg.imemSize) :
    ∃ t, exec .compress s = .next t ∧
      if (containerOf (inputBytes s)).length ≤ s.cfg.omemSize then
        t.status = packStatus false true .ok ∧ t.olen = BitVec.ofNat 32 (containerOf (inputBytes s)).length ∧
          t.omem = s.omem.writeAll 0 (containerOf (inputBytes s))
      else t.status = packStatus false true .ioFailure ∧ t.olen = 0 ∧ t.omem = s.omem := by
  obtain ⟨f, d, hf, hd, hexec⟩ := exec_compress_of_le hb hlen
  have hcontainer : codedContainer (coded (startOperation .cStart s) f d) = containerOf (inputBytes s) :=
    codedContainer_eq_containerOf (s := startOperation .cStart s) hf hd
  have hsize := length_codedContainer_eq_osize (u := coded (startOperation .cStart s) f d) hf
  rw [hcontainer] at hsize
  refine ⟨_, hexec, ?_⟩
  by_cases hroom : (containerOf (inputBytes s)).length ≤ s.cfg.omemSize
  · have hend := compressed_of_room (u := coded (startOperation .cStart s) f d) (hsize.symm.trans_le hroom)
    rw [if_pos hroom, hend, ← hcontainer, ← codedContainer_sized]
    exact ⟨rfl, rfl, rfl⟩
  · have hend := compressed_of_full (u := coded (startOperation .cStart s) f d)
      ((Nat.not_le.1 hroom).trans_eq hsize)
    rw [if_neg hroom, hend]
    exact ⟨rfl, rfl, rfl⟩

/-- Settles O23: the container is written from address 0 on, and to no other address. -/
theorem compressWritesTheContainer : Obligations.CompressWritesTheContainer := by
  unfold Obligations.CompressWritesTheContainer
  intro s hcfg hb hlen
  obtain ⟨t, hexec, hresult⟩ := exec_compress_containerOf hb hlen
  obtain ⟨-, hsize⟩ := sizes_lt_of_wellFormed hcfg
  refine ⟨t, hexec, ?_⟩
  split at hresult
  · next hroom =>
    obtain ⟨hstatus, holen, homem⟩ := hresult
    have hlength : t.olen.toNat = (containerOf (inputBytes s)).length := by
      rw [holen, BitVec.toNat_ofNat, Nat.mod_eq_of_lt (hroom.trans_lt hsize)]
    rw [if_pos hroom, homem, hlength]
    exact ⟨hstatus, rfl, fun a ha => (read_writeAll_zero _ _ a).trans (if_pos ha),
      fun a ha => (read_writeAll_zero _ _ a).trans (if_neg (Nat.not_lt.2 ha))⟩
  · next hfull =>
    rw [if_neg hfull]
    exact hresult

/-! ### Dependence on the input only -/

theorem SameInput.inputBytes_eq {s t : State} (h : SameInput s t) : inputBytes s = inputBytes t := by
  obtain ⟨-, hilen, hread⟩ := h
  rw [inputBytes, inputBytes, ← hilen]
  exact List.map_congr_left fun a ha => hread a (List.mem_range.1 ha)

/-- Settles O25: an input that IMEM holds decides the container and whether it fits, and a longer one fails. -/
theorem compressDependsOnInputOnly : Obligations.CompressDependsOnInputOnly := by
  unfold Obligations.CompressDependsOnInputOnly
  intro s s' t t' hcfg hb hb' hsame ht ht'
  have hinput := hsame.inputBytes_eq
  obtain ⟨hparams, hilen, -⟩ := hsame
  by_cases hlen : s.ilen.toNat ≤ s.cfg.imemSize
  · obtain ⟨u, hu, hresult⟩ := compressWritesTheContainer s hcfg hb hlen
    obtain ⟨u', hu', hresult'⟩ := compressWritesTheContainer s' (hparams ▸ hcfg) hb' (hparams ▸ hilen ▸ hlen)
    obtain rfl : t = u := Host.Outcome.next.inj (ht.symm.trans hu)
    obtain rfl : t' = u' := Host.Outcome.next.inj (ht'.symm.trans hu')
    rw [← hinput, ← hparams] at hresult'
    split at hresult
    · next hroom =>
      rw [if_pos hroom] at hresult'
      obtain ⟨hstatus, holen, hread, -⟩ := hresult
      obtain ⟨hstatus', holen', hread', -⟩ := hresult'
      have hsize := holen.trans holen'.symm
      exact ⟨hstatus.trans hstatus'.symm, BitVec.eq_of_toNat_eq hsize, fun a ha =>
        (hread a ha).trans (hread' a (hsize ▸ ha)).symm⟩
    · next hfull =>
      rw [if_neg hfull] at hresult'
      obtain ⟨hstatus, holen, -⟩ := hresult
      obtain ⟨hstatus', holen', -⟩ := hresult'
      exact ⟨hstatus.trans hstatus'.symm, holen.trans holen'.symm, by simp [holen]⟩
  · have hlong : s'.cfg.imemSize < s'.ilen.toNat := by rw [← hparams, ← hilen]; exact Nat.not_le.1 hlen
    rw [exec_compress_of_gt hb (Nat.not_le.1 hlen)] at ht
    rw [exec_compress_of_gt hb' hlong] at ht'
    obtain rfl := Host.Outcome.next.inj ht
    obtain rfl := Host.Outcome.next.inj ht'
    exact ⟨rfl, rfl, nofun⟩

end Sys2Proof.Safety
end

section
/-! PROOFS. The empty input (spec/44_compress.md R222, spec/41_tree_builder.md R132): O24. Its tree is the merge of the
placeholder and END_OF_STREAM, so all its codes, counts and bytes are known. -/

namespace Sys2Proof.Safety

open Sys2Proof.Machine

/-! ### The container of the reference -/

/-- The code lengths of the empty input (R222). -/
def emptyLength (i : Nat) : Nat := if i = EOS then 1 else 0

theorem huffmanTree_nil : huffmanTree (countOf []) = some (.node (.leaf PH) (.leaf EOS)) := rfl

theorem huffmanLength_nil {i : Nat} (hi : i < NSYM) : huffmanLength (countOf []) i = emptyLength i := by
  have hPH : i ≠ PH := Nat.ne_of_lt hi
  rw [huffmanLength, huffmanTree_nil, emptyLength]
  by_cases hEOS : i = EOS <;> simp [depthOf, hPH, hEOS]

theorem canonicalValue_emptyLength : canonicalValue emptyLength EOS = 0 := by decide +kernel

/-- The header with the only length 1 at byte 264, and one payload byte 00 (R222). -/
theorem containerOf_nil : containerOf [] = MAGIC ++ List.replicate 260 0 ++ [0x01, 0x00] := by
  have htable : (List.range NSYM).map (fun i => BitVec.ofNat 8 (huffmanLength (countOf []) i)) =
      List.replicate 256 0 ++ [0x01] := by
    rw [List.map_congr_left fun i hi => by rw [huffmanLength_nil (List.mem_range.1 hi)]]
    decide +kernel
  have hpayload : payloadString (huffmanLength (countOf [])) [] = [false] := by
    rw [payloadString, canonicalCode_congr (fun _ => huffmanLength_nil) (by decide), canonicalCode,
      canonicalValue_emptyLength]
    rfl
  simp only [containerOf, htable, hpayload]
  decide +kernel

theorem getD_containerOf_nil {a : Nat} (ha : a < 266) : (containerOf []).getD a 0 =
    if a = 0 then 0x48 else if a = 1 then 0x55 else if a = 2 then 0x46 else if a = 3 then 0x01
    else if a = 264 then 0x01 else 0x00 := by
  rw [containerOf_nil]
  revert a
  decide +kernel

/-! ### The tree in the node store -/

theorem tbDepth_nleft (d : NodeStore) : (tbDepth d).nleft = d.nleft := by
  rw [tbDepth, foldl_tbDepthNode_frame]

theorem tbDepth_nright (d : NodeStore) : (tbDepth d).nright = d.nright := by
  rw [tbDepth, foldl_tbDepthNode_frame]

/-- The leaves of the empty input: the placeholder of weight 0, and END_OF_STREAM of weight 1 (R132). -/
theorem leaves_nil {freq : Table Nat NSYM} (h : InputCounts [] freq) (old : NodeStore) :
    live (leaves freq old) = {PH, EOS} ∧ weight (leaves freq old) PH = 0 ∧ weight (leaves freq old) EOS = 1 := by
  have hlive : live (tbInit freq old) = {EOS} := live_tbInit_eq_singleton h.eos_pos fun i hi => by
    rw [h.counts i (hi.trans (by decide)), countOf, if_neg (Nat.ne_of_lt hi)]
    rfl
  obtain ⟨hall, hweight⟩ := tbPlaceholder_of_card (hlive ▸ Finset.card_singleton EOS)
  refine ⟨by rw [leaves, hall, hlive], (hweight PH).trans (if_pos rfl), ?_⟩
  rw [leaves, hweight, if_neg (by decide), tbInit_weight (by decide), if_pos h.eos_pos]
  exact h.tally.eos

/-- The placeholder is the lighter of the two, so it is the left child of the root (R133, R222). -/
theorem BuiltTree.root_children {freq : Table Nat NSYM} {d : NodeStore} (h : BuiltTree freq d)
    (hcounts : InputCounts [] freq) :
    Table.get d.nleft NODE_BASE 0 = PH ∧ Table.get d.nright NODE_BASE 0 = EOS := by
  obtain ⟨old, e, he, rfl⟩ := h
  obtain ⟨hlive, hPH, hEOS⟩ := leaves_nil hcounts old
  have hnext := leaves_nnext freq old
  rcases tbMergeLoop_succ_ok he with ⟨a, b, d', hm, he'⟩ | ⟨hcard, -⟩
  · have hleft := hm.left
    have hright := hm.right
    rw [hlive, Finset.mem_insert, Finset.mem_singleton] at hleft hright
    have ha : a = PH := hleft.resolve_right fun ha => by
      have hle := hm.least PH (by rw [hlive]; exact Finset.mem_insert_self _ _)
      rw [ha, hPH, hEOS] at hle
      omega
    have hb : b = EOS := hright.resolve_left fun hb => hm.ne (ha.trans hb.symm)
    obtain ⟨-, hkept⟩ := tbMergeLoop_children he'
    obtain ⟨hnleft, hnright⟩ := hkept NODE_BASE (by rw [hm.nnext, hnext]; exact Nat.lt_succ_self _)
    rw [hm.nleft_get, if_pos hnext.symm, ha] at hnleft
    rw [hm.nright_get, if_pos hnext.symm, hb] at hnright
    exact ⟨hnleft, hnright⟩
  · rw [hlive] at hcard
    exact absurd hcard (by decide)

/-! ### COMPRESS of the empty input -/

theorem length_containerOf_nil : (containerOf []).length = 266 := by
  rw [containerOf_nil, List.length_append, List.length_append, List.length_replicate]
  rfl

section
variable {f : Table Nat NSYM} {d : NodeStore} (hf : InputCounts [] f) (hd : BuiltTree f d)
include hf hd

theorem tbLen_of_nil {i : Nat} (hi : i < NSYM) : Table.get (tbLen f (tbDepth d).ndepth) i 0 = emptyLength i :=
  (hd.lengths.get_eq hf hi).trans (huffmanLength_nil hi)

/-- The only code is the bit 0 (R222). -/
theorem coded_code_of_nil (s : State) : Table.get (coded s f d).code EOS 0 = 0 := by
  have hEOS : EOS < NSYM := by decide
  have hcanon : CanonPrecondition (lengthened s f d).len := hd.lengths.canonPrecondition (n := 0) (by decide) hf.tally
  have hlen : ∀ i, i < NSYM → lengths (lengthened s f d).len i = emptyLength i := fun i => tbLen_of_nil hf hd
  have hpos : 0 < Table.get (lengthened s f d).len EOS 0 := Nat.one_pos.trans_eq (hlen EOS hEOS).symm
  have hcode := canon_code_toNat (s := lengthened s f d) hcanon hEOS hpos
  rw [← canonicalValue_eq, canonicalValue_congr hlen hEOS, canonicalValue_emptyLength] at hcode
  exact BitVec.eq_of_toNat_eq hcode

theorem payloadBits_of_nil : payloadBits f (tbLen f (tbDepth d).ndepth) = 1 := by
  rw [payloadBits_of_counts hf, tbLen_of_nil hf hd (by decide)]
  rfl

end

theorem inputBytes_eq_nil {s : State} (h : s.ilen = 0) : inputBytes s = [] := by
  rw [inputBytes, h]
  rfl

/-- Settles O24: the tables of the empty input, field by field, and its container in OMEM. -/
theorem emptyInputContainer : Obligations.EmptyInputContainer := by
  unfold Obligations.EmptyInputContainer
  intro s hcfg hb hilen hroom
  obtain ⟨f, d, hf, hd, hexec⟩ := exec_compress_of_le hb (by rw [hilen]; exact Nat.zero_le _)
  have hcontainer := codedContainer_eq_containerOf (s := startOperation .cStart s) hf hd
  have hsize := length_codedContainer_eq_osize (u := coded (startOperation .cStart s) f d) hf
  rw [inputBytes_eq_nil hilen] at hf
  rw [inputBytes_eq_nil (s := startOperation .cStart s) hilen] at hcontainer
  rw [hcontainer, length_containerOf_nil] at hsize
  have hbits := payloadBits_of_nil hf hd
  have hend := compressed_of_room (u := coded (startOperation .cStart s) f d) (hsize.symm.trans_le hroom)
  rw [hend] at hexec
  refine ⟨_, hexec, rfl, ?_, tbLen_of_nil hf hd (by decide), coded_code_of_nil hf hd _, hbits, ?_, hsize.symm,
    fun a ha => ?_, hf.tally.eos, ?_, ?_, fun a ha => ?_⟩
  · rw [containerWritten, State.completeOperation_olen, codedContainer_sized, hcontainer, length_containerOf_nil]
    rfl
  · show (payloadBits f (tbLen f (tbDepth d).ndepth) + 7) / 8 = 1
    rw [hbits]
  · exact (hf.counts a (ha.trans (by decide))).trans (if_neg (Nat.ne_of_lt ha))
  · exact (congrArg (fun t => Table.get t NODE_BASE 0) (tbDepth_nleft d)).trans (hd.root_children hf).1
  · exact (congrArg (fun t => Table.get t NODE_BASE 0) (tbDepth_nright d)).trans (hd.root_children hf).2
  · have homem : (containerWritten (sized (coded (startOperation .cStart s) f d))).omem =
        s.omem.writeAll 0 (containerOf []) := by
      rw [← hcontainer, ← codedContainer_sized]
      rfl
    rw [homem, read_writeAll_zero, if_pos (length_containerOf_nil ▸ ha), getD_containerOf_nil ha]

end Sys2Proof.Safety
end

section
/-! PROOFS. How CC_PARSE fails (spec/42_container_codec.md R163 to R169): with CorruptHeader on a header that is not
accepted, and with IOFailure on an accepted one whose ORIG_LEN does not fit. -/

namespace Sys2Proof.Safety

open Sys2Proof.Machine

/-- A unit ends early with the error `e`. -/
def Raises (e : ErrCode) (r : Except Stop State) : Prop := ∃ t, r = .error (.raise e t)

/-- The tag check fails on any other bytes (R164). -/
theorem ccTag_raises {vs : List Byte} {s : State} (h : s.iptr + vs.length ≤ s.cfg.imemSize)
    (hne : (List.range' s.iptr vs.length).map s.imem.read ≠ vs) : Raises .corruptHeader (ccTag vs s) := by
  induction vs generalizing s with
  | nil => exact absurd rfl hne
  | cons v vs ih =>
    rw [List.length_cons] at h
    rw [ccTag, memReadImem_of_lt (by omega)]
    dsimp only
    split
    · next hv =>
      refine ih (by dsimp only; omega) fun heq => hne ?_
      rw [List.length_cons, List.range'_succ, List.map_cons, hv]
      exact congrArg (v :: ·) heq
    · exact ⟨s, rfl⟩

/-- Reading the table fails on a byte above 45 (R166). -/
theorem ccLenTab_raises {n sym : Nat} {s : State} (hptr : s.iptr = 8 + sym) (h : s.iptr + n ≤ s.cfg.imemSize)
    (hbyte : ∃ i ∈ List.range' sym n, L_MAX < (s.imem.read (8 + i)).toNat) :
    Raises .corruptHeader (ccLenTab n sym s) := by
  induction n generalizing sym s with
  | zero => simp at hbyte
  | succ n ih =>
    rw [ccLenTab, memReadImem_of_lt (by omega)]
    dsimp only
    split
    · exact ⟨_, rfl⟩
    · next hle =>
      rw [List.range'_succ, List.exists_mem_cons_iff] at hbyte
      exact ih (by dsimp only; omega) (by dsimp only; omega) (hbyte.resolve_left (hptr ▸ hle))

/-- `s` after the tag and the ORIG_LEN field (R164, R165). -/
def origLenRead (s : State) : State := { s with iptr := 8, norig := origLen s.imem.read }

/-- `s` after the whole header has been read (R165). -/
def fieldsRead (s : State) : State :=
  { s with iptr := 265, norig := origLen s.imem.read, len := lenTabRead s.imem 0 NSYM s.len }

section
variable {s : State} (hle : s.ilen.toNat ≤ s.cfg.imemSize) (hlen : HDR_LEN ≤ s.ilen.toNat)
include hle hlen

theorem ccParse_raises_of_tag (htag : (List.range 4).map s.imem.read ≠ MAGIC) : Raises .corruptHeader (ccParse s) := by
  have hsize : 265 ≤ s.cfg.imemSize := hlen.trans hle
  obtain ⟨t, ht⟩ := ccTag_raises (vs := MAGIC) (s := { s with iptr := 0 })
    (show 0 + 4 ≤ s.cfg.imemSize by omega) htag
  exact ⟨t, by rw [ccParse, if_neg (Nat.not_lt.2 hlen), ht]⟩

variable (htag : (List.range 4).map s.imem.read = MAGIC)
include htag

/-- Up to the table the parse only depends on the tag (R163 to R165). -/
theorem ccParse_tag_orig : ccTag MAGIC { s with iptr := 0 } = .ok { s with iptr := 4 } ∧
    ccOrigLen 4 { s with iptr := 4, norig := 0 } = .ok (origLenRead s) := by
  have hsize : 265 ≤ s.cfg.imemSize := hlen.trans hle
  refine ⟨(ccTag_eq_ok (show 0 + 4 ≤ s.cfg.imemSize by omega)).2 ⟨htag, rfl⟩, ?_⟩
  rw [ccOrigLen_of_le (show 4 + 4 ≤ s.cfg.imemSize by omega), origLenRead, ← shiftedIn_eq_origLen]

theorem ccParse_raises_of_table (hbyte : ∃ i, i < NSYM ∧ L_MAX < (s.imem.read (8 + i)).toNat) :
    Raises .corruptHeader (ccParse s) := by
  have hsize : 265 ≤ s.cfg.imemSize := hlen.trans hle
  obtain ⟨h1, h2⟩ := ccParse_tag_orig hle hlen htag
  obtain ⟨i, hi, hbyte⟩ := hbyte
  obtain ⟨t, ht⟩ := ccLenTab_raises (n := NSYM) (sym := 0) (s := origLenRead s) rfl
    (show 8 + 257 ≤ s.cfg.imemSize by omega) ⟨i, by simpa using hi, hbyte⟩
  exact ⟨t, by simp only [ccParse, if_neg (Nat.not_lt.2 hlen), h1, h2, ht]⟩

/-- On a header whose fields can be read the parse ends as its checks do (R163). -/
theorem ccParse_eq_ccChecks (hmax : ∀ i, i < NSYM → (s.imem.read (8 + i)).toNat ≤ L_MAX) :
    ccParse s = ccChecks (fieldsRead s) := by
  have hsize : 265 ≤ s.cfg.imemSize := hlen.trans hle
  obtain ⟨h1, h2⟩ := ccParse_tag_orig hle hlen htag
  have h3 : ccLenTab NSYM 0 (origLenRead s) = .ok (fieldsRead s) :=
    (ccLenTab_eq_ok rfl (show 8 + 257 ≤ s.cfg.imemSize by omega)).2 ⟨fun i hi => hmax i (by simpa using hi), rfl⟩
  simp only [ccParse, if_neg (Nat.not_lt.2 hlen), h1, h2, h3]

end

theorem ccChecks_raises_of_eos {s : State} (h : Table.get s.len EOS 0 = 0) : Raises .corruptHeader (ccChecks s) :=
  ⟨s, if_pos h⟩

theorem ccChecks_raises_of_kraft {s : State} (heos : Table.get s.len EOS 0 ≠ 0) (h : 2 ^ L_MAX < kraftSum s.len) :
    Raises .corruptHeader (ccChecks s) :=
  ⟨_, (if_neg heos).trans (if_pos h)⟩

theorem ccChecks_raises_of_room {s : State} (heos : Table.get s.len EOS 0 ≠ 0) (hkraft : kraftSum s.len ≤ 2 ^ L_MAX)
    (h : s.cfg.omemSize < s.norig) : Raises .ioFailure (ccChecks s) :=
  ⟨_, (if_neg heos).trans ((if_neg (Nat.not_lt.2 hkraft)).trans (if_pos h))⟩

theorem fieldsRead_len (s : State) : (fieldsRead s).len = lenTabRead s.imem 0 NSYM s.len := by rw [fieldsRead]

/-- END_OF_STREAM's entry of the table read (R167). -/
theorem fieldsRead_eos (s : State) : Table.get (fieldsRead s).len EOS 0 = (s.imem.read 264).toNat := by
  rw [fieldsRead_len]
  exact get_lenTabRead_all _ _ (by decide)

theorem fieldsRead_kraft (s : State) :
    kraftSum (fieldsRead s).len = kraftOf (fun i => (s.imem.read (8 + i)).toNat) := by
  rw [fieldsRead_len, kraftSum_lenTabRead]

/-- A header that is not accepted is CorruptHeader (R163 to R168). -/
theorem ccParse_raises_of_not_accepted {s : State} (hle : s.ilen.toNat ≤ s.cfg.imemSize)
    (h : ¬ HeaderAccepted s.ilen.toNat s.imem.read) : Raises .corruptHeader (ccParse s) := by
  by_cases hlen : HDR_LEN ≤ s.ilen.toNat
  swap
  · exact ⟨s, if_pos (Nat.not_le.1 hlen)⟩
  by_cases htag : (List.range 4).map s.imem.read = MAGIC
  swap
  · exact ccParse_raises_of_tag hle hlen htag
  by_cases hmax : ∀ i, i < NSYM → (s.imem.read (8 + i)).toNat ≤ L_MAX
  swap
  · refine ccParse_raises_of_table hle hlen htag ?_
    simpa only [not_forall, not_le, exists_prop] using hmax
  rw [ccParse_eq_ccChecks hle hlen htag hmax]
  by_cases heos : (s.imem.read 264).toNat = 0
  · exact ccChecks_raises_of_eos ((fieldsRead_eos s).trans heos)
  · refine ccChecks_raises_of_kraft (fieldsRead_eos s ▸ heos) (Nat.not_le.1 fun hkraft => h ?_)
    exact ⟨hlen, htag, hmax, heos, fieldsRead_kraft s ▸ hkraft⟩

/-- An accepted header whose ORIG_LEN does not fit OMEM is IOFailure (R169). -/
theorem ccParse_raises_of_no_room {s : State} (hle : s.ilen.toNat ≤ s.cfg.imemSize)
    (h : HeaderAccepted s.ilen.toNat s.imem.read) (hroom : s.cfg.omemSize < origLen s.imem.read) :
    Raises .ioFailure (ccParse s) := by
  obtain ⟨hlen, htag, hmax, heos, hkraft⟩ := h
  rw [ccParse_eq_ccChecks hle hlen htag hmax]
  exact ccChecks_raises_of_room (fieldsRead_eos s ▸ heos) (fieldsRead_kraft s ▸ hkraft) hroom

end Sys2Proof.Safety
end

section
/-! PROOFS. The decode loop of D_DECODE against the reference's decoding of the payload (spec/45_decompress.md R230,
R232). One turn of the loop takes one bit: the walk stands on the record behind the bits read since the last symbol, so
the entry it reads is the answer of the three-way test (spec/42_container_codec.md R176). -/

namespace Sys2Proof.Safety

open Sys2Proof.Machine

/-! ### The decoding of the reference -/

/-- Only the lengths of the symbols decide the three-way test (R176). -/
theorem readingOf_congr {len len' : Nat → Nat} (h : ∀ i, i < NSYM → len i = len' i) (p : List Bool) :
    readingOf len p = readingOf len' p := by
  have hfind : (List.range NSYM).find? (fun i => decide (0 < len i) && canonicalCode len i == p) =
      (List.range NSYM).find? (fun i => decide (0 < len' i) && canonicalCode len' i == p) :=
    List.find?_congr fun i hi => by
      rw [h i (List.mem_range.1 hi), canonicalCode_congr h (List.mem_range.1 hi)]
  have hany : (List.range NSYM).any (fun i => decide (p.length < len i) && (canonicalCode len i).take p.length == p) =
      (List.range NSYM).any (fun i => decide (p.length < len' i) && (canonicalCode len' i).take p.length == p) := by
    rw [Bool.eq_iff_iff, List.any_eq_true, List.any_eq_true]
    exact exists_congr fun i => and_congr_right fun hi => by
      rw [h i (List.mem_range.1 hi), canonicalCode_congr h (List.mem_range.1 hi)]
  rw [readingOf, readingOf, hfind, hany]

section
variable {len : Nat → Nat} {norig : Nat} {b : Bool} {bs p : List Bool} {out : List Byte}

theorem prefixDecode_of_within (h : readingOf len (p ++ [b]) = .within) :
    prefixDecode len norig (b :: bs) p out = prefixDecode len norig bs (p ++ [b]) out := by
  rw [prefixDecode, h]

theorem prefixDecode_of_outside (h : readingOf len (p ++ [b]) = .outside) :
    prefixDecode len norig (b :: bs) p out = .error .invalidCode := by
  rw [prefixDecode, h]

/-- How the decoding ends at END_OF_STREAM (R231, R232). -/
def decodedAll (norig : Nat) (out : List Byte) : Except ErrCode (List Byte) :=
  if out.length = norig then .ok out else .error .corruptHeader

theorem decodedAll_ne_truncated (norig : Nat) (out : List Byte) : decodedAll norig out ≠ .error .truncatedPayload := by
  rw [decodedAll]
  split <;> nofun

theorem prefixDecode_of_eos (h : readingOf len (p ++ [b]) = .symbol EOS) :
    prefixDecode len norig (b :: bs) p out = decodedAll norig out := by
  rw [prefixDecode, h]
  rfl

theorem prefixDecode_of_full {i : Nat} (h : readingOf len (p ++ [b]) = .symbol i) (hi : i ≠ EOS)
    (hfull : out.length = norig) : prefixDecode len norig (b :: bs) p out = .error .corruptHeader := by
  rw [prefixDecode, h]
  exact (if_neg hi).trans (if_pos hfull)

theorem prefixDecode_of_byte {i : Nat} (h : readingOf len (p ++ [b]) = .symbol i) (hi : i ≠ EOS)
    (hroom : out.length ≠ norig) :
    prefixDecode len norig (b :: bs) p out = prefixDecode len norig bs [] (out ++ [BitVec.ofNat 8 i]) := by
  rw [prefixDecode, h]
  exact (if_neg hi).trans (if_neg hroom)

end

/-- What follows does not matter once the decoding has ended (R236). -/
theorem prefixDecode_append {len : Nat → Nat} {norig : Nat} {bs p : List Bool} {out : List Byte}
    (h : prefixDecode len norig bs p out ≠ .error .truncatedPayload) (more : List Bool) :
    prefixDecode len norig (bs ++ more) p out = prefixDecode len norig bs p out := by
  induction bs generalizing p out with
  | nil => exact absurd rfl h
  | cons b bs ih =>
    rw [List.cons_append]
    cases hr : readingOf len (p ++ [b]) with
    | within =>
      rw [prefixDecode_of_within hr] at h
      rw [prefixDecode_of_within hr, prefixDecode_of_within hr, ih h]
    | outside => rw [prefixDecode_of_outside hr, prefixDecode_of_outside hr]
    | symbol i =>
      by_cases hi : i = EOS
      · subst hi
        rw [prefixDecode_of_eos hr, prefixDecode_of_eos hr]
      · by_cases hfull : out.length = norig
        · rw [prefixDecode_of_full hr hi hfull, prefixDecode_of_full hr hi hfull]
        · rw [prefixDecode_of_byte hr hi hfull] at h
          rw [prefixDecode_of_byte hr hi hfull, prefixDecode_of_byte hr hi hfull, ih h]

theorem prefixDecode_of_prefix {len : Nat → Nat} {norig : Nat} {used bits p : List Bool} {out : List Byte}
    (hused : used <+: bits) (h : prefixDecode len norig used p out ≠ .error .truncatedPayload) :
    prefixDecode len norig bits p out = prefixDecode len norig used p out := by
  obtain ⟨more, rfl⟩ := hused
  exact prefixDecode_append h more

/-! ### The entries of the decode tree as answers of the test -/

/-- What an entry says of the bits that lead to it (R173, R176). -/
def entryReading : DEntry → Reading
  | .none => .outside
  | .node _ => .within
  | .leaf i => .symbol i

/-- Each entry of a record that a walk reaches is the answer of the test on the walk's bits and the entry's. -/
def ReadsAs (d : DecodeStore) (len : Nat → Nat) : Prop :=
  ∀ p n b, recordAt d p = some n → ∃ e, childAt d n b = some e ∧ readingOf len (p ++ [b]) = entryReading e

/-- The tree of the canonical codes answers the test (R176). -/
theorem readsAs_canon {s : State} (h : CanonPrecondition s.len) {d : DecodeStore}
    (hd : Holds d [] (codesOf (canon s).code (canonicalOrder s.len))) : ReadsAs d (lengths s.len) := by
  intro p n b hp
  obtain ⟨e, he⟩ := childAt_isSome (hd.tree.recordAt_lt hp) b
  refine ⟨e, he, ?_⟩
  have hentry : treeEntry d 0 (p ++ [b]) = some e := treeEntry_snoc.2 ⟨n, hp, he⟩
  have hleaf := treeEntry_eq_leaf_iff h hd (p ++ [b])
  have hnode := exists_treeEntry_node_iff h hd (p ++ [b]) (by simp)
  rw [hentry] at hleaf hnode
  cases e with
  | leaf i => exact (hleaf i).1 rfl
  | node m => exact hnode.1 ⟨m, rfl⟩
  | none =>
    cases hr : readingOf (lengths s.len) (p ++ [b]) with
    | symbol i => cases (hleaf i).2 hr
    | within => obtain ⟨m, hm⟩ := hnode.2 hr; cases hm
    | outside => rfl

theorem ReadsAs.congr {d : DecodeStore} {len len' : Nat → Nat} (h : ReadsAs d len)
    (hlen : ∀ i, i < NSYM → len i = len' i) : ReadsAs d len' := by
  intro p n b hp
  obtain ⟨e, he, hr⟩ := h p n b hp
  exact ⟨e, he, (readingOf_congr hlen _).symm.trans hr⟩

/-! ### What a turn of the loop answers -/

section
variable {s t : State} {b : Bool} (k : Nat) (hbit : brGetBit s = .ok (some b, t))
include hbit

theorem dDecodeLoop_of_none (he : childAt t.dec t.dec.dcur b = some .none) :
    dDecodeLoop (k + 1) s = .error (.raise .invalidCode t) := by
  obtain ⟨r, hr, hchild⟩ := Option.map_eq_some_iff.1 he
  simp only [dDecodeLoop, hbit, hr, hchild]

theorem dDecodeLoop_of_node {m : Nat} (he : childAt t.dec t.dec.dcur b = some (.node m)) :
    dDecodeLoop (k + 1) s = dDecodeLoop k { t with dec := { t.dec with dcur := m } } := by
  obtain ⟨r, hr, hchild⟩ := Option.map_eq_some_iff.1 he
  simp only [dDecodeLoop, hbit, hr, hchild]

theorem dDecodeLoop_of_eos (he : childAt t.dec t.dec.dcur b = some (.leaf EOS)) : dDecodeLoop (k + 1) s = .ok t := by
  obtain ⟨r, hr, hchild⟩ := Option.map_eq_some_iff.1 he
  simp only [dDecodeLoop, hbit, hr, hchild, if_true]

theorem dDecodeLoop_of_full {i : Nat} (he : childAt t.dec t.dec.dcur b = some (.leaf i)) (hi : i ≠ EOS)
    (hfull : t.ocnt = t.norig) : dDecodeLoop (k + 1) s = .error (.raise .corruptHeader t) := by
  obtain ⟨r, hr, hchild⟩ := Option.map_eq_some_iff.1 he
  simp only [dDecodeLoop, hbit, hr, hchild, if_neg hi, dEmit, if_pos hfull]

theorem dDecodeLoop_of_byte {i : Nat} (he : childAt t.dec t.dec.dcur b = some (.leaf i)) (hi : i ≠ EOS)
    (hcount : t.ocnt ≠ t.norig) (hroom : t.optr < t.cfg.omemSize) :
    dDecodeLoop (k + 1) s = dDecodeLoop k { t with
      omem := t.omem.write t.optr (BitVec.ofNat 8 i), optr := t.optr + 1, ocnt := t.ocnt + 1
      dec := { t.dec with dcur := 0 } } := by
  obtain ⟨r, hr, hchild⟩ := Option.map_eq_some_iff.1 he
  simp only [dDecodeLoop, hbit, hr, hchild, if_neg hi, dEmit, if_neg hcount, emitByte_of_lt _ hroom]

end

/-! ### The loop as the decoding of the reference -/

/-- The payload bits of the container in IMEM (R102). -/
def payloadOf (s : State) : List Bool := payloadBitsAt s.imem.read HDR_LEN s.paylen

@[simp] theorem length_payloadBitsAt (c : Nat → Byte) (start n : Nat) : (payloadBitsAt c start n).length = 8 * n := by
  simp [payloadBitsAt]

theorem getElem?_payloadBitsAt (c : Nat → Byte) (start : Nat) {n k : Nat} (h : k < 8 * n) :
    (payloadBitsAt c start n)[k]? = some (msbFirstBit (c (start + k / 8)) k) := by
  simp [payloadBitsAt, msbFirstBit, h]

/-- The state `s` in the decode loop: `r` bits have been read, the bytes `out` decoded, and the walk stands on
record `n` (R230). -/
def decoding (s : State) (r : Nat) (out : List Byte) (n : Nat) : State :=
  { s with
    dec := { s.dec with dcur := n }, rpos := r, omem := s.omem.writeAll 0 out, optr := out.length, ocnt := out.length }

/-- A bit of the payload is read (R198). -/
theorem brGetBit_decoding {s : State} (hsize : 265 + s.paylen ≤ s.cfg.imemSize) {pre bs : List Bool} {b : Bool}
    (hbits : payloadOf s = pre ++ b :: bs) (out : List Byte) (n : Nat) :
    brGetBit (decoding s pre.length out n) = .ok (some b, decoding s (pre ++ [b]).length out n) := by
  have hlt : pre.length < 8 * s.paylen := by
    rw [← length_payloadBitsAt s.imem.read HDR_LEN s.paylen, ← payloadOf, hbits]
    simp
  have hget? : (payloadOf s)[pre.length]? = some b := by rw [hbits]; simp
  have hb : msbFirstBit (s.imem.read (265 + pre.length / 8)) pre.length = b :=
    Option.some.inj ((getElem?_payloadBitsAt s.imem.read 265 hlt).symm.trans hget?)
  have hget := brGetBit_of_lt (s := decoding s pre.length out n) hlt hsize
  rw [List.length_append, List.length_singleton, ← hb]
  exact hget

/-- The loop from `r` bits on ends as the decoding of the bits to come: at END_OF_STREAM, some of them being
used, or with the decoding's error. -/
def LoopEnds (s : State) (len : Nat → Nat) (r : Nat) (bits p : List Bool) (out : List Byte)
    (result : Except Stop State) : Prop :=
  (∃ used out' m, used <+: bits ∧ result = .ok (decoding s (r + used.length) out' m) ∧
    prefixDecode len s.norig used p out = decodedAll s.norig out') ∨
  ∃ e, Raises e result ∧ prefixDecode len s.norig bits p out = .error e

/-- A turn that leads on leaves the rest of the loop to end. -/
theorem LoopEnds.cons {s : State} {len : Nat → Nat} {r : Nat} {b : Bool} {bits p q : List Bool} {out out' : List Byte}
    {result : Except Stop State} (h : LoopEnds s len (r + 1) bits q out' result)
    (hturn : ∀ bs, prefixDecode len s.norig (b :: bs) p out = prefixDecode len s.norig bs q out') :
    LoopEnds s len r (b :: bits) p out result := by
  rcases h with ⟨used, o, m, hused, hresult, hdecode⟩ | ⟨e, hresult, hdecode⟩
  · refine .inl ⟨b :: used, o, m, (List.prefix_cons_inj b).2 hused, ?_, (hturn used).trans hdecode⟩
    rw [hresult, List.length_cons, Nat.add_assoc, Nat.add_comm 1]
  · exact .inr ⟨e, hresult, (hturn bits).trans hdecode⟩

theorem dDecodeLoop_decodes {s : State} {len : Nat → Nat} (hsize : 265 + s.paylen ≤ s.cfg.imemSize)
    (hroom : s.norig ≤ s.cfg.omemSize) (hd : ReadsAs s.dec len) {pre bits p : List Bool} {out : List Byte} {n : Nat}
    (hbits : payloadOf s = pre ++ bits) (hp : recordAt s.dec p = some n) (hout : out.length ≤ s.norig) :
    LoopEnds s len pre.length bits p out (dDecodeLoop (bits.length + 1) (decoding s pre.length out n)) := by
  induction bits generalizing pre p out n with
  | nil =>
    have hused : pre.length = 8 * s.paylen := by
      rw [← length_payloadBitsAt s.imem.read HDR_LEN s.paylen, ← payloadOf, hbits, List.append_nil]
    have hget := brGetBit_exhausted (s := decoding s pre.length out n) hused
    exact .inr ⟨.truncatedPayload, ⟨_, by rw [dDecodeLoop, hget]⟩, rfl⟩
  | cons b bits ih =>
    have hbit := brGetBit_decoding hsize hbits out n
    have hnext : payloadOf s = (pre ++ [b]) ++ bits := by rw [hbits, List.append_cons]
    have hlen : (pre ++ [b]).length = pre.length + 1 := List.length_append
    obtain ⟨e, he, hreading⟩ := hd p n b hp
    rw [List.length_cons]
    cases e with
    | none =>
      exact .inr ⟨_, ⟨_, dDecodeLoop_of_none _ hbit he⟩, prefixDecode_of_outside hreading⟩
    | node m =>
      have hrest := ih hnext (recordAt_snoc.2 ⟨n, hp, he⟩) hout
      rw [dDecodeLoop_of_node _ hbit he]
      rw [hlen] at hrest ⊢
      exact hrest.cons fun _ => prefixDecode_of_within hreading
    | leaf i =>
      by_cases hi : i = EOS
      · subst hi
        refine .inl ⟨[b], out, n, (List.prefix_cons_inj b).2 List.nil_prefix, ?_, prefixDecode_of_eos hreading⟩
        rw [dDecodeLoop_of_eos _ hbit he, hlen]
        rfl
      by_cases hfull : out.length = s.norig
      · exact .inr ⟨_, ⟨_, dDecodeLoop_of_full _ hbit he hi hfull⟩, prefixDecode_of_full hreading hi hfull⟩
      · have hrest := ih hnext (recordAt_nil s.dec) (out := out ++ [BitVec.ofNat 8 i]) (by
          rw [List.length_append, List.length_singleton]
          omega)
        have hstate : decoding s (pre ++ [b]).length (out ++ [BitVec.ofNat 8 i]) 0 =
            { decoding s (pre ++ [b]).length out n with
              omem := (s.omem.writeAll 0 out).write out.length (BitVec.ofNat 8 i), optr := out.length + 1
              ocnt := out.length + 1, dec := { s.dec with dcur := 0 } } := by
          rw [decoding, decoding, writeAll_concat, Nat.zero_add, List.length_append, List.length_singleton]
        rw [dDecodeLoop_of_byte _ hbit he hi hfull (show out.length < s.cfg.omemSize by omega)]
        rw [hstate, hlen] at hrest
        rw [hlen]
        exact hrest.cons fun _ => prefixDecode_of_byte hreading hi hfull

end Sys2Proof.Safety
end

section
/-! PROOFS. DECOMPRESS as a whole (spec/45_decompress.md R226 to R238): each check of the reference is that of one
phase, and from D_DECODE on the phases end as the reference's decoding does; O27, O28, O29, O30. -/

namespace Sys2Proof.Safety

open Sys2Proof.Machine

/-! ### The outcome of the reference, by its checks -/

/-- The code lengths in the header of a container (R90). -/
def headerLengths (c : Nat → Byte) (i : Nat) : Nat := (c (8 + i)).toNat

/-- The payload bits of a container of `clen` bytes (R102). -/
def containerPayload (clen : Nat) (c : Nat → Byte) : List Bool := payloadBitsAt c HDR_LEN (clen - HDR_LEN)

section
variable {cfg : Config} {clen : Nat} {c : Nat → Byte}

theorem decompressOutcome_of_long (h : cfg.imemSize < clen) : decompressOutcome cfg clen c = .error .ioFailure :=
  if_pos h

theorem any_length_gt_iff : (List.range NSYM).any (fun i => decide (L_MAX < (c (8 + i)).toNat)) = true ↔
    ¬ ∀ i, i < NSYM → (c (8 + i)).toNat ≤ L_MAX := by
  simp only [List.any_eq_true, List.mem_range, decide_eq_true_eq, not_forall, not_le, exists_prop]

variable (hle : clen ≤ cfg.imemSize)
include hle

/-- A header that is not accepted is CorruptHeader (R232). -/
theorem decompressOutcome_of_not_accepted (h : ¬ HeaderAccepted clen c) :
    decompressOutcome cfg clen c = .error .corruptHeader := by
  simp only [decompressOutcome, if_neg (Nat.not_lt.2 hle), any_length_gt_iff]
  split
  · rfl
  next hlen =>
  split
  · rfl
  next htag =>
  split
  · rfl
  next hmax =>
  split
  · rfl
  next heos =>
  split
  · rfl
  next hkraft =>
  exact absurd ⟨Nat.not_lt.1 hlen, not_not.1 htag, not_not.1 hmax, heos, Nat.not_lt.1 hkraft⟩ h

variable (h : HeaderAccepted clen c)
include h

/-- After an accepted header ORIG_LEN is checked, then the payload decoded (R232). -/
theorem decompressOutcome_of_accepted : decompressOutcome cfg clen c =
    if cfg.omemSize < origLen c then .error .ioFailure
    else prefixDecode (headerLengths c) (origLen c) (containerPayload clen c) [] [] := by
  obtain ⟨hlen, htag, hmax, heos, hkraft⟩ := h
  have hmax' : ¬ ¬ ∀ i, i < NSYM → (c (8 + i)).toNat ≤ L_MAX := not_not.2 hmax
  have heos' : ¬ (c (8 + EOS)).toNat = 0 := heos
  simp only [decompressOutcome, if_neg (Nat.not_lt.2 hle), any_length_gt_iff, if_neg (Nat.not_lt.2 hlen),
    if_neg (not_not.2 htag), if_neg hmax', if_neg heos', if_neg (Nat.not_lt.2 hkraft)]
  rfl

theorem decompressOutcome_of_no_room (hroom : cfg.omemSize < origLen c) :
    decompressOutcome cfg clen c = .error .ioFailure :=
  (decompressOutcome_of_accepted hle h).trans (if_pos hroom)

theorem decompressOutcome_of_room (hroom : origLen c ≤ cfg.omemSize) : decompressOutcome cfg clen c =
    prefixDecode (headerLengths c) (origLen c) (containerPayload clen c) [] [] :=
  (decompressOutcome_of_accepted hle h).trans (if_neg (Nat.not_lt.2 hroom))

end

/-- A container is decoded when its header is accepted, it is no longer than IMEM and OMEM has room (R232). -/
theorem accepted_of_decompressOutcome_ok {cfg : Config} {clen : Nat} {c : Nat → Byte} {out : List Byte}
    (h : decompressOutcome cfg clen c = .ok out) :
    clen ≤ cfg.imemSize ∧ HeaderAccepted clen c ∧ origLen c ≤ cfg.omemSize := by
  by_cases hle : clen ≤ cfg.imemSize
  swap
  · rw [decompressOutcome_of_long (Nat.not_le.1 hle)] at h
    cases h
  by_cases haccepted : HeaderAccepted clen c
  swap
  · rw [decompressOutcome_of_not_accepted hle haccepted] at h
    cases h
  refine ⟨hle, haccepted, Nat.not_lt.1 fun hroom => ?_⟩
  rw [decompressOutcome_of_no_room hle haccepted hroom] at h
  cases h

/-- The errors of the decoding of a payload (R232). -/
theorem prefixDecode_error {len : Nat → Nat} {norig : Nat} {bits p : List Bool} {out : List Byte} {e : ErrCode}
    (h : prefixDecode len norig bits p out = .error e) :
    e = .corruptHeader ∨ e = .truncatedPayload ∨ e = .invalidCode := by
  induction bits generalizing p out with
  | nil => injection h with h; exact .inr (.inl h.symm)
  | cons b bits ih =>
    cases hr : readingOf len (p ++ [b]) with
    | within => exact ih (prefixDecode_of_within hr ▸ h)
    | outside =>
      rw [prefixDecode_of_outside hr] at h
      injection h with h
      exact .inr (.inr h.symm)
    | symbol i =>
      by_cases hi : i = EOS
      · subst hi
        rw [prefixDecode_of_eos hr, decodedAll] at h
        split at h
        · cases h
        · injection h with h; exact .inl h.symm
      · by_cases hfull : out.length = norig
        · rw [prefixDecode_of_full hr hi hfull] at h
          injection h with h
          exact .inl h.symm
        · exact ih (prefixDecode_of_byte hr hi hfull ▸ h)

/-- The errors of DECOMPRESS (R237, R251). -/
theorem decompressOutcome_error {cfg : Config} {clen : Nat} {c : Nat → Byte} {e : ErrCode}
    (h : decompressOutcome cfg clen c = .error e) :
    e = .ioFailure ∨ e = .corruptHeader ∨ e = .truncatedPayload ∨ e = .invalidCode := by
  by_cases hle : clen ≤ cfg.imemSize
  swap
  · rw [decompressOutcome_of_long (Nat.not_le.1 hle)] at h
    injection h with h
    exact .inl h.symm
  by_cases haccepted : HeaderAccepted clen c
  swap
  · rw [decompressOutcome_of_not_accepted hle haccepted] at h
    injection h with h
    exact .inr (.inl h.symm)
  by_cases hroom : origLen c ≤ cfg.omemSize
  · exact .inr (prefixDecode_error (decompressOutcome_of_room hle haccepted hroom ▸ h))
  · rw [decompressOutcome_of_no_room hle haccepted (Nat.not_le.1 hroom)] at h
    injection h with h
    exact .inl h.symm

/-! ### How the operation ends -/

/-- `t` ends a DECOMPRESS of the container `c` of `clen` bytes that decoded the bytes `out`, OMEM having been `m`; the
payload bits read until END_OF_STREAM are enough for it (R231). -/
structure Decoded (m : Buffer) (clen : Nat) (c : Nat → Byte) (out : List Byte) (t : State) : Prop where
  status : t.status = packStatus false true .ok
  olen : t.olen.toNat = out.length
  length : out.length = origLen c
  omem : t.omem = m.writeAll 0 out
  bits : ∃ used, used <+: containerPayload clen c ∧ t.rpos = used.length ∧
    prefixDecode (headerLengths c) (origLen c) used [] [] = .ok out

/-- `t` ends a DECOMPRESS of the container `c` of `clen` bytes with the outcome `r`, OMEM having been `m`
(R232, R233, R262). -/
def DecompressEnds (m : Buffer) (clen : Nat) (c : Nat → Byte) (r : Except ErrCode (List Byte)) (t : State) : Prop :=
  match r with
  | .ok out => Decoded m clen c out t
  | .error e => t.status = packStatus false true e ∧ t.olen = 0

/-- A phase that raises ends the operation (R262). -/
theorem runPhases_of_raises {s : State} {r : Except Stop State} {e : ErrCode} (hp : s.phase ≠ .idle)
    (hr : enginePhase s = endDecompressPhase r) (h : Raises e r) (n : Nat) :
    ∃ t, runPhases (n + 1) s = .next t ∧ t.status = packStatus false true e ∧ t.olen = 0 := by
  obtain ⟨u, rfl⟩ := h
  exact ⟨_, (runPhases_succ hp hr).trans (runPhases_idle rfl), rfl, rfl⟩

theorem origLen_lt (c : Nat → Byte) : origLen c < 2 ^ 32 := by
  have h4 := (c 4).isLt
  have h5 := (c 5).isLt
  have h6 := (c 6).isLt
  have h7 := (c 7).isLt
  rw [origLen]
  omega

/-! ### From D_DECODE on -/

/-- What D_DECODE finds (R227 to R229): the parse's results, and a decode tree that answers the test. -/
structure ReadyToDecode (s : State) : Prop where
  phase : s.phase = .dDecode
  size : 265 + s.paylen ≤ s.cfg.imemSize
  paylen : s.paylen = s.ilen.toNat - HDR_LEN
  norig : s.norig = origLen s.imem.read
  room : s.norig ≤ s.cfg.omemSize
  tree : ReadsAs s.dec (headerLengths s.imem.read)

theorem dDecode_of_loop_ok {s t : State} (h : dDecodeLoop (8 * s.paylen + 1) (decoding s 0 [] 0) = .ok t) :
    dDecode s = .ok { t with phase := .dFinish } := by
  have h' : dDecodeLoop (8 * s.paylen + 1)
      { brInit s with ocnt := 0, optr := 0, dec := { s.dec with dcur := 0 } } = .ok t := h
  rw [dDecode, h']

theorem dDecode_of_loop_raises {s : State} {e : ErrCode}
    (h : Raises e (dDecodeLoop (8 * s.paylen + 1) (decoding s 0 [] 0))) : Raises e (dDecode s) := by
  obtain ⟨t, h⟩ := h
  have h' : dDecodeLoop (8 * s.paylen + 1)
      { brInit s with ocnt := 0, optr := 0, dec := { s.dec with dcur := 0 } } = .error (.raise e t) := h
  exact ⟨t, by rw [dDecode, h']⟩

theorem ReadyToDecode.payloadOf_eq {s : State} (h : ReadyToDecode s) :
    payloadOf s = containerPayload s.ilen.toNat s.imem.read := by
  rw [payloadOf, h.paylen, containerPayload]

/-- D_FINISH after the loop has ended at END_OF_STREAM (R231). -/
theorem runPhases_finish {s : State} (h : ReadyToDecode s) {used : List Bool} {out : List Byte} (m : Nat)
    (hused : used <+: containerPayload s.ilen.toNat s.imem.read)
    (hdecode : prefixDecode (headerLengths s.imem.read) s.norig used [] [] = decodedAll s.norig out) :
    ∃ t, runPhases 1 { decoding s used.length out m with phase := .dFinish } = .next t ∧
      DecompressEnds s.omem s.ilen.toNat s.imem.read (decodedAll s.norig out) t := by
  by_cases hfull : out.length = s.norig
  · have hturn : enginePhase { decoding s used.length out m with phase := .dFinish } =
        .next (completeOperation out.length { decoding s used.length out m with phase := .dFinish }) :=
      congrArg endDecompressPhase (if_pos hfull)
    have hall : decodedAll s.norig out = .ok out := if_pos hfull
    refine ⟨_, (runPhases_succ (show Phase.dFinish ≠ .idle by decide) hturn).trans (runPhases_idle rfl), ?_⟩
    rw [hall] at hdecode ⊢
    rw [h.norig] at hfull hdecode
    refine ⟨rfl, ?_, hfull, rfl, used, hused, rfl, hdecode⟩
    rw [State.completeOperation_olen, BitVec.toNat_ofNat, Nat.mod_eq_of_lt (hfull ▸ origLen_lt _)]
  · have hall : decodedAll s.norig out = .error .corruptHeader := if_neg hfull
    rw [hall]
    exact runPhases_of_raises (show Phase.dFinish ≠ .idle by decide) rfl ⟨_, if_neg hfull⟩ 0

/-- D_DECODE and D_FINISH end as the decoding of the payload does (R230, R231). -/
theorem runPhases_decoded {s : State} (h : ReadyToDecode s) : ∃ t, runPhases 2 s = .next t ∧
    DecompressEnds s.omem s.ilen.toNat s.imem.read
    (prefixDecode (headerLengths s.imem.read) (origLen s.imem.read) (containerPayload s.ilen.toNat s.imem.read) [] [])
      t := by
  have hp : s.phase ≠ .idle := by rw [h.phase]; decide
  have hturn : enginePhase s = endDecompressPhase (dDecode s) := by rw [enginePhase, h.phase]
  have hloop := dDecodeLoop_decodes h.size h.room h.tree (pre := []) (bits := payloadOf s) (out := []) rfl
    (recordAt_nil s.dec) (Nat.zero_le _)
  rw [payloadOf, length_payloadBitsAt, ← payloadOf, h.payloadOf_eq] at hloop
  rw [← h.norig]
  rcases hloop with ⟨used, out, m, hused, hresult, hdecode⟩ | ⟨e, hraises, hdecode⟩
  · rw [List.length_nil, Nat.zero_add] at hresult
    obtain ⟨t, ht, hends⟩ := runPhases_finish h m hused hdecode
    rw [dDecode_of_loop_ok hresult] at hturn
    refine ⟨t, (runPhases_succ hp hturn).trans ht, ?_⟩
    have hends' := prefixDecode_of_prefix hused (hdecode ▸ decodedAll_ne_truncated _ _)
    rw [hends', hdecode]
    exact hends
  · rw [hdecode]
    exact runPhases_of_raises hp hturn (dDecode_of_loop_raises hraises) 1

/-! ### Up to D_DECODE -/

/-- `s` after a parse that succeeds and reads the length table `l` (R163 to R170). -/
def parsed (s : State) (l : Table Nat NSYM) : State :=
  { s with
    iptr := 265, norig := origLen s.imem.read, len := l, kraft := kraftSum l, paylen := s.ilen.toNat - 265 }

/-- `s` when D_DECODE begins, the decode tree being `d` (R227 to R229). -/
def treed (s : State) (l : Table Nat NSYM) (d : DecodeStore) : State :=
  { canon (parsed s l) with dec := d, phase := .dDecode }

theorem dHeader_of_parsed {s : State} {l : Table Nat NSYM} (h : ccParse s = .ok (parsed s l)) :
    dHeader s = .ok { parsed s l with phase := .dCanon } := by rw [dHeader, h]

theorem dHeader_of_raises {s : State} {e : ErrCode} (h : Raises e (ccParse s)) : Raises e (dHeader s) := by
  obtain ⟨t, h⟩ := h
  exact ⟨t, by rw [dHeader, h]⟩

/-- On an accepted header whose ORIG_LEN fits the phases lead to D_DECODE with the decode tree of the header's codes
(R227 to R229). -/
theorem runPhases_treed {s : State} (hp : s.phase = .dHeader) (hle : s.ilen.toNat ≤ s.cfg.imemSize)
    (h : HeaderAccepted s.ilen.toNat s.imem.read) (hroom : origLen s.imem.read ≤ s.cfg.omemSize) (n : Nat) :
    ∃ l d, ReadyToDecode (treed s l d) ∧ runPhases (n + 3) s = runPhases n (treed s l d) := by
  obtain ⟨l, hparse, hlen, hcanon, -⟩ := (headerParseResult s hle).1 h hroom
  obtain ⟨d, hd, hholds⟩ := ccTree_canon (s := { parsed s l with phase := .dTree }) hcanon
  have hheader : enginePhase s = .next { parsed s l with phase := .dCanon } := by
    rw [enginePhase, hp]
    exact congrArg endDecompressPhase (dHeader_of_parsed hparse)
  have htree : dTree { canon (parsed s l) with phase := .dTree } = .ok (treed s l d) := by
    have hd' : ccTree { canon (parsed s l) with phase := .dTree } =
        .ok { canon (parsed s l) with dec := d, phase := .dTree } := hd
    rw [dTree, hd']
    rfl
  refine ⟨l, d, ⟨rfl, ?_, rfl, rfl, hroom, (readsAs_canon hcanon hholds).congr hlen⟩, ?_⟩
  · have hheaderLen : 265 ≤ s.ilen.toNat := h.1
    show 265 + (s.ilen.toNat - 265) ≤ s.cfg.imemSize
    omega
  · calc runPhases (n + 3) s
        = runPhases (n + 2) { parsed s l with phase := .dCanon } := runPhases_succ (by rw [hp]; decide) hheader
      _ = runPhases (n + 1) { canon (parsed s l) with phase := .dTree } :=
        runPhases_succ (show Phase.dCanon ≠ .idle by decide) rfl
      _ = runPhases n (treed s l d) :=
        runPhases_succ (show Phase.dTree ≠ .idle by decide) (congrArg endDecompressPhase htree)

/-- From D_HEADER on DECOMPRESS ends with the outcome of the reference (R227 to R232). -/
theorem runPhases_outcome {s : State} (hp : s.phase = .dHeader) (hle : s.ilen.toNat ≤ s.cfg.imemSize) :
    ∃ t, runPhases 5 s = .next t ∧
      DecompressEnds s.omem s.ilen.toNat s.imem.read (decompressOutcome s.cfg s.ilen.toNat s.imem.read) t := by
  have hp' : s.phase ≠ .idle := by rw [hp]; decide
  have hturn : enginePhase s = endDecompressPhase (dHeader s) := by rw [enginePhase, hp]
  by_cases h : HeaderAccepted s.ilen.toNat s.imem.read
  swap
  · rw [decompressOutcome_of_not_accepted hle h]
    exact runPhases_of_raises hp' hturn (dHeader_of_raises (ccParse_raises_of_not_accepted hle h)) 4
  by_cases hroom : origLen s.imem.read ≤ s.cfg.omemSize
  · obtain ⟨l, d, hready, hrun⟩ := runPhases_treed hp hle h hroom 2
    rw [decompressOutcome_of_room hle h hroom, hrun]
    exact runPhases_decoded hready
  · rw [decompressOutcome_of_no_room hle h (Nat.not_le.1 hroom)]
    exact runPhases_of_raises hp' hturn
      (dHeader_of_raises (ccParse_raises_of_no_room hle h (Nat.not_le.1 hroom))) 4

/-- DECOMPRESS ends with the outcome of the reference (R225 to R233). -/
theorem exec_decompress_outcome {s : State} (hb : s.busy = false) : ∃ t, exec .decompress s = .next t ∧
    DecompressEnds s.omem s.ilen.toNat s.imem.read (decompressOutcome s.cfg s.ilen.toNat s.imem.read) t := by
  rw [exec_decompress_of_idle hb]
  by_cases hle : s.ilen.toNat ≤ s.cfg.imemSize
  · have hstart : enginePhase (startOperation .dStart s) = .next { startOperation .dStart s with phase := .dHeader } :=
      congrArg endDecompressPhase (if_neg (Nat.not_lt.2 hle))
    rw [runPhases_succ (show Phase.dStart ≠ .idle by decide) hstart]
    exact runPhases_outcome (s := { startOperation .dStart s with phase := .dHeader }) rfl hle
  · rw [decompressOutcome_of_long (Nat.not_le.1 hle)]
    exact runPhases_of_raises (show Phase.dStart ≠ .idle by decide) rfl ⟨_, if_pos (Nat.not_le.1 hle)⟩ 5

/-- Settles O28: the operation ends with the outcome of the reference; the bytes decoded are in OMEM from address 0
on, and no other address is written. -/
theorem decompressDecodesTheContainer : Obligations.DecompressDecodesTheContainer := by
  unfold Obligations.DecompressDecodesTheContainer
  intro s hb
  obtain ⟨t, ht, hends⟩ := exec_decompress_outcome hb
  refine ⟨t, ht, ?_⟩
  cases hr : decompressOutcome s.cfg s.ilen.toNat s.imem.read with
  | error e => rw [hr] at hends; exact hends
  | ok out =>
    rw [hr] at hends
    obtain ⟨hstatus, holen, hlength, homem, -⟩ := hends
    rw [homem]
    exact ⟨hstatus, holen, hlength, fun a ha => (read_writeAll_zero _ _ a).trans (if_pos ha),
      fun a ha => (read_writeAll_zero _ _ a).trans (if_neg (Nat.not_lt.2 ha))⟩

/-- Settles O27: the outcomes of the reference are the five. -/
theorem decompressCompletes : Obligations.DecompressCompletes := by
  unfold Obligations.DecompressCompletes
  intro s hb
  obtain ⟨t, ht, hends⟩ := exec_decompress_outcome hb
  have hidle : t.phase = .idle :=
    runPhases_ends (s := startOperation .dStart s) le_rfl (exec_decompress_of_idle hb ▸ ht)
  cases hr : decompressOutcome s.cfg s.ilen.toNat s.imem.read with
  | ok out =>
    rw [hr] at hends
    exact ⟨t, .ok, ht, hidle, nofun, hends.status⟩
  | error e =>
    rw [hr] at hends
    refine ⟨t, e, ht, hidle, ?_, hends.1⟩
    rcases decompressOutcome_error hr with rfl | rfl | rfl | rfl <;> nofun

/-! ### Dependence on the container only -/

/-- Two operations with one outcome have one result (R284). -/
theorem DecompressEnds.sameResult {m m' : Buffer} {n n' : Nat} {c c' : Nat → Byte} {r : Except ErrCode (List Byte)}
    {t t' : State} (h : DecompressEnds m n c r t) (h' : DecompressEnds m' n' c' r t') : SameResult t t' := by
  cases r with
  | error e =>
    obtain ⟨hstatus, holen⟩ := h
    obtain ⟨hstatus', holen'⟩ := h'
    exact ⟨hstatus.trans hstatus'.symm, holen.trans holen'.symm, by simp [holen]⟩
  | ok out =>
    refine ⟨h.status.trans h'.status.symm, BitVec.eq_of_toNat_eq (h.olen.trans h'.olen.symm), fun a ha => ?_⟩
    rw [h.olen] at ha
    rw [h.omem, h'.omem, read_writeAll_zero, read_writeAll_zero, if_pos ha, if_pos ha]

theorem kraftOf_congr {len len' : Nat → Nat} (h : ∀ i, i < NSYM → len i = len' i) : kraftOf len = kraftOf len' :=
  congrArg List.sum (List.map_congr_left fun i hi => by rw [h i (List.mem_range.1 hi)])

section
variable {c c' : Nat → Byte} (hc : ∀ a, a < HDR_LEN → c a = c' a)
include hc

theorem headerLengths_congr {i : Nat} (hi : i < NSYM) : headerLengths c i = headerLengths c' i := by
  have hi' : i < 257 := hi
  rw [headerLengths, headerLengths, hc _ (show 8 + i < 265 by omega)]

theorem origLen_congr : origLen c = origLen c' := by
  rw [origLen, origLen, hc 4 (by decide), hc 5 (by decide), hc 6 (by decide), hc 7 (by decide)]

/-- Whether a header is accepted rests on its bytes only (R163). -/
theorem HeaderAccepted.congr {clen clen' : Nat} (h : HeaderAccepted clen c) (hlen : HDR_LEN ≤ clen') :
    HeaderAccepted clen' c' := by
  obtain ⟨-, htag, hmax, heos, hkraft⟩ := h
  refine ⟨hlen, ?_, fun i hi => (headerLengths_congr hc hi).symm.trans_le (hmax i hi), hc 264 (by decide) ▸ heos, ?_⟩
  · rw [← htag]
    exact List.map_congr_left fun a ha => (hc a ((List.mem_range.1 ha).trans (by decide))).symm
  · exact (kraftOf_congr fun i hi => headerLengths_congr hc hi).symm.trans_le hkraft

end

/-- Only the lengths of the symbols decide the decoding. -/
theorem prefixDecode_congr {len len' : Nat → Nat} (h : ∀ i, i < NSYM → len i = len' i) (norig : Nat)
    (bits p : List Bool) (out : List Byte) :
    prefixDecode len norig bits p out = prefixDecode len' norig bits p out := by
  induction bits generalizing p out with
  | nil => rfl
  | cons b bits ih =>
    rw [prefixDecode, prefixDecode, readingOf_congr h]
    simp only [ih]

theorem payloadBitsAt_congr {c c' : Nat → Byte} {start n : Nat} (h : ∀ a, a < n → c (start + a) = c' (start + a)) :
    payloadBitsAt c start n = payloadBitsAt c' start n := by
  refine List.map_congr_left fun k hk => ?_
  have hk : k < 8 * n := List.mem_range.1 hk
  rw [h (k / 8) (by omega)]

/-- The outcome rests on the bytes of the container only (R238). -/
theorem decompressOutcome_congr {cfg : Config} {clen : Nat} {c c' : Nat → Byte} (h : ∀ a, a < clen → c a = c' a) :
    decompressOutcome cfg clen c = decompressOutcome cfg clen c' := by
  by_cases hle : clen ≤ cfg.imemSize
  swap
  · rw [decompressOutcome_of_long (Nat.not_le.1 hle), decompressOutcome_of_long (Nat.not_le.1 hle)]
  by_cases hlen : HDR_LEN ≤ clen
  swap
  · rw [decompressOutcome_of_not_accepted hle fun hacc => hlen hacc.1,
      decompressOutcome_of_not_accepted hle fun hacc => hlen hacc.1]
  have hc : ∀ a, a < HDR_LEN → c a = c' a := fun a ha => h a (ha.trans_le hlen)
  have hpayload : containerPayload clen c = containerPayload clen c' :=
    payloadBitsAt_congr fun a ha => h _ (by omega)
  by_cases haccepted : HeaderAccepted clen c
  · rw [decompressOutcome_of_accepted hle haccepted, decompressOutcome_of_accepted hle (haccepted.congr hc hlen),
      origLen_congr hc, hpayload, prefixDecode_congr fun i hi => headerLengths_congr hc hi]
  · rw [decompressOutcome_of_not_accepted hle haccepted, decompressOutcome_of_not_accepted hle fun hacc =>
      haccepted (hacc.congr (fun a ha => (hc a ha).symm) hlen)]

/-- Settles O30: the same container has the same outcome in the reference. -/
theorem decompressDependsOnInputOnly : Obligations.DecompressDependsOnInputOnly := by
  unfold Obligations.DecompressDependsOnInputOnly
  rintro s s' t t' hb hb' ⟨hcfg, hilen, hread⟩ ht ht'
  obtain ⟨u, hu, hends⟩ := exec_decompress_outcome hb
  obtain ⟨u', hu', hends'⟩ := exec_decompress_outcome hb'
  obtain rfl : t = u := Host.Outcome.next.inj (ht.symm.trans hu)
  obtain rfl : t' = u' := Host.Outcome.next.inj (ht'.symm.trans hu')
  rw [← hcfg, ← hilen, ← decompressOutcome_congr hread] at hends'
  exact hends.sameResult hends'

/-! ### Trailing data -/

/-- Bits that two payloads agree on begin both of them, when both have as many. -/
theorem prefix_containerPayload {used : List Bool} {clen clen' : Nat} {c c' : Nat → Byte}
    (h : used <+: containerPayload clen c) (hlen : used.length ≤ 8 * (clen' - HDR_LEN))
    (hbits : ∀ k, k < used.length →
      msbFirstBit (c' (HDR_LEN + k / 8)) k = msbFirstBit (c (HDR_LEN + k / 8)) k) :
    used <+: containerPayload clen' c' := by
  rw [List.prefix_iff_getElem?] at h ⊢
  intro k hk
  have hk' : k < 8 * (clen - HDR_LEN) := by
    rw [← length_payloadBitsAt c HDR_LEN (clen - HDR_LEN)]
    exact (List.getElem?_eq_some_iff.1 (h k hk)).1
  rw [← h k hk, containerPayload, containerPayload, getElem?_payloadBitsAt _ _ (hk.trans_le hlen),
    getElem?_payloadBitsAt _ _ hk', hbits k hk]

/-- Settles O29: the decoding ends within the bits both containers have, and what follows does not matter. -/
theorem trailingDataIgnored : Obligations.TrailingDataIgnored := by
  unfold Obligations.TrailingDataIgnored
  intro s s' t hb hb' hcfg ht hok hle hlen hheader hbits
  obtain ⟨u, hu, hends⟩ := exec_decompress_outcome hb
  obtain rfl : t = u := Host.Outcome.next.inj (ht.symm.trans hu)
  obtain ⟨t', ht', hends'⟩ := exec_decompress_outcome hb'
  refine ⟨t', ht', hends.sameResult (m' := s'.omem) (n' := s'.ilen.toNat) (c' := s'.imem.read) ?_⟩
  cases hr : decompressOutcome s.cfg s.ilen.toNat s.imem.read with
  | error e =>
    rw [hr] at hends
    obtain ⟨-, -, rfl⟩ := packStatus_inj.1 (hends.1.symm.trans hok)
    exact absurd (decompressOutcome_error hr) (by decide)
  | ok out =>
    rw [hr] at hends
    obtain ⟨-, haccepted, hroom⟩ := accepted_of_decompressOutcome_ok hr
    obtain ⟨used, hused, hrpos, hdecode⟩ := hends.bits
    rw [hrpos] at hlen hbits
    have hused' := prefix_containerPayload (clen' := s'.ilen.toNat) hused (by omega) hbits
    have hc : ∀ a, a < HDR_LEN → s.imem.read a = s'.imem.read a := fun a ha => (hheader a ha).symm
    rw [origLen_congr hc, prefixDecode_congr fun i hi => headerLengths_congr hc hi] at hdecode
    rw [hcfg, decompressOutcome_of_room hle (haccepted.congr hc (by omega)) (origLen_congr hc ▸ hroom),
      prefixDecode_of_prefix hused' (by rw [hdecode]; nofun), hdecode] at hends'
    exact hends'

end Sys2Proof.Safety
end

section
/-! PROOFS. The two operations together (spec/45_decompress.md R234, R235): O35, O36. The container of an input passes
every check of the header; its payload is decoded code by code, and each proper beginning of it ends within a code. -/

namespace Sys2Proof.Safety

open Sys2Proof.Machine

/-! ### A payload, code by code -/

/-- What the decoder needs of the code lengths of an input (R141, R143, R147, R150). -/
structure CodesInput (len : Nat → Nat) (input : List Byte) : Prop where
  le_max : ∀ i, i < NSYM → len i ≤ L_MAX
  kraft : kraftOf len ≤ 2 ^ L_MAX
  prefixFree : PrefixFree len (canonicalCode len)
  eos : 0 < len EOS
  bytes : ∀ b ∈ input, 0 < len b.toNat

theorem CodesInput.tail {len : Nat → Nat} {b : Byte} {input : List Byte} (h : CodesInput len (b :: input)) :
    CodesInput len input :=
  ⟨h.le_max, h.kraft, h.prefixFree, h.eos, fun c hc => h.bytes c (List.mem_cons_of_mem _ hc)⟩

theorem byte_lt (b : Byte) : b.toNat < NSYM := b.isLt.trans (by decide)

section
variable {len : Nat → Nat} (hfree : PrefixFree len (canonicalCode len)) {i : Nat} (hi : i < NSYM) (hpos : 0 < len i)
  (norig : Nat) (out : List Byte)
include hfree hi hpos

/-- Bits inside a code lead on along it. -/
theorem prefixDecode_inside {p x : List Bool} (h : p ++ x <+: canonicalCode len i) (hne : p ++ x ≠ canonicalCode len i)
    (bs : List Bool) : prefixDecode len norig (x ++ bs) p out = prefixDecode len norig bs (p ++ x) out := by
  induction x generalizing p with
  | nil => rw [List.nil_append, List.append_nil]
  | cons b x ih =>
    rw [List.append_cons] at h hne ⊢
    have hb : p ++ [b] <+: canonicalCode len i := (List.prefix_append _ _).trans h
    have hb' : p ++ [b] ≠ canonicalCode len i := fun heq => hne (by
      rw [heq] at h ⊢
      exact h.eq_of_length_le (by simp))
    rw [List.cons_append, prefixDecode_of_within ((readingOf_eq_within hfree _).2 ⟨i, hi, hpos, hb, hb'⟩), ih h hne]

/-- A proper beginning of a code runs out of bits (R232). -/
theorem prefixDecode_cut {x : List Bool} (h : x <+: canonicalCode len i) (hne : x ≠ canonicalCode len i) :
    prefixDecode len norig x [] out = .error .truncatedPayload := by
  have hinside := prefixDecode_inside hfree hi hpos norig out (p := []) h hne []
  rw [List.append_nil] at hinside
  rw [hinside]
  rfl

/-- A code leads to its last bit, on which the test answers its symbol (R176). -/
theorem prefixDecode_to_last_bit (bs : List Bool) : ∃ q b, readingOf len (q ++ [b]) = .symbol i ∧
    prefixDecode len norig (canonicalCode len i ++ bs) [] out = prefixDecode len norig (b :: bs) q out := by
  have hne : canonicalCode len i ≠ [] := by
    rw [← List.length_pos_iff, length_canonicalCode]
    exact hpos
  obtain ⟨q, b, hcode⟩ := (List.eq_nil_or_concat' (canonicalCode len i)).resolve_left hne
  refine ⟨q, b, (readingOf_eq_symbol hfree _ i).2 ⟨hi, hpos, hcode⟩, ?_⟩
  have hinside := prefixDecode_inside hfree hi hpos norig out (p := []) (x := q)
    (by rw [hcode]; exact List.prefix_append _ _) (by rw [hcode]; simp) (b :: bs)
  rw [hcode, List.append_assoc]
  exact hinside

/-- The code of a byte is decoded to the byte (R230). -/
theorem prefixDecode_byteCode (hne : i ≠ EOS) (hroom : out.length ≠ norig) (bs : List Bool) :
    prefixDecode len norig (canonicalCode len i ++ bs) [] out =
      prefixDecode len norig bs [] (out ++ [BitVec.ofNat 8 i]) := by
  obtain ⟨q, b, hreading, hdecode⟩ := prefixDecode_to_last_bit hfree hi hpos norig out bs
  rw [hdecode, prefixDecode_of_byte hreading hne hroom]

end

theorem payloadString_cons (len : Nat → Nat) (b : Byte) (input : List Byte) :
    payloadString len (b :: input) = canonicalCode len b.toNat ++ payloadString len input := by
  rw [payloadString, payloadString, List.flatMap_cons, List.append_assoc]

theorem length_concat_add {out : List Byte} {b : Byte} {input : List Byte} :
    (out ++ [b]).length + input.length = out.length + (b :: input).length := by
  rw [List.length_append, List.length_singleton, List.length_cons, Nat.add_assoc, Nat.add_comm 1]

theorem prefixDecode_byte_cons {len : Nat → Nat} {b : Byte} {input out : List Byte} {norig : Nat}
    (h : CodesInput len (b :: input)) (hlen : out.length + (b :: input).length = norig) (bs : List Bool) :
    prefixDecode len norig (canonicalCode len b.toNat ++ bs) [] out = prefixDecode len norig bs [] (out ++ [b]) := by
  have hne : b.toNat ≠ EOS := b.isLt.ne
  rw [List.length_cons] at hlen
  rw [prefixDecode_byteCode h.prefixFree (byte_lt b) (h.bytes b List.mem_cons_self) norig out hne (by omega) bs,
    BitVec.ofNat_toNat, BitVec.setWidth_eq]

/-- The payload of an input is decoded to the input (R234). -/
theorem prefixDecode_payloadString {len : Nat → Nat} {input out : List Byte} {norig : Nat} (h : CodesInput len input)
    (hlen : out.length + input.length = norig) :
    prefixDecode len norig (payloadString len input) [] out = .ok (out ++ input) := by
  induction input generalizing out with
  | nil =>
    obtain ⟨q, b, hreading, hdecode⟩ := prefixDecode_to_last_bit h.prefixFree (by decide) h.eos norig out []
    rw [List.append_nil] at hdecode
    rw [payloadString, List.flatMap_nil, List.nil_append, hdecode, prefixDecode_of_eos hreading, List.append_nil]
    exact if_pos hlen
  | cons b input ih =>
    rw [payloadString_cons, prefixDecode_byte_cons h hlen, ih h.tail (length_concat_add.trans hlen),
      List.append_assoc, List.singleton_append]

/-- A proper beginning of the payload runs out of bits (R235). -/
theorem prefixDecode_cut_payload {len : Nat → Nat} {input out : List Byte} {norig : Nat} {x : List Bool}
    (h : CodesInput len input) (hlen : out.length + input.length = norig) (hx : x <+: payloadString len input)
    (hne : x ≠ payloadString len input) : prefixDecode len norig x [] out = .error .truncatedPayload := by
  induction input generalizing out x with
  | nil => exact prefixDecode_cut h.prefixFree (by decide) h.eos norig out hx hne
  | cons b input ih =>
    rw [payloadString_cons] at hx hne
    by_cases hcode : canonicalCode len b.toNat <+: x
    · obtain ⟨y, rfl⟩ := hcode
      rw [prefixDecode_byte_cons h hlen]
      exact ih h.tail (length_concat_add.trans hlen) ((List.prefix_append_right_inj _).1 hx)
        fun heq => hne (by rw [heq])
    · have hwithin := (List.prefix_or_prefix_of_prefix hx (List.prefix_append _ _)).resolve_right hcode
      refine prefixDecode_cut h.prefixFree (byte_lt b) (h.bytes b List.mem_cons_self) norig out hwithin fun heq => ?_
      exact hcode (heq ▸ List.prefix_rfl)

/-! ### The lengths of an input -/

/-- The lengths COMPRESS gives an input make a code for it (R141, R143, R147, R150). -/
theorem codesInput {s : State} (hb : s.busy = false) (hlen : s.ilen.toNat ≤ s.cfg.imemSize) :
    CodesInput (huffmanLength (countOf (inputBytes s))) (inputBytes s) := by
  obtain ⟨t, -, hcounts, hlengths⟩ := exec_compress_lengths hb hlen
  have hshort : (inputBytes s).length < 2 ^ 32 := length_inputBytes s ▸ s.ilen.isLt
  have hget : ∀ i, i < NSYM → lengths t.len i = huffmanLength (countOf (inputBytes s)) i :=
    fun i hi => hlengths.get_eq hcounts hi
  have hcanon := hlengths.canonPrecondition hshort hcounts.tally
  have hpos : ∀ i, i < NSYM → 0 < countOf (inputBytes s) i → 0 < huffmanLength (countOf (inputBytes s)) i := by
    intro i hi hcount
    rw [← hcounts.counts i hi] at hcount
    obtain ⟨old, e, he, hlent⟩ := hlengths
    have hdepths := leafDepths_of_built hshort hcounts.tally he
    rw [← hget i hi, lengths, hlent, tbLen_get hi, if_pos hcount]
    exact hdepths.pos i (live_subset_tbPlaceholder _ (mem_live_tbInit.2 hcount))
  refine ⟨fun i hi => hget i hi ▸ hcanon.1 i hi, ?_, fun r q hr hq hr0 hq0 hne => ?_, hpos EOS (by decide) Nat.one_pos,
    fun b hb => hpos _ (byte_lt b) ?_⟩
  · rw [← kraftOf_congr hget]
    exact (kraftSum_eq_sum t.len).symm.trans_le hcanon.2
  · rw [← hget r hr] at hr0
    rw [← hget q hq] at hq0
    rw [← canonicalCode_congr hget hr, ← canonicalCode_congr hget hq]
    exact canonicalCode_prefixFree hcanon r q hr hq hr0 hq0 hne
  · rw [countOf_byte]
    exact List.count_pos_iff.2 hb

/-! ### The bytes of the container -/

/-- The container of an input, byte by byte. -/
def containerByte (input : List Byte) (a : Nat) : Byte := (containerOf input).getD a 0

/-- The payload bits of an input (R96). -/
def payloadBitsOf (input : List Byte) : List Bool := payloadString (huffmanLength (countOf input)) input

/-- The length table of an input's header (R90). -/
def lengthBytes (input : List Byte) : List Byte :=
  (List.range NSYM).map (fun i => BitVec.ofNat 8 (huffmanLength (countOf input) i))

@[simp] theorem length_lengthBytes (input : List Byte) : (lengthBytes input).length = 257 := by simp [lengthBytes]

theorem containerOf_eq (input : List Byte) : containerOf input =
    (MAGIC ++ bigEndian32 input.length) ++ (lengthBytes input ++ packBits (payloadBitsOf input)) := by
  rw [← List.append_assoc]
  rfl

theorem length_fields (n : Nat) : (MAGIC ++ bigEndian32 n).length = 8 := rfl

theorem length_containerOf (input : List Byte) :
    (containerOf input).length = 265 + ((payloadBitsOf input).length + 7) / 8 := by
  rw [containerOf_eq, List.length_append, length_fields, List.length_append, length_lengthBytes, length_packBits]
  omega

theorem containerByte_field (input : List Byte) {a : Nat} (ha : a < 8) :
    containerByte input a = (MAGIC ++ bigEndian32 input.length).getD a 0 := by
  rw [containerByte, containerOf_eq, List.getD_append _ _ _ _ (by rw [length_fields]; exact ha)]

theorem containerByte_length (input : List Byte) {i : Nat} (hi : i < NSYM) :
    containerByte input (8 + i) = BitVec.ofNat 8 (huffmanLength (countOf input) i) := by
  rw [containerByte, containerOf_eq, List.getD_append_right _ _ _ _ (by rw [length_fields]; omega), length_fields,
    Nat.add_sub_cancel_left, List.getD_append _ _ _ _ (by rw [length_lengthBytes]; exact hi), lengthBytes]
  simp [hi]

theorem containerByte_payload (input : List Byte) (j : Nat) :
    containerByte input (265 + j) = (packBits (payloadBitsOf input)).getD j 0 := by
  rw [containerByte, containerOf_eq, List.getD_append_right _ _ _ _ (by rw [length_fields]; omega), length_fields,
    List.getD_append_right _ _ _ _ (by rw [length_lengthBytes]; omega), length_lengthBytes,
    show 265 + j - 8 - 257 = j by omega]

theorem map_containerByte_tag (input : List Byte) : (List.range 4).map (containerByte input) = MAGIC := by
  have hfield : (List.range 4).map (containerByte input) =
      (List.range 4).map (fun a => (MAGIC ++ bigEndian32 input.length).getD a 0) :=
    List.map_congr_left fun a ha => containerByte_field input ((List.mem_range.1 ha).trans (by decide))
  rw [hfield]
  rfl

theorem origLen_containerByte {input : List Byte} (h : input.length < 2 ^ 32) :
    origLen (containerByte input) = input.length := by
  have h4 : containerByte input 4 = BitVec.ofNat 8 (input.length / 2 ^ 24) := containerByte_field input (by decide)
  have h5 : containerByte input 5 = BitVec.ofNat 8 (input.length / 2 ^ 16) := containerByte_field input (by decide)
  have h6 : containerByte input 6 = BitVec.ofNat 8 (input.length / 2 ^ 8) := containerByte_field input (by decide)
  have h7 : containerByte input 7 = BitVec.ofNat 8 input.length := containerByte_field input (by decide)
  rw [origLen, h4, h5, h6, h7]
  simp only [BitVec.toNat_ofNat]
  omega

/-- The code lengths in the container's header are those of the input (R90). -/
theorem headerLengths_containerByte {input : List Byte} (h : CodesInput (huffmanLength (countOf input)) input) {i : Nat}
    (hi : i < NSYM) : headerLengths (containerByte input) i = huffmanLength (countOf input) i := by
  have hmax : huffmanLength (countOf input) i ≤ 45 := h.le_max i hi
  rw [headerLengths, containerByte_length input hi, BitVec.toNat_ofNat, Nat.mod_eq_of_lt (by omega)]

/-- The header of the container is accepted (R163 to R168). -/
theorem headerAccepted_containerByte {input : List Byte} (h : CodesInput (huffmanLength (countOf input)) input)
    {k : Nat} (hk : HDR_LEN ≤ k) : HeaderAccepted k (containerByte input) := by
  have hlen : ∀ i, i < NSYM → headerLengths (containerByte input) i = huffmanLength (countOf input) i :=
    fun i hi => headerLengths_containerByte h hi
  refine ⟨hk, map_containerByte_tag input, fun i hi => (hlen i hi).trans_le (h.le_max i hi), ?_,
    (kraftOf_congr hlen).trans_le h.kraft⟩
  have heos : (containerByte input 264).toNat = huffmanLength (countOf input) EOS := hlen EOS (by decide)
  rw [heos]
  exact h.eos.ne'

/-- The payload bits that follow the header, with the pad bits behind them (R97, R102). -/
theorem containerPayload_containerByte {input : List Byte} {k : Nat} (hk : k ≤ (containerOf input).length) :
    containerPayload k (containerByte input) =
      (payloadBitsOf input ++ List.replicate 7 false).take (8 * (k - 265)) := by
  rw [length_containerOf] at hk
  refine List.ext_getElem? fun j => ?_
  by_cases hj : j < 8 * (k - 265)
  · have hbyte : containerByte input (265 + j / 8) = packedByte (payloadBitsOf input) (j / 8) := by
      rw [containerByte_payload, getD_packBits (by omega)]
    have hbit := getElem?_payloadBitsAt (containerByte input) 265 hj
    rw [hbyte, msbFirstBit_packedByte] at hbit
    refine hbit.trans ?_
    rw [List.getElem?_take_of_lt hj]
    by_cases hin : j < (payloadBitsOf input).length
    · rw [List.getElem?_append_left hin, List.getElem?_eq_getElem hin, List.getD_eq_getElem _ _ hin]
    · have hpad : j - (payloadBitsOf input).length < 7 := by omega
      rw [List.getElem?_append_right (Nat.not_lt.1 hin), List.getElem?_replicate_of_lt hpad,
        List.getD_eq_default _ _ (Nat.not_lt.1 hin)]
  · rw [List.getElem?_eq_none, List.getElem?_eq_none]
    · rw [List.length_take]; omega
    · rw [containerPayload, length_payloadBitsAt]
      exact Nat.not_lt.1 hj

/-! ### The outcome on a container -/

section
variable {cfg : Config} {input : List Byte} (h : CodesInput (huffmanLength (countOf input)) input)
  (hshort : input.length < 2 ^ 32) (hroom : input.length ≤ cfg.omemSize) {k : Nat} (hle : k ≤ cfg.imemSize)
include h hshort hroom hle

/-- With its header whole, the container is decoded as far as its payload goes (R232). -/
theorem decompressOutcome_container (hk : HDR_LEN ≤ k) : decompressOutcome cfg k (containerByte input) =
    prefixDecode (huffmanLength (countOf input)) input.length (containerPayload k (containerByte input)) [] [] := by
  have horig := origLen_containerByte hshort
  rw [decompressOutcome_of_room hle (headerAccepted_containerByte h hk) (horig.trans_le hroom), horig,
    prefixDecode_congr fun i hi => headerLengths_containerByte h hi]

/-- The whole container is decoded to the input (R234). -/
theorem decompressOutcome_whole (hk : k = (containerOf input).length) :
    decompressOutcome cfg k (containerByte input) = .ok input := by
  have hlen := length_containerOf input
  have hdecode : prefixDecode (huffmanLength (countOf input)) input.length (payloadBitsOf input) [] [] = .ok input :=
    prefixDecode_payloadString h (Nat.zero_add _)
  have hprefix : payloadBitsOf input <+: containerPayload k (containerByte input) := by
    rw [containerPayload_containerByte hk.le, List.prefix_take_iff]
    exact ⟨List.prefix_append _ _, by omega⟩
  rw [decompressOutcome_container h hshort hroom hle (show 265 ≤ k by omega),
    prefixDecode_of_prefix hprefix (by rw [hdecode]; nofun), hdecode]

/-- A container cut behind its header is TruncatedPayload (R235). -/
theorem decompressOutcome_cut (hk : HDR_LEN ≤ k) (hcut : k < (containerOf input).length) :
    decompressOutcome cfg k (containerByte input) = .error .truncatedPayload := by
  have hlen := length_containerOf input
  have hshorter : 8 * (k - 265) < (payloadBitsOf input).length := by
    have hk' : 265 ≤ k := hk
    omega
  rw [decompressOutcome_container h hshort hroom hle hk, containerPayload_containerByte hcut.le,
    List.take_append_of_le_length hshorter.le]
  refine prefixDecode_cut_payload h (Nat.zero_add _) (List.take_prefix _ _) fun heq => ?_
  have := congrArg List.length heq
  rw [List.length_take, ← payloadBitsOf] at this
  omega

end

/-! ### COMPRESS, then DECOMPRESS -/

theorem getD_inputBytes (s : State) {a : Nat} (ha : a < s.ilen.toNat) : (inputBytes s).getD a 0 = s.imem.read a := by
  simp [inputBytes, ha]

/-- DECOMPRESS of as many bytes of a container as were copied has the outcome of those bytes (R295). -/
theorem exec_decompress_copied {s' t : State} {cfg : Config} {input : List Byte} (hb : s'.busy = false)
    (hcfg : s'.cfg = cfg) (hwritten : ∀ a, a < t.olen.toNat → t.omem.read a = containerByte input a)
    (hle : s'.ilen.toNat ≤ t.olen.toNat) (hcopy : ∀ a, a < s'.ilen.toNat → s'.imem.read a = t.omem.read a) :
    ∃ u, exec .decompress s' = .next u ∧ DecompressEnds s'.omem s'.ilen.toNat s'.imem.read
      (decompressOutcome cfg s'.ilen.toNat (containerByte input)) u := by
  have hread : ∀ a, a < s'.ilen.toNat → s'.imem.read a = containerByte input a := fun a ha =>
    (hcopy a ha).trans (hwritten a (ha.trans_le hle))
  rw [← decompressOutcome_congr hread, ← hcfg]
  exact exec_decompress_outcome hb

/-- Settles O35: the container written is decoded to the input it was made of. -/
theorem roundTrip : Obligations.RoundTrip := by
  unfold Obligations.RoundTrip
  intro s hcfg hb hlen hroom hfit
  obtain ⟨himem, homem⟩ := le_min_iff.1 hfit
  obtain ⟨t, ht, hresult⟩ := compressWritesTheContainer s hcfg hb hlen
  rw [if_pos homem] at hresult
  obtain ⟨-, holen, hwritten, -⟩ := hresult
  refine ⟨t, ht, fun s' hb' hcfg' hilen hcopy => ?_⟩
  rw [← hilen] at hcopy holen
  obtain ⟨u, hu, hends⟩ := exec_decompress_copied hb' hcfg' hwritten (hilen ▸ le_rfl) hcopy
  rw [decompressOutcome_whole (codesInput hb hlen) (length_inputBytes s ▸ s.ilen.isLt)
    ((length_inputBytes s).trans_le hroom) (holen.trans_le himem) holen] at hends
  have hsize : u.olen.toNat = s.ilen.toNat := hends.olen.trans (length_inputBytes s)
  refine ⟨u, hu, hends.status, BitVec.eq_of_toNat_eq hsize, fun a ha => ?_⟩
  rw [hends.omem, read_writeAll_zero, if_pos (by rwa [length_inputBytes]), getD_inputBytes s ha]

/-- Settles O36: a payload cut short ends within a code, and a header cut short is not accepted. -/
theorem truncationDetected : Obligations.TruncationDetected := by
  unfold Obligations.TruncationDetected
  intro s t hcfg hb hlen hroom ht hok s' hb' hcfg' hcut hle hcopy
  obtain ⟨v, hv, hresult⟩ := compressWritesTheContainer s hcfg hb hlen
  obtain rfl : t = v := Host.Outcome.next.inj (ht.symm.trans hv)
  split at hresult
  swap
  · obtain ⟨hfail, -⟩ := hresult
    obtain ⟨-, -, habs⟩ := packStatus_inj.1 (hfail.symm.trans hok)
    cases habs
  obtain ⟨-, holen, hwritten, -⟩ := hresult
  obtain ⟨u, hu, hends⟩ := exec_decompress_copied hb' hcfg' hwritten hcut.le hcopy
  refine ⟨u, hu, ?_⟩
  by_cases hheader : HDR_LEN ≤ s'.ilen.toNat
  · rw [decompressOutcome_cut (codesInput hb hlen) (length_inputBytes s ▸ s.ilen.isLt)
      ((length_inputBytes s).trans_le hroom) hle hheader (hcut.trans_eq holen)] at hends
    rw [if_pos hheader]
    exact hends.symm
  · rw [decompressOutcome_of_not_accepted hle fun hacc => hheader hacc.1] at hends
    rw [if_neg hheader]
    exact hends.symm

end Sys2Proof.Safety
end

section
/-! PROOFS. The errors of the block (spec/60_exceptions.md R252 to R256, R260, R262, R265): O6, O15, O32, O33, O34. -/

namespace Sys2Proof.Safety

open Sys2Proof.Machine

/-! ### The header checks -/

/-- A container that the reference rejects has that error and no result (R232, R262). -/
theorem exec_decompress_of_outcome_error {s : State} {e : ErrCode} (hb : s.busy = false)
    (h : decompressOutcome s.cfg s.ilen.toNat s.imem.read = .error e) :
    ∃ t, exec .decompress s = .next t ∧ t.status = packStatus false true e ∧ t.olen = 0 := by
  obtain ⟨t, ht, hends⟩ := exec_decompress_outcome hb
  rw [h] at hends
  exact ⟨t, ht, hends⟩

/-- Settles O33: the reference tests the header before ORIG_LEN, and both before the payload. -/
theorem headerErrors : Obligations.HeaderErrors := by
  unfold Obligations.HeaderErrors
  intro s hb hle
  refine ⟨fun hrejected => ?_, fun haccepted hroom => ?_⟩
  · exact exec_decompress_of_outcome_error hb (decompressOutcome_of_not_accepted hle hrejected)
  · exact exec_decompress_of_outcome_error hb (decompressOutcome_of_no_room hle haccepted hroom)

/-! ### An operation that fails -/

/-- From an idle block an operation ends with PHASE IDLE and one of the outcomes (R221, R237). -/
theorem exec_ended {i : Instr} {s t : State} (hb : s.busy = false) (ht : exec i s = .next t) :
    t.phase = .idle ∧ ∃ e, t.status = packStatus false true e := by
  cases i with
  | compress =>
    obtain ⟨u, hu, hphase, hlong, hfits⟩ := compressCompletes s hb
    obtain rfl : t = u := Host.Outcome.next.inj (ht.symm.trans hu)
    refine ⟨hphase, ?_⟩
    by_cases hlen : s.cfg.imemSize < s.ilen.toNat
    · exact ⟨_, hlong hlen⟩
    · exact ⟨_, (hfits (Nat.not_lt.1 hlen)).2⟩
  | decompress =>
    obtain ⟨u, e, hu, hphase, -, hstatus⟩ := decompressCompletes s hb
    obtain rfl : t = u := Host.Outcome.next.inj (ht.symm.trans hu)
    exact ⟨hphase, e, hstatus⟩

/-- COMPRESS fails at C_START or at C_SIZE, before any byte goes out (R211, R215, R220). -/
theorem exec_compress_failed {s t : State} (hb : s.busy = false) (ht : exec .compress s = .next t)
    (hfail : t.status ≠ packStatus false true .ok) : t.olen = 0 ∧ t.omem = s.omem := by
  by_cases hlen : s.cfg.imemSize < s.ilen.toNat
  · obtain rfl := Host.Outcome.next.inj (ht.symm.trans (exec_compress_of_gt hb hlen))
    exact ⟨rfl, rfl⟩
  · obtain ⟨f, d, -, -, hexec⟩ := exec_compress_of_le hb (Nat.not_lt.1 hlen)
    obtain rfl := Host.Outcome.next.inj (ht.symm.trans hexec)
    rcases Nat.lt_or_ge (coded (startOperation .cStart s) f d).cfg.omemSize
      (sized (coded (startOperation .cStart s) f d)).osize with hfull | hroom
    · rw [compressed_of_full hfull]
      exact ⟨rfl, rfl⟩
    · exact absurd (congrArg State.status (compressed_of_room hroom)) hfail

/-- DECOMPRESS fails with the reference, which leaves no result (R262). -/
theorem exec_decompress_failed {s t : State} (hb : s.busy = false) (ht : exec .decompress s = .next t)
    (hfail : t.status ≠ packStatus false true .ok) : t.olen = 0 := by
  obtain ⟨u, hu, hends⟩ := exec_decompress_outcome hb
  obtain rfl : t = u := Host.Outcome.next.inj (ht.symm.trans hu)
  cases hr : decompressOutcome s.cfg s.ilen.toNat s.imem.read with
  | ok out => rw [hr] at hends; exact absurd hends.status hfail
  | error e => rw [hr] at hends; exact hends.2

/-- Settles O34: every operation ends idle and keeps its input; the failure of each clears OLEN. -/
theorem failureLeavesNoResult : Obligations.FailureLeavesNoResult := by
  unfold Obligations.FailureLeavesNoResult
  intro i s t hb ht hfail
  have hkeep : EngineKeeps s t := exec_keeps ht
  obtain ⟨hphase, e, hstatus⟩ := exec_ended hb ht
  obtain ⟨holen, homem⟩ : t.olen = 0 ∧ (i = .compress → t.omem = s.omem) := by
    cases i with
    | compress =>
      obtain ⟨holen, homem⟩ := exec_compress_failed hb ht hfail
      exact ⟨holen, fun _ => homem⟩
    | decompress => exact ⟨exec_decompress_failed hb ht hfail, nofun⟩
  exact ⟨holen, hkeep.ilen, hkeep.imem, hphase, State.busy_eq hstatus, State.done_eq hstatus, homem⟩

/-! ### An input that IMEM does not hold -/

/-- DECOMPRESS of a container that IMEM does not hold ends at D_START (R226). -/
theorem exec_decompress_of_gt {s : State} (hb : s.busy = false) (hlen : s.cfg.imemSize < s.ilen.toNat) :
    exec .decompress s = .next (raiseError .ioFailure (startOperation .dStart s).forgetOmem) := by
  have hstart : enginePhase (startOperation .dStart s) =
      .next (raiseError .ioFailure (startOperation .dStart s).forgetOmem) := congrArg endDecompressPhase (if_pos hlen)
  rw [exec_decompress_of_idle hb, runPhases_succ (show Phase.dStart ≠ .idle by decide) hstart, runPhases_idle rfl]

/-- Settles O32: each operation raises in its first phase. -/
theorem inputTooLongIsIoFailure : Obligations.InputTooLongIsIoFailure := by
  unfold Obligations.InputTooLongIsIoFailure
  intro s hb hlen
  have hstatus : packStatus false true .ioFailure = 0x12 := by decide
  rw [← hstatus]
  exact ⟨exec_compress_of_gt hb hlen, exec_decompress_of_gt hb hlen⟩

/-! ### A reserved command -/

theorem decode_of_reserved {c : Byte} (h1 : c ≠ 0x01) (h2 : c ≠ 0x02) : decode c = .error (.reservedCommand c) := by
  rw [decode_eq, if_neg h1, if_neg h2]

section
variable {s : State} {c : Byte} (hb : s.busy = false) (h1 : c ≠ 0x01) (h2 : c ≠ 0x02)
include hb h1 h2

theorem writeCmd_of_reserved : writeCmd c s = badCommand s := by
  simp [writeCmd, hb, decode_of_reserved h1 h2]

theorem command_of_reserved : command c s = .next (badCommand s) := by
  simp [command, hb, decode_of_reserved h1 h2]

end

/-- Settles O6, by the form of the CMD write. -/
theorem reservedCommandIsBadCommand : Obligations.ReservedCommandIsBadCommand := by
  unfold Obligations.ReservedCommandIsBadCommand
  intro s v rest hb h1 h2 hagenda
  have hb' : ({ s with agenda := rest } : State).busy = false := hb
  rcases hagenda with h | h
  · rw [step_of_cons h]
    exact congrArg Host.Outcome.next (writeCmd_of_reserved hb' h1 h2)
  · rw [step_of_cons h]
    exact command_of_reserved hb' h1 h2

/-! ### The outcome of the last operation -/

/-- A next state, if there is one, has the STATUS and the OLEN of `s` (R265). -/
def KeepsOutcome (s : State) : Host.Outcome State Fault Refusal → Prop
  | .next t => t.status = s.status ∧ t.olen = s.olen
  | .fault _ => True
  | .refused _ => True

theorem hostWriteImem_keepsOutcome (a : Nat) (v : Byte) (s : State) : KeepsOutcome s (hostWriteImem a v s) := by
  rw [hostWriteImem_eq]
  split
  · trivial
  · split
    · trivial
    · exact ⟨rfl, rfl⟩

theorem hostReadImem_keepsOutcome (a : Nat) (s : State) : KeepsOutcome s (hostReadImem a s) := by
  rw [hostReadImem_eq]
  split
  · trivial
  · exact ⟨rfl, rfl⟩

theorem hostReadOmem_keepsOutcome (a : Nat) (s : State) : KeepsOutcome s (hostReadOmem a s) := by
  unfold hostReadOmem
  split
  · split <;> exact ⟨rfl, rfl⟩
  · trivial

theorem hostCopy_keepsOutcome (n : Nat) (s : State) : KeepsOutcome s (hostCopy n s) := by
  unfold hostCopy
  split
  · trivial
  · split
    · trivial
    · split
      · exact ⟨rfl, rfl⟩
      · split
        · trivial
        · exact ⟨rfl, rfl⟩

theorem hostWait_keepsOutcome (rest : List Event) {s : State} (hb : s.busy = false) :
    KeepsOutcome s (hostWait rest s) := by
  unfold hostWait
  split
  · exact ⟨rfl, rfl⟩
  · rw [engineTurn_of_idle hb]
    exact ⟨rfl, rfl⟩

/-- A host write of a register other than CMD leaves the outcome alone (R21, R24). -/
theorem writeRegister_keepsOutcome {n : Nat} (v : Word32) {s : State} (hn : n ≠ 0) :
    KeepsOutcome s (.next (writeRegister n v s)) := by
  by_cases h2 : n = 2
  · subst h2
    show KeepsOutcome s (.next (s.writeIlen v))
    unfold State.writeIlen
    split <;> exact ⟨rfl, rfl⟩
  · rw [writeRegister_of_ne v s hn h2]
    exact ⟨rfl, rfl⟩

/-- While BUSY = 0 only a CMD write and the reset input change the outcome (R26, R265). -/
theorem event_keepsOutcome {e : Event} (rest : List Event) {s : State} (hb : s.busy = false) (hreset : e ≠ .reset)
    (hcommand : ∀ c, e ≠ .command c) (hwrite : ∀ v, e ≠ .writeReg 0 v) : KeepsOutcome s (event e rest s) := by
  cases e with
  | engine =>
    have hturn : engineTurn { s with agenda := rest } = .next { s with agenda := rest } := engineTurn_of_idle hb
    rw [event, hturn]
    exact ⟨rfl, rfl⟩
  | reset => exact absurd rfl hreset
  | readReg n => exact ⟨rfl, rfl⟩
  | writeReg n v =>
    exact writeRegister_keepsOutcome v (s := { s with agenda := rest }) fun hn => hwrite v (hn ▸ rfl)
  | writeImem a v => exact hostWriteImem_keepsOutcome a v { s with agenda := rest }
  | readImem a => exact hostReadImem_keepsOutcome a { s with agenda := rest }
  | readOmem a => exact hostReadOmem_keepsOutcome a { s with agenda := rest }
  | writeOmem a v => trivial
  | command c => exact absurd rfl (hcommand c)
  | wait => exact hostWait_keepsOutcome rest hb
  | copy n => exact hostCopy_keepsOutcome n { s with agenda := rest }

/-- Settles O15, event by event. -/
theorem outcomeIsSticky : Obligations.OutcomeIsSticky := by
  unfold Obligations.OutcomeIsSticky
  intro s t e rest hb hagenda ht hreset hcommand hwrite
  have hkeep := event_keepsOutcome rest hb hreset hcommand hwrite
  rwa [← step_of_cons hagenda, ht] at hkeep

end Sys2Proof.Safety
end

section
/-! PROOFS. The host's side of an operation (spec/70_reset_and_hazards.md R280, R282, R288, R289, R293, R297): O5, O9,
O11, O14, O18, O21. -/

namespace Sys2Proof.Safety

open Sys2Proof.Machine

/-! ### The command and the reset -/

/-- A CMD write that decodes starts the operation of an idle block (R42, R288). -/
theorem writeCmd_of_decode {s : State} {c : Byte} {i : Instr} (hb : s.busy = false) (h : decode c = .ok i) :
    writeCmd c s = startOperation (firstPhase i) s := by
  simp [writeCmd, hb, h]

/-- Settles O5: the event is the write of CMD, whose low byte decodes. -/
theorem commandWriteStartsOperation : Obligations.CommandWriteStartsOperation := by
  unfold Obligations.CommandWriteStartsOperation
  intro s v rest i hagenda hb hdecode
  rw [step_of_cons hagenda]
  exact congrArg Host.Outcome.next (writeCmd_of_decode (s := { s with agenda := rest }) hb hdecode)

/-- Settles O9: the step is the reset input, which leaves the agenda to the host. -/
theorem resetInputEffect : Obligations.ResetInputEffect := by
  unfold Obligations.ResetInputEffect
  intro s rest hagenda
  rw [step_of_cons hagenda]
  refine ⟨{ s with agenda := rest }.resetInput, rfl, rfl, rfl, rfl, rfl, ?_, rfl, rfl, rfl, rfl⟩
  simp [State.busy]

/-! ### Reads during an operation -/

section
variable {s : State} {a : Nat} (ha : a < s.cfg.omemSize)
include ha

theorem hostReadOmem_of_idle (hb : s.busy = false) :
    hostReadOmem a s = .next { s with rdata := (s.omem.read a).setWidth 32 } := by
  simp [hostReadOmem, ha, hb]

/-- The read takes a new era, and no byte of the block (R293). -/
theorem hostReadOmem_of_busy (hb : s.busy = true) :
    hostReadOmem a s =
      .next { s with rdata := (Config.freeByte s.fresh a).setWidth 32, fresh := s.fresh + 1 } := by
  simp [hostReadOmem, ha, hb]

end

/-- Settles O11, by BUSY. -/
theorem omemReadWhileBusyIsUnspecified : Obligations.OmemReadWhileBusyIsUnspecified := by
  unfold Obligations.OmemReadWhileBusyIsUnspecified
  intro s a rest hagenda ha
  rw [step_of_cons hagenda]
  exact ⟨hostReadOmem_of_idle (s := { s with agenda := rest }) ha,
    hostReadOmem_of_busy (s := { s with agenda := rest }) ha⟩

/-- Settles O18: the invariant leaves a busy block one STATUS, and with it no OLEN but 0. -/
theorem busyReadsShowNoResult : Obligations.BusyReadsShowNoResult := by
  unfold Obligations.BusyReadsShowNoResult
  intro s rest hinv hb
  have hstatus : s.status = packStatus true false .ok := status_of_busy hinv hb
  have holen : s.olen = 0 := hinv.olenClear (by rw [hstatus]; decide)
  refine ⟨fun h => ⟨_, step_of_cons h, ?_⟩, fun h => ⟨_, step_of_cons h, holen⟩⟩
  show s.status.setWidth 32 = 0x01
  rw [hstatus]
  decide

/-! ### The wait -/

section
variable {s : State} {rest : List Event} (hagenda : s.agenda = .wait :: rest)
include hagenda

/-- Once STATUS reads DONE = 1 the host goes on (R289). -/
theorem step_wait_of_done (hdone : s.done = true) :
    step s = .next { s with agenda := rest, rdata := s.status.setWidth 32 } := by
  rw [step_of_cons hagenda, event, hostWait, if_pos hdone]
  rfl

/-- Until then the step is the engine's turn (R289). -/
theorem step_wait_of_not_done (hdone : s.done = false) : step s = engineTurn s := by
  rw [step_of_cons hagenda, event, hostWait, if_neg (by simp [hdone])]

end

/-- The engine's turn leaves the agenda to the host. -/
theorem engineTurn_agenda {s t : State} (ht : engineTurn s = .next t) : t.agenda = s.agenda := by
  cases hb : s.busy with
  | true => exact (enginePhase_keeps (engineTurn_of_busy hb ▸ ht)).agenda
  | false => exact congrArg State.agenda (Host.Outcome.next.inj ((engineTurn_of_idle hb).symm.trans ht)).symm

/-- Settles O14, by DONE: the engine's turn keeps the agenda, so the wait stays in front. -/
theorem waitPollsStatus : Obligations.WaitPollsStatus := by
  unfold Obligations.WaitPollsStatus
  intro s rest hagenda
  refine ⟨step_wait_of_done hagenda, fun hdone hb => ?_, fun hdone t ht => ?_⟩
  · rw [step_wait_of_not_done hagenda hdone, engineTurn_of_busy hb]
  · rw [step_wait_of_not_done hagenda hdone] at ht
    exact (engineTurn_agenda ht).trans hagenda

/-! ### The end of the wait -/

/-- The host waits for an operation, and STATUS says whether it runs or has ended (R23, R40). -/
structure Awaited (s : State) : Prop where
  agenda : s.agenda = [.wait]
  running : s.phase ≠ .idle → s.status = packStatus true false .ok
  ended : s.phase = .idle → ∃ e, s.status = packStatus false true e

theorem awaited_startOperation {s : State} {p : Phase} (hagenda : s.agenda = [.wait]) (hp : p ≠ .idle) :
    Awaited (startOperation p s) :=
  ⟨hagenda, fun _ => rfl, fun h => absurd h hp⟩

/-- While the operation runs the machine's step is its next phase. -/
theorem Awaited.step_running {s : State} (h : Awaited s) (hp : s.phase ≠ .idle) : step s = enginePhase s := by
  rw [step_wait_of_not_done h.agenda (State.done_eq (h.running hp)),
    engineTurn_of_busy (State.busy_eq (h.running hp))]

/-- A turn of the engine goes on with STATUS as it was, or ends the operation with DONE = 1 (R40). -/
theorem Awaited.after_turn {s t : State} (h : Awaited s) (hp : s.phase ≠ .idle) (ht : enginePhase s = .next t) :
    Awaited t := by
  obtain ⟨-, hended, hrunning⟩ := enginePhase_inOrder hp ht
  exact ⟨(enginePhase_keeps ht).agenda.trans h.agenda, fun hpt => (hrunning hpt).trans (h.running hp), hended⟩

/-- The wait is over within `n` of the machine's steps: the host has no move left and has seen DONE = 1. -/
def WaitEndsWithin (n : Nat) (s : State) : Prop :=
  ∃ k t, k ≤ n ∧ Host.Core.run core k s = .next t ∧ t.agenda = [] ∧ t.done = true

theorem WaitEndsWithin.mono {m n : Nat} {s : State} (h : WaitEndsWithin m s) (hmn : m ≤ n) : WaitEndsWithin n s := by
  obtain ⟨k, t, hk, hend⟩ := h
  exact ⟨k, t, hk.trans hmn, hend⟩

theorem WaitEndsWithin.of_step {n : Nat} {s t : State} (hstep : step s = .next t) (h : WaitEndsWithin n t) :
    WaitEndsWithin (n + 1) s := by
  obtain ⟨k, u, hk, hrun, hend⟩ := h
  exact ⟨k + 1, u, Nat.succ_le_succ hk, (core_run_succ hstep k).trans hrun, hend⟩

/-- The wait for an operation that has ended takes one step. -/
theorem Awaited.ends_of_idle {s : State} (h : Awaited s) (hp : s.phase = .idle) : WaitEndsWithin 1 s := by
  obtain ⟨e, hstatus⟩ := h.ended hp
  have hdone : s.done = true := State.done_eq hstatus
  exact ⟨1, _, le_rfl, core_run_succ (step_wait_of_done h.agenda hdone) 0, rfl, hdone⟩

/-- The wait takes one step more than the turns that lead the engine to IDLE. -/
theorem Awaited.ends_of_runPhases {n : Nat} {s t : State} (h : Awaited s) (hrun : runPhases n s = .next t)
    (hidle : t.phase = .idle) : WaitEndsWithin (n + 1) s := by
  induction n generalizing s with
  | zero =>
    injection hrun with hst
    exact h.ends_of_idle (hst ▸ hidle)
  | succ n ih =>
    by_cases hp : s.phase = .idle
    · exact (h.ends_of_idle hp).mono (by omega)
    · cases hturn : enginePhase s with
      | next u =>
        rw [runPhases_succ hp hturn] at hrun
        exact (ih (h.after_turn hp hturn) hrun).of_step ((h.step_running hp).trans hturn)
      | fault f => simp [runPhases, hp, hturn] at hrun
      | refused r => simp [runPhases, hp, hturn] at hrun

/-- From an idle block every operation ends, neither in a fault nor in a refusal (R224, R237). -/
theorem exec_completes {s : State} (i : Instr) (hb : s.busy = false) :
    ∃ t, exec i s = .next t ∧ t.phase = .idle := by
  cases i with
  | compress =>
    obtain ⟨t, ht, hidle, -⟩ := compressCompletes s hb
    exact ⟨t, ht, hidle⟩
  | decompress =>
    obtain ⟨t, -, ht, hidle, -⟩ := decompressCompletes s hb
    exact ⟨t, ht, hidle⟩

/-- The wait for an operation just started takes at most ten steps: its phases, and the read of DONE = 1. -/
theorem startOperation_wait_ends {s : State} (i : Instr) (hb : s.busy = false) (hagenda : s.agenda = [.wait]) :
    WaitEndsWithin 10 (startOperation (firstPhase i) s) := by
  have hstart : Awaited (startOperation (firstPhase i) s) := awaited_startOperation hagenda (by cases i <;> decide)
  have hphases : phaseCount i ≤ 9 := by cases i <;> decide
  obtain ⟨t, hexec, hidle⟩ := exec_completes i hb
  rw [exec_of_idle i hb] at hexec
  exact (hstart.ends_of_runPhases hexec hidle).mono (by omega)

/-- Settles O21: the CMD write takes one step, and the wait for the operation it starts at most ten. -/
theorem waitAfterCommandEnds : Obligations.WaitAfterCommandEnds := by
  unfold Obligations.WaitAfterCommandEnds
  intro i s hb
  have hwrite : step { s with agenda := [.writeReg 0 ((encode i).setWidth 32), .wait] } =
      .next (startOperation (firstPhase i) { s with agenda := [.wait] }) := by
    rw [step_of_cons rfl]
    exact congrArg Host.Outcome.next (writeRegister_cmd_of_idle (s := { s with agenda := [.wait] }) i hb)
  have hwait := startOperation_wait_ends (s := { s with agenda := [.wait] }) i hb rfl
  exact (hwait.of_step hwrite).mono (by decide)

end Sys2Proof.Safety
end
